-- ==== Sys2Proof/Word.lean ====
section
/-! DEFINITION. The word types of the core: a 32-bit register value, a byte, and a complex value of two binary32 words (00_scope.md R8, R13). -/

namespace Sys2Proof

/-- A 32-bit register value; a binary32 value sits in it as its bit pattern (R7, R55). -/
abbrev Word := BitVec 32

/-- One byte lane of a word (R55). -/
abbrev Byte := BitVec 8

/-- A complex value: a pair of binary32 words (R13). -/
structure Cplx where
  /-- real part, the word at the lower address (R54) -/
  re : Word
  /-- imaginary part -/
  im : Word
deriving DecidableEq, Repr, Inhabited

end Sys2Proof
end

