-- ==== Sys2Proof/Syntax.lean ====
section
/-! DEFINITION. The commands of the core: one constructor per row of the opcode map (30_encoding.md R74), with the operand forms of R72 and R78. -/

namespace Sys2Proof

/-- A command. `n` is the transform length N = NLEN, `c` the filter channel index CH (R71, R78). -/
inductive Instr where
  /-- R94 -/
  | cadd
  /-- R95 -/
  | csub
  /-- R96 -/
  | cmul
  /-- R97 -/
  | cpolar
  /-- R145 -/
  | fftDft (n : Nat)
  /-- R146 -/
  | fftRs (n : Nat)
  /-- R147 -/
  | fftRb (n : Nat)
  /-- R148 -/
  | fftIt (n : Nat)
  /-- R149 -/
  | bitrev (n : Nat)
  /-- R112 -/
  | fcfgLpf1 (c : Nat)
  /-- R113 -/
  | fcfgHpf1 (c : Nat)
  /-- R114 -/
  | fcfgLpf2 (c : Nat)
  /-- R115 -/
  | fcfgHpf2 (c : Nat)
  /-- R116 -/
  | fapply (c : Nat)
deriving DecidableEq, Repr

end Sys2Proof
end

