-- ==== Sys2Proof/WellFormed.lean ====
section
/-! DEFINITION. When a command can be encoded: its operand fits its field (30_encoding.md R70, R78). A length or a channel the core rejects at run time is still well formed. -/

namespace Sys2Proof

/-- A length fits NLEN, 16 bits (R70, R78: "n > 65535" is refused). -/
def lengthFits (n : Nat) : Bool := decide (n < 2 ^ 16)

/-- A channel index fits CH, 4 bits (R70, R78: "c > 15" is refused). -/
def channelFits (c : Nat) : Bool := decide (c < 2 ^ 4)

/-- Every operand fits its field. -/
def Instr.wellFormed : Instr → Bool
  | .cadd => true
  | .csub => true
  | .cmul => true
  | .cpolar => true
  | .fftDft n => lengthFits n
  | .fftRs n => lengthFits n
  | .fftRb n => lengthFits n
  | .fftIt n => lengthFits n
  | .bitrev n => lengthFits n
  | .fcfgLpf1 c => channelFits c
  | .fcfgHpf1 c => channelFits c
  | .fcfgLpf2 c => channelFits c
  | .fcfgHpf2 c => channelFits c
  | .fapply c => channelFits c

end Sys2Proof
end

