-- ==== Sys2Proof/Decode.lean ====
section
/-! DEFINITION. The command word's fields, the decoder and the encoder (30_encoding.md R70 to R78). The decoder is total: a word no row of R74 matches is rejected by name (R75). -/

namespace Sys2Proof

/-- The fields of a command word (R70). -/
structure Fields where
  /-- OP, bits 7..0 -/
  op : BitVec 8
  /-- CH, bits 11..8 -/
  ch : BitVec 4
  /-- RSV, bits 15..12 -/
  rsv : BitVec 4
  /-- NLEN, bits 31..16 -/
  nlen : BitVec 16
deriving DecidableEq, Repr

/-- The fields of a word (R71). -/
def fieldsOf (w : Word) : Fields :=
  { op := w.extractLsb' 0 8, ch := w.extractLsb' 8 4, rsv := w.extractLsb' 12 4, nlen := w.extractLsb' 16 16 }

/-- The word with the given fields: NLEN above RSV above CH above OP (R70). -/
def wordOf (f : Fields) : Word := f.nlen ++ f.rsv ++ f.ch ++ f.op

/-- Why a word is no command (R75). -/
inductive DecodeError where
  /-- OP is none of the 14 values of R74. Safe: R182 gives the word its effect, ILLEGAL_CMD. -/
  | unassignedOp
  /-- OP is assigned, but a field its class must hold zero is nonzero (R73). Safe: as above. -/
  | nonzeroField
deriving DecidableEq, Repr

/-- The complex class: CH, RSV and NLEN must be 0 (R73). -/
def complexForm (f : Fields) (i : Instr) : Except DecodeError Instr :=
  if f.ch = 0 ∧ f.rsv = 0 ∧ f.nlen = 0 then .ok i else .error .nonzeroField

/-- The FFT class: CH and RSV must be 0, NLEN is N (R73). -/
def fftForm (f : Fields) (mk : Nat → Instr) : Except DecodeError Instr :=
  if f.ch = 0 ∧ f.rsv = 0 then .ok (mk f.nlen.toNat) else .error .nonzeroField

/-- The filter class: RSV and NLEN must be 0, CH is c (R73). -/
def filterForm (f : Fields) (mk : Nat → Instr) : Except DecodeError Instr :=
  if f.rsv = 0 ∧ f.nlen = 0 then .ok (mk f.ch.toNat) else .error .nonzeroField

/-- The opcode map on a word's fields: OP first, then the fields of OP's class (R74, R77). -/
def decodeFields (f : Fields) : Except DecodeError Instr :=
  if f.op = 0x01 then complexForm f .cadd
  else if f.op = 0x02 then complexForm f .csub
  else if f.op = 0x03 then complexForm f .cmul
  else if f.op = 0x04 then complexForm f .cpolar
  else if f.op = 0x10 then fftForm f .fftDft
  else if f.op = 0x11 then fftForm f .fftRs
  else if f.op = 0x12 then fftForm f .fftRb
  else if f.op = 0x13 then fftForm f .fftIt
  else if f.op = 0x14 then fftForm f .bitrev
  else if f.op = 0x20 then filterForm f .fcfgLpf1
  else if f.op = 0x21 then filterForm f .fcfgHpf1
  else if f.op = 0x22 then filterForm f .fcfgLpf2
  else if f.op = 0x23 then filterForm f .fcfgHpf2
  else if f.op = 0x28 then filterForm f .fapply
  else .error .unassignedOp

/-- The decoder. -/
def decode (w : Word) : Except DecodeError Instr := decodeFields (fieldsOf w)

/-- The decoder's answer for an opcode-table word of `nbits` bits (every command is one 32-bit word, R77). -/
def decodeTableWord (nbits w : Nat) : Option Instr :=
  if nbits ≤ 32 ∧ w < 2 ^ nbits then
    match decode (BitVec.ofNat 32 w) with
    | .ok i => some i
    | .error _ => none
  else none

/-- The opcode OP of a command (R74). -/
def opcode : Instr → BitVec 8
  | .cadd => 0x01
  | .csub => 0x02
  | .cmul => 0x03
  | .cpolar => 0x04
  | .fftDft _ => 0x10
  | .fftRs _ => 0x11
  | .fftRb _ => 0x12
  | .fftIt _ => 0x13
  | .bitrev _ => 0x14
  | .fcfgLpf1 _ => 0x20
  | .fcfgHpf1 _ => 0x21
  | .fcfgLpf2 _ => 0x22
  | .fcfgHpf2 _ => 0x23
  | .fapply _ => 0x28

/-- A command's CH field: the channel of the filter class, 0 otherwise (R73, R78). -/
def chField : Instr → BitVec 4
  | .cadd | .csub | .cmul | .cpolar => 0
  | .fftDft _ | .fftRs _ | .fftRb _ | .fftIt _ | .bitrev _ => 0
  | .fcfgLpf1 c | .fcfgHpf1 c | .fcfgLpf2 c | .fcfgHpf2 c | .fapply c => BitVec.ofNat 4 c

/-- A command's NLEN field: the length of the FFT class, 0 otherwise (R73, R78). -/
def nlenField : Instr → BitVec 16
  | .cadd | .csub | .cmul | .cpolar => 0
  | .fftDft n | .fftRs n | .fftRb n | .fftIt n | .bitrev n => BitVec.ofNat 16 n
  | .fcfgLpf1 _ | .fcfgHpf1 _ | .fcfgLpf2 _ | .fcfgHpf2 _ | .fapply _ => 0

/-- The encoder (R78): (n << 16) OR OP, or (c << 8) OR OP, with RSV 0. -/
def encode (i : Instr) : Word :=
  wordOf { op := opcode i, ch := chField i, rsv := 0, nlen := nlenField i }

end Sys2Proof
end

