-- ==== Sys2Proof/Machine/Binary32.lean ====
section
/-! DEFINITION. IEEE 754 binary32 arithmetic on bit patterns, as 00_scope.md R8 to R10, R12 and R14 fix it: round to nearest, ties to even, gradual underflow, canonical NaN, no flags.

Every finite binary32 value is an integer number of UNITS of 2^-149 (the smallest subnormal). An operation is computed exactly on integers and rounded once, by `roundMag`. -/

namespace Sys2Proof.Machine

/-! ### Fields (R8) -/

/-- Bit 31, the sign. -/
def signBit (x : Word) : Bool := x.getLsbD 31

/-- Bits 30..23, the biased exponent. -/
def expField (x : Word) : Nat := (x.extractLsb' 23 8).toNat

/-- Bits 22..0, the fraction. -/
def fracField (x : Word) : Nat := (x.extractLsb' 0 23).toNat

def isNaN (x : Word) : Bool := expField x == 255 && fracField x != 0

def isInf (x : Word) : Bool := expField x == 255 && fracField x == 0

def isFinite (x : Word) : Bool := expField x != 255

def isZero (x : Word) : Bool := expField x == 0 && fracField x == 0

/-! ### Constants (R9, R12) -/

/-- The canonical quiet NaN (R9). -/
def qNaN : Word := 0x7FC00000#32

def fZero : Word := 0x00000000#32
def fOne : Word := 0x3F800000#32
def fTwo : Word := 0x40000000#32
def fFour : Word := 0x40800000#32

/-- The binary32 nearest pi (R12). -/
def pi32 : Word := 0x40490FDB#32

/-- fmul(TWO, PI32), exact (R12). -/
def twoPi32 : Word := 0x40C90FDB#32

/-! ### Values -/

/-- The magnitude of a finite value, in units of 2^-149: subnormals have exponent field 0 and no hidden bit (R8). -/
def magUnits (x : Word) : Nat :=
  if expField x = 0 then fracField x else (fracField x + 2 ^ 23) * 2 ^ (expField x - 1)

/-- The signed value of a finite word, in units of 2^-149. -/
def units (x : Word) : Int :=
  if signBit x then -(magUnits x : Int) else (magUnits x : Int)

/-- The rational number a finite word stands for. -/
def value (x : Word) : ℚ := (units x : ℚ) / 2 ^ 149

/-! ### Rounding -/

/-- A sign bit above 31 magnitude bits. -/
def pack (s : Bool) (m : Nat) : Word := BitVec.ofBool s ++ BitVec.ofNat 31 m

/-- The magnitude bits of infinity: exponent field 255, fraction 0. -/
def infBits : Nat := 0x7F800000

/-- The binary32 magnitude bits nearest the non-negative rational n/d (in units of 2^-149, d > 0), ties to even (R8).
`k` is how far the quantum lies above one unit, so the significand `m` has at most 24 bits; the bit pattern of a
significand m with quantum 2^k is m + k * 2^23, subnormals and the carry into the next exponent included; what
rounds beyond the largest finite value is infinity. -/
def roundMag (n d : Nat) : Nat :=
  let k := Nat.log2 (n / d) - 23
  let q := d * 2 ^ k
  let m := n / q
  let r := n % q
  let m' := if q < 2 * r || (2 * r == q && m % 2 == 1) then m + 1 else m
  min (m' + k * 2 ^ 23) infBits

/-! ### The operations (R8, R9) -/

/-- fneg: flips the sign bit; a NaN gives the canonical NaN. -/
def fneg (a : Word) : Word :=
  if isNaN a then qNaN else pack (!signBit a) (a.extractLsb' 0 31).toNat

/-- fadd: the exact sum rounded once. An exact zero is -0 only where both operands are negative zeros. -/
def fadd (a b : Word) : Word :=
  if isNaN a || isNaN b then qNaN
  else if isInf a then (if isInf b && signBit a != signBit b then qNaN else a)
  else if isInf b then b
  else
    let v := units a + units b
    if v = 0 then pack (signBit a && signBit b) 0
    else pack (decide (v < 0)) (roundMag v.natAbs 1)

/-- fsub: a - b is a + (-b) under IEEE 754; a NaN operand gives the canonical NaN. -/
def fsub (a b : Word) : Word := fadd a (fneg b)

/-- fmul: the exact product rounded once; Inf * 0 is NaN. -/
def fmul (a b : Word) : Word :=
  let s := signBit a != signBit b
  if isNaN a || isNaN b then qNaN
  else if isInf a || isInf b then (if isZero a || isZero b then qNaN else pack s infBits)
  else pack s (roundMag (magUnits a * magUnits b) (2 ^ 149))

/-- fdiv: the exact quotient rounded once; Inf/Inf and 0/0 are NaN, a nonzero value over zero is an infinity. -/
def fdiv (a b : Word) : Word :=
  let s := signBit a != signBit b
  if isNaN a || isNaN b then qNaN
  else if isInf a then (if isInf b then qNaN else pack s infBits)
  else if isInf b then pack s 0
  else if isZero b then (if isZero a then qNaN else pack s infBits)
  else pack s (roundMag (magUnits a * 2 ^ 149) (magUnits b))

/-- fcvt: the binary32 nearest the natural i (R8). -/
def fcvt (i : Nat) : Word := pack false (roundMag (i * 2 ^ 149) 1)

end Sys2Proof.Machine
end

