-- ==== Sys2Proof/Config.lean ====
section
/-! DEFINITION. What an implementation of the core fixes (00_scope.md R6, R11) and the values the spec leaves open (20_memory.md R65, 70_reset_and_hazards.md R202): opaque constants, so that no proof can see them. -/

namespace Sys2Proof

open Sys2Proof.Machine

/-! ### Parameters (R6; log 1) -/

/-- LOG2_NMAX - 3, so that 8 <= NMAX <= 8192. -/
opaque Config.log2NmaxOver3 : Fin 11

/-- NCH - 1, so that 1 <= NCH <= 16. -/
opaque Config.nchLess1 : Fin 16

/-- BASE_ADDR / 0x20000. -/
opaque Config.baseWindow : Nat

/-- LOG2_NMAX, 3..13 (R6). -/
def Config.log2Nmax : Nat := Config.log2NmaxOver3.val + 3

/-- NCH, 1..16 (R6). -/
def Config.nch : Nat := Config.nchLess1.val + 1

/-- BASE_ADDR, a multiple of 0x20000 (R6). -/
def Config.base : Nat := Config.baseWindow * 0x20000

/-! ### Cosine and sine (R11; log 6, log 7) -/

/-- `w` is within `u` units in the last place of the real `r`: the unit in the last place of r is 2^k units of 2^-149,
with k = max 0 (floor (log2 (|r| * 2^149)) - 23) (R11 P4; log 7). -/
def WithinUlps (u : ℝ) (w : Word) (r : ℝ) : Prop :=
  |((units w : ℤ) : ℝ) - r * 2 ^ 149| ≤ u * 2 ^ (Int.log 2 (|r| * 2 ^ 149) - 23).toNat

/-- A cosine and a sine on the finite binary32 values, with the bound TRIG_ULP on their error, and the properties P2 and P4 of R11. -/
structure Trig where
  cos : Word → Word
  sin : Word → Word
  /-- TRIG_ULP, a real number (R6) -/
  trigUlp : ℝ
  half_le_trigUlp : 1 / 2 ≤ trigUlp
  cos_finite : ∀ x, isFinite x → isFinite (cos x) ∧ |value (cos x)| ≤ 1
  sin_finite : ∀ x, isFinite x → isFinite (sin x) ∧ |value (sin x)| ≤ 1
  cos_close : ∀ x, isFinite x → WithinUlps trigUlp (cos x) (Real.cos (value x : ℝ))
  sin_close : ∀ x, isFinite x → WithinUlps trigUlp (sin x) (Real.sin (value x : ℝ))

/-- Zero is within 2^149 ulps of every real of magnitude at most 1. -/
theorem WithinUlps.zero_of_abs_le_one {u r : ℝ} (hu : 2 ^ 149 ≤ u) (h : |r| ≤ 1) : WithinUlps u 0#32 r := by
  have hz : units 0#32 = 0 := by decide
  have h1 : (1 : ℝ) ≤ 2 ^ (Int.log 2 (|r| * 2 ^ 149) - 23).toNat := one_le_pow₀ (by norm_num)
  have h2 : |r| * 2 ^ 149 ≤ 2 ^ 149 := mul_le_of_le_one_left (by positivity) h
  have h3 : |((0 : ℤ) : ℝ) - r * 2 ^ 149| = |r| * 2 ^ 149 := by
    rw [Int.cast_zero, zero_sub, abs_neg, abs_mul, abs_of_pos (by positivity : (0 : ℝ) < 2 ^ 149)]
  unfold WithinUlps
  rw [hz, h3]
  exact (h2.trans hu).trans (le_mul_of_one_le_right (le_trans (by positivity) hu) h1)

/-- Zero is finite and lies in [-1, 1]. -/
theorem zero_finite_abs_le_one : isFinite 0#32 ∧ |value 0#32| ≤ 1 :=
  ⟨by decide, by simp [value, show units 0#32 = 0 by decide]⟩

/-- R11's properties can be met: `Config.trig` assumes nothing that is false. -/
@[reducible] def Trig.inhabited : Inhabited Trig :=
  ⟨{ cos := fun _ => 0#32, sin := fun _ => 0#32, trigUlp := ((2 ^ 149 : ℕ) : ℝ)
     half_le_trigUlp := by norm_num
     cos_finite := fun _ _ => zero_finite_abs_le_one
     sin_finite := fun _ _ => zero_finite_abs_le_one
     cos_close := fun _ _ => WithinUlps.zero_of_abs_le_one (by norm_num) (Real.abs_cos_le_one _)
     sin_close := fun _ _ => WithinUlps.zero_of_abs_le_one (by norm_num) (Real.abs_sin_le_one _) }⟩

/-- The implementation's cosine and sine (R11). -/
opaque Config.trig [Inhabited Trig] : Trig

/-- TRIG_ULP, at least 1/2 (R6). -/
def Config.trigUlp : ℝ := (@Config.trig Trig.inhabited).trigUlp

/-- FCOS (R11): P1 at the zeros, P3 at infinities and NaNs, the implementation's cosine elsewhere; P5 because it is a function. -/
def Config.fcos (x : Word) : Word :=
  if isZero x then fOne
  else if isFinite x then (@Config.trig Trig.inhabited).cos x
  else qNaN

/-- FSIN (R11): P1 at the zeros (FSIN(-0) = -0), P3 at infinities and NaNs, the implementation's sine elsewhere. -/
def Config.fsin (x : Word) : Word :=
  if isZero x then x
  else if isFinite x then (@Config.trig Trig.inhabited).sin x
  else qNaN

/-! ### Free values -/

/-- What the n-th read of a data-set word while BUSY = 1 returns: any 32-bit value (R65, U6; log 5). -/
opaque Config.freeWord : Nat → Word

/-- What BUF's byte at a window offset holds after the reset event of a given number: any value (R202, U7; log 4). -/
opaque Config.resetByte : Nat → Nat → Byte

end Sys2Proof
end

