-- ==== Sys2Proof/Machine/State.lean ====
section
/-! DEFINITION. The state of the core (10_state.md), what stops a step, and the state after reset (70_reset_and_hazards.md R200 to R202). -/

namespace Sys2Proof.Machine

/-- The error codes of STATUS.ERRCODE (60_exceptions.md R181; codes 5 to 15 are never produced, log 11). -/
inductive ErrCode where
  /-- 0 NONE -/
  | noError
  /-- 1 ILLEGAL_CMD (R182) -/
  | illegalCmd
  /-- 2 BAD_LENGTH (R184) -/
  | badLength
  /-- 3 BAD_CHANNEL (R183) -/
  | badChannel
  /-- 4 NOT_CONFIGURED (R185) -/
  | notConfigured
deriving DecidableEq, Repr

/-- STATUS (R26). BUSY is also PENDING (R36), and ERR is computed from ERRCODE (log 11). -/
structure Status where
  /-- BUSY, bit 0 -/
  busy : Bool
  /-- DONE, bit 1 -/
  done : Bool
  /-- ERRCODE, bits 7..4 -/
  err : ErrCode
  /-- BUSYERR, bit 8 -/
  busyErr : Bool
deriving DecidableEq, Repr

/-- CTRL (R27). -/
structure Ctrl where
  /-- DONE_IE, bit 0 -/
  doneIe : Bool
  /-- BUSYERR_IE, bit 1 -/
  busyErrIe : Bool
deriving DecidableEq, Repr

/-- The filter topologies of FSTAT.KIND (R31). -/
inductive Kind where
  | lpf1
  | hpf1
  | lpf2
  | hpf2
deriving DecidableEq, Repr

/-- A filter channel's registers (R30). -/
structure Channel where
  /-- FSTAT.VALID -/
  valid : Bool
  /-- FSTAT.KIND -/
  kind : Kind
  ts : Word
  wn : Word
  zeta : Word
  uIn : Word
  yOut : Word
  a1 : Word
  a2 : Word
  b0 : Word
  b1 : Word
  b2 : Word
  mq : Word
  nq : Word
  uOld0 : Word
  uOld1 : Word
  yOld0 : Word
  yOld1 : Word
deriving DecidableEq, Repr

/-- The size of a bus access, 1, 2 or 4 bytes (20_memory.md R50). -/
inductive AccessSize where
  | one
  | two
  | four
deriving DecidableEq, Repr

/-- What can happen to the core (R20, R61, R200; log 2). -/
inductive Event where
  /-- HOST's MemRead -/
  | read (addr : Nat) (size : AccessSize)
  /-- HOST's MemWrite -/
  | write (addr : Nat) (size : AccessSize) (wdata : Word)
  /-- ENGINE's turn: its step, where one is enabled (R189) -/
  | engine
  /-- the reset event (R200) -/
  | reset
deriving DecidableEq, Repr

/-- The bytes of BUF written since the last reset event, by window offset, addresses strictly rising. An unlisted byte
holds its reset draw, which is no value of the list's (R202; log 4). -/
abbrev Memory := List Host.Cell

/-- The state of the core and of the port to HOST. -/
structure State where
  /-- the parameter LOG2_NMAX, as INFO reports it (R6, R24) -/
  log2Nmax : Nat
  /-- the parameter BASE_ADDR (R6, R51) -/
  base : Nat
  /-- CMD (R25) -/
  cmd : Word
  /-- STATUS (R26), and PENDING (R36) -/
  status : Status
  /-- CTRL (R27) -/
  ctrl : Ctrl
  /-- OPA_RE and OPA_IM (R29) -/
  opA : Cplx
  /-- OPB_RE and OPB_IM (R29) -/
  opB : Cplx
  /-- RES_RE and RES_IM (R29) -/
  res : Cplx
  /-- the filter channels 0 .. NCH-1 (R30); its length is the parameter NCH (R6) -/
  chans : List Channel
  /-- BUF (R34) -/
  buf : Memory
  /-- the model's own: how many reset events have happened; it selects BUF's reset draw (R202; log 4) -/
  epoch : Nat
  /-- the model's own: how many unspecified reads have been answered; it selects the next free word (R65; log 5) -/
  draws : Nat
  /-- the model's own: what the last MemRead returned to HOST (R50; log 10) -/
  rdata : Word
  /-- the model's own: what happens next, in order (R61; log 2) -/
  agenda : List Event
deriving DecidableEq, Repr

/-- The core has no fault: a command error is a completion (60_exceptions.md R180), the bus signals no error (R50).
No constructor, so no step faults. Safe. -/
inductive Fault where
deriving DecidableEq, Repr

/-- Why a step can be refused. -/
inductive Refusal where
  /-- Raised by an arm of exec for a command that has no meaning yet. Safe: the machine stops. -/
  | notModelled (mnemonic : String)
  /-- Raised by the bus for an access of size 1 or 2: "A model refuses both: the transaction has no step" (20_memory.md R56, U4, U5; log 8). Safe. -/
  | narrowAccess
  /-- Raised by the bus for a 32-bit access at an address with addr[1:0] != 0 (20_memory.md R56, U4, U5; log 8). Safe. -/
  | misalignedAccess
deriving DecidableEq, Repr

/-- A channel after reset: UNCONFIGURED, every register +0 (R30, R31, R201). -/
def Channel.reset : Channel :=
  { valid := false, kind := .lpf1, ts := 0, wn := 0, zeta := 0, uIn := 0, yOut := 0, a1 := 0, a2 := 0, b0 := 0, b1 := 0,
    b2 := 0, mq := 0, nq := 0, uOld0 := 0, uOld1 := 0, yOld0 := 0, yOld1 := 0 }

/-- The core with given parameters right after reset (R37, R201, R202), nothing yet to happen. -/
def State.resetWith (log2Nmax nch base : Nat) : State :=
  { log2Nmax := log2Nmax, base := base, cmd := 0,
    status := { busy := false, done := false, err := .noError, busyErr := false },
    ctrl := { doneIe := false, busyErrIe := false },
    opA := ⟨0, 0⟩, opB := ⟨0, 0⟩, res := ⟨0, 0⟩,
    chans := List.replicate nch Channel.reset, buf := [],
    epoch := 0, draws := 0, rdata := 0, agenda := [] }

/-- The core right after reset, with the implementation's parameters (R6; log 1). -/
def State.reset : State := State.resetWith Config.log2Nmax Config.nch Config.base

end Sys2Proof.Machine
end

