-- ==== Sys2Proof/Machine/Ops.lean ====
section
/-! DEFINITION. The named operations over BUF, the channels and STATUS: reading and writing BUF (20_memory.md R54, R55), acceptance, completion and a command error (60_exceptions.md R180, R188, R189), and the reset event (70_reset_and_hazards.md R200). -/

namespace Sys2Proof.Machine

open Host (Outcome)

/-! ### The bytes of BUF -/

/-- The byte listed at an offset, if any. -/
def Memory.find (m : Memory) (a : Nat) : Option Byte :=
  match m with
  | [] => none
  | (x, b) :: m => if x = a then some b else Memory.find m a

/-- List a byte at an offset, keeping the offsets rising. -/
def Memory.insert (m : Memory) (a : Nat) (b : Byte) : Memory :=
  match m with
  | [] => [(a, b)]
  | (x, c) :: m =>
    if a < x then (a, b) :: (x, c) :: m
    else if a = x then (a, b) :: m
    else (x, c) :: Memory.insert m a b

/-- The canonical form: offsets strictly rising. An unlisted byte has no value of the list's, so no entry equals it (log 4). -/
def Memory.wf (m : Memory) : Bool :=
  match m with
  | [] => true
  | (x, _) :: m =>
    match m with
    | [] => true
    | (y, _) :: _ => decide (x < y) && Memory.wf m

/-- Write a word's four byte lanes, lane k at a + k (R55). -/
def Memory.insertWord (m : Memory) (a : Nat) (w : Word) : Memory :=
  (((m.insert a (w.extractLsb' 0 8)).insert (a + 1) (w.extractLsb' 8 8)).insert (a + 2) (w.extractLsb' 16 8)).insert
    (a + 3) (w.extractLsb' 24 8)

/-- The window offset of BUF[i].re; BUF[i].im is 4 above it (R54). -/
def bufOffset (i : Nat) : Nat := 0x10000 + 8 * i

/-- Write an entry: re, then im above it (R13, R54). -/
def Memory.insertEntry (m : Memory) (i : Nat) (x : Cplx) : Memory :=
  (m.insertWord (bufOffset i) x.re).insertWord (bufOffset i + 4) x.im

/-- Write entries i, i+1, … -/
def Memory.insertEntries (m : Memory) (i : Nat) (xs : List Cplx) : Memory :=
  match xs with
  | [] => m
  | x :: xs => Memory.insertEntries (m.insertEntry i x) (i + 1) xs

/-- The byte of BUF at an offset: what was written there since the reset, else the reset draw (R202). -/
def State.bufByte (s : State) (a : Nat) : Byte :=
  match Memory.find s.buf a with
  | some b => b
  | none => Config.resetByte s.epoch a

/-- The word of BUF at an offset, little-endian (R55). -/
def State.bufWord (s : State) (a : Nat) : Word :=
  s.bufByte (a + 3) ++ s.bufByte (a + 2) ++ s.bufByte (a + 1) ++ s.bufByte a

/-- BUF[i] (R34, R54). -/
def State.bufEntry (s : State) (i : Nat) : Cplx :=
  ⟨s.bufWord (bufOffset i), s.bufWord (bufOffset i + 4)⟩

/-- BUF[0..n-1]. -/
def State.loadBuf (s : State) (n : Nat) : List Cplx :=
  (List.range n).map s.bufEntry

/-- Overwrite BUF[0..] with the given entries. -/
def State.storeBuf (s : State) (xs : List Cplx) : State :=
  { s with buf := Memory.insertEntries s.buf 0 xs }

/-! ### Registers -/

/-- NMAX (R6). -/
def State.nmax (s : State) : Nat := 2 ^ s.log2Nmax

/-- NCH (R6). -/
def State.nch (s : State) : Nat := s.chans.length

/-- Channel c's registers, for c < NCH (R30). -/
def State.chan (s : State) (c : Nat) : Channel := s.chans.getD c Channel.reset

/-- Replace channel c's registers; the other channels are untouched (R123). -/
def State.setChan (s : State) (c : Nat) (ch : Channel) : State :=
  { s with chans := s.chans.set c ch }

/-- Write RES (R29). -/
def State.setRes (s : State) (x : Cplx) : State := { s with res := x }

/-! ### The command life cycle -/

/-- Acceptance of a command word (R188). -/
def State.accept (s : State) (w : Word) : State :=
  { s with cmd := w, status := { s.status with busy := true, done := false, err := .noError } }

/-- Completion with a code: BUSY 0, DONE 1, ERRCODE the code (R189). -/
def State.complete (s : State) (code : ErrCode) : State :=
  { s with status := { s.status with busy := false, done := true, err := code } }

/-- A command error: no architectural effect, then completion with the code (R180). The core's one way to take an exception. -/
def raiseError (code : ErrCode) (s : State) : Outcome State Fault Refusal :=
  .next (s.complete code)

/-- The normal end of a command: complete(0) (R189). -/
def finish (s : State) : Outcome State Fault Refusal :=
  .next (s.complete .noError)

/-! ### Reset -/

/-- The reset event: a pending command is abandoned, every register takes its reset value, BUF takes fresh draws (R200, R202).
The parameters are constants; what is still to happen, and what HOST has read, is HOST's (log 13). -/
def State.resetEvent (s : State) : State :=
  { State.resetWith s.log2Nmax s.chans.length s.base with
    epoch := s.epoch + 1, draws := s.draws, rdata := s.rdata, agenda := s.agenda }

end Sys2Proof.Machine
end

