-- ==== Sys2Proof/Machine/Flags.lean ====
section
/-! DEFINITION. The status flags and the words made of fields: STATUS, CTRL, FSTAT, ID, INFO, the W1C bits, and the interrupt output (10_state.md R23 to R28, R31; 60_exceptions.md R181, R190, R191). The core has no arithmetic flags (R28). -/

namespace Sys2Proof.Machine

/-- The code of ERRCODE (R181). -/
def ErrCode.code : ErrCode → BitVec 4
  | .noError => 0
  | .illegalCmd => 1
  | .badLength => 2
  | .badChannel => 3
  | .notConfigured => 4

/-- ERR is 1 exactly when ERRCODE != 0 (R26, R181). -/
def Status.errFlag (t : Status) : Bool := t.err.code != 0

/-- The word STATUS reads as (R26): BUSYERR 8, ERRCODE 7..4, ERR 2, DONE 1, BUSY 0; the other bits 0. -/
def Status.word (t : Status) : Word :=
  (0#23 : BitVec 23) ++ BitVec.ofBool t.busyErr ++ t.err.code ++ (0#1 : BitVec 1) ++ BitVec.ofBool t.errFlag ++
    BitVec.ofBool t.done ++ BitVec.ofBool t.busy

/-- A write to STATUS: W1C of DONE and BUSYERR, nothing else (R26, R191). -/
def Status.write (t : Status) (w : Word) : Status :=
  { t with done := t.done && !w.getLsbD 1, busyErr := t.busyErr && !w.getLsbD 8 }

/-- The word CTRL reads as (R27). -/
def Ctrl.word (t : Ctrl) : Word :=
  (0#30 : BitVec 30) ++ BitVec.ofBool t.busyErrIe ++ BitVec.ofBool t.doneIe

/-- What a write makes of CTRL: the two enables; the other bits are ignored (R27). -/
def Ctrl.ofWord (w : Word) : Ctrl :=
  { doneIe := w.getLsbD 0, busyErrIe := w.getLsbD 1 }

/-- The code of FSTAT.KIND (R31). -/
def Kind.code : Kind → BitVec 2
  | .lpf1 => 0
  | .hpf1 => 1
  | .lpf2 => 2
  | .hpf2 => 3

/-- Whether a kind is of second order (R31). -/
def Kind.secondOrder : Kind → Bool
  | .lpf1 => false
  | .hpf1 => false
  | .lpf2 => true
  | .hpf2 => true

/-- The word FSTAT reads as (R30): KIND 2..1, VALID 0. -/
def Channel.fstat (ch : Channel) : Word :=
  (0#29 : BitVec 29) ++ ch.kind.code ++ BitVec.ofBool ch.valid

/-- ID (R23). -/
def idWord : Word := 0x56510001#32

/-- INFO (R24): NCH 12..8, LOG2_NMAX 3..0. -/
def State.infoWord (s : State) : Word :=
  (0#19 : BitVec 19) ++ BitVec.ofNat 5 s.nch ++ (0#4 : BitVec 4) ++ BitVec.ofNat 4 s.log2Nmax

/-- The interrupt output IRQ, a level (R190). -/
def State.irq (s : State) : Bool :=
  (s.ctrl.doneIe && s.status.done) || (s.ctrl.busyErrIe && s.status.busyErr)

/-- A protocol violation: BUSYERR becomes 1, nothing else changes (R186). -/
def State.setBusyErr (s : State) : State :=
  { s with status := { s.status with busyErr := true } }

end Sys2Proof.Machine
end

