-- ==== Sys2Proof/Machine/Operands.lean ====
section
/-! DEFINITION. The operand forms of the three command classes (30_encoding.md R72) with the checks that guard them (60_exceptions.md R183 to R185, R187): the complex operands, a filter channel, a transform length over BUF. -/

namespace Sys2Proof.Machine

open Host (Outcome)

/-- The complex form: a function of OPA and OPB, result to RES (R72, R94 to R97). -/
def complexCommand (f : Cplx → Cplx → Cplx) (s : State) : Outcome State Fault Refusal :=
  finish (s.setRes (f s.opA s.opB))

/-- The length rule of FFT_DFT: 1 <= N <= NMAX (R141). -/
def anyLengthOk (s : State) (n : Nat) : Bool := decide (1 ≤ n) && decide (n ≤ s.nmax)

/-- The length rule of the other FFT commands: N = 2^p with 0 <= p <= LOG2_NMAX, so never N = 0 (R141). -/
def powerLengthOk (s : State) (n : Nat) : Bool :=
  decide (1 ≤ n) && (List.range (s.log2Nmax + 1)).any fun p => n == 2 ^ p

/-- The FFT form: if the length is legal, BUF[0..n-1] is read, and overwritten with the result; else BAD_LENGTH (R140, R184). -/
def bufferCommand (ok : Bool) (n : Nat) (f : List Cplx → List Cplx) (s : State) : Outcome State Fault Refusal :=
  if ok then finish (s.storeBuf (f (s.loadBuf n))) else raiseError .badLength s

/-- The filter form: channel c's registers, or BAD_CHANNEL if c >= NCH (R72, R183). -/
def channelCommand (c : Nat) (f : Channel → State → Outcome State Fault Refusal) (s : State) :
    Outcome State Fault Refusal :=
  if c < s.nch then f (s.chan c) s else raiseError .badChannel s

end Sys2Proof.Machine
end

