-- ==== Sys2Proof/Machine/Bus.lean ====
section
/-! DEFINITION. The register bus: the address map (20_memory.md R51 to R54), what a read returns and a write does (R57 to R59, 10_state.md R23 to R34), and the busy protocol (R65, 60_exceptions.md R186). -/

namespace Sys2Proof.Machine

open Host (Outcome)

/-- The registers of a channel (10_state.md R30). -/
inductive ChanReg where
  | fstat
  | ts
  | wn
  | zeta
  | uIn
  | yOut
  | a1
  | a2
  | b0
  | b1
  | b2
  | mq
  | nq
  | uOld0
  | uOld1
  | yOld0
  | yOld1
deriving DecidableEq, Repr

/-- What an offset of the window addresses (R52). -/
inductive Loc where
  | id
  | info
  | cmd
  | status
  | ctrl
  | opaRe
  | opaIm
  | opbRe
  | opbIm
  | resRe
  | resIm
  /-- register r of channel c -/
  | chan (c : Nat) (r : ChanReg)
  /-- BUF[i].re -/
  | bufRe (i : Nat)
  /-- BUF[i].im -/
  | bufIm (i : Nat)
  | unmapped
deriving DecidableEq, Repr

/-- The register at an offset in a channel (R30). -/
def chanRegAt (o : Nat) : Option ChanReg :=
  match o with
  | 0x00 => some .fstat
  | 0x04 => some .ts
  | 0x08 => some .wn
  | 0x0C => some .zeta
  | 0x10 => some .uIn
  | 0x14 => some .yOut
  | 0x18 => some .a1
  | 0x1C => some .a2
  | 0x20 => some .b0
  | 0x24 => some .b1
  | 0x28 => some .b2
  | 0x2C => some .mq
  | 0x30 => some .nq
  | 0x34 => some .uOld0
  | 0x38 => some .uOld1
  | 0x3C => some .yOld0
  | 0x40 => some .yOld1
  | _ => none

/-- The control and complex-unit registers, below offset 0x100 (R52). -/
def lowReg (off : Nat) : Loc :=
  match off with
  | 0x00 => .id
  | 0x04 => .info
  | 0x08 => .cmd
  | 0x0C => .status
  | 0x10 => .ctrl
  | 0x20 => .opaRe
  | 0x24 => .opaIm
  | 0x28 => .opbRe
  | 0x2C => .opbIm
  | 0x30 => .resRe
  | 0x34 => .resIm
  | _ => .unmapped

/-- The channel region, 0x100 <= off < 0x900 (R53). -/
def chanLoc (nch off : Nat) : Loc :=
  let c := (off - 0x100) / 0x80
  if c < nch then
    match chanRegAt ((off - 0x100) % 0x80) with
    | some r => .chan c r
    | none => .unmapped
  else .unmapped

/-- The BUF region, 0x10000 <= off < 0x20000 (R54). -/
def bufLoc (nmax off : Nat) : Loc :=
  let i := (off - 0x10000) / 8
  if i < nmax then (if (off - 0x10000) % 8 < 4 then .bufRe i else .bufIm i) else .unmapped

/-- The address map (R52). -/
def State.locate (s : State) (off : Nat) : Loc :=
  if off < 0x100 then lowReg off
  else if off < 0x900 then chanLoc s.nch off
  else if off < 0x10000 then .unmapped
  else if off < 0x20000 then bufLoc s.nmax off
  else .unmapped

/-- The data set: what a command reads or writes (R65). -/
def Loc.dataSet : Loc → Bool
  | .id => false
  | .info => false
  | .cmd => false
  | .status => false
  | .ctrl => false
  | .opaRe => true
  | .opaIm => true
  | .opbRe => true
  | .opbIm => true
  | .resRe => true
  | .resIm => true
  | .chan _ _ => true
  | .bufRe _ => true
  | .bufIm _ => true
  | .unmapped => false

/-- What a write may not touch while BUSY = 1: the data set and CMD (R65). -/
def Loc.guarded (l : Loc) : Bool := l.dataSet || l == .cmd

/-- A channel register as a word (R30). -/
def Channel.read (ch : Channel) : ChanReg → Word
  | .fstat => ch.fstat
  | .ts => ch.ts
  | .wn => ch.wn
  | .zeta => ch.zeta
  | .uIn => ch.uIn
  | .yOut => ch.yOut
  | .a1 => ch.a1
  | .a2 => ch.a2
  | .b0 => ch.b0
  | .b1 => ch.b1
  | .b2 => ch.b2
  | .mq => ch.mq
  | .nq => ch.nq
  | .uOld0 => ch.uOld0
  | .uOld1 => ch.uOld1
  | .yOld0 => ch.yOld0
  | .yOld1 => ch.yOld1

/-- A write to a channel register: TS, WN, ZETA and U_IN are RW, the others read-only (R30, R33, R58). -/
def Channel.write (ch : Channel) (w : Word) : ChanReg → Channel
  | .ts => { ch with ts := w }
  | .wn => { ch with wn := w }
  | .zeta => { ch with zeta := w }
  | .uIn => { ch with uIn := w }
  | .fstat | .yOut | .a1 | .a2 | .b0 | .b1 | .b2 | .mq | .nq | .uOld0 | .uOld1 | .yOld0 | .yOld1 => ch

/-- What an aligned read returns outside the busy window (R23 to R34); an unmapped offset reads 0 (R57). -/
def State.readLoc (s : State) : Loc → Word
  | .id => idWord
  | .info => s.infoWord
  | .cmd => s.cmd
  | .status => s.status.word
  | .ctrl => s.ctrl.word
  | .opaRe => s.opA.re
  | .opaIm => s.opA.im
  | .opbRe => s.opB.re
  | .opbIm => s.opB.im
  | .resRe => s.res.re
  | .resIm => s.res.im
  | .chan c r => (s.chan c).read r
  | .bufRe i => s.bufWord (bufOffset i)
  | .bufIm i => s.bufWord (bufOffset i + 4)
  | .unmapped => 0

/-- What an aligned write does outside the busy window (R25 to R34); a write to an unmapped offset or a read-only register is ignored (R57, R58). -/
def State.writeLoc (s : State) (w : Word) : Loc → State
  | .cmd => s.accept w
  | .status => { s with status := s.status.write w }
  | .ctrl => { s with ctrl := Ctrl.ofWord w }
  | .opaRe => { s with opA := ⟨w, s.opA.im⟩ }
  | .opaIm => { s with opA := ⟨s.opA.re, w⟩ }
  | .opbRe => { s with opB := ⟨w, s.opB.im⟩ }
  | .opbIm => { s with opB := ⟨s.opB.re, w⟩ }
  | .chan c r => s.setChan c ((s.chan c).write w r)
  | .bufRe i => { s with buf := s.buf.insertWord (bufOffset i) w }
  | .bufIm i => { s with buf := s.buf.insertWord (bufOffset i + 4) w }
  | .id | .info | .resRe | .resIm | .unmapped => s

/-- An aligned 32-bit read at an offset: a data-set word while BUSY = 1 gives a fresh free word (R65, U6; log 5). -/
def State.busRead (s : State) (off : Nat) : State :=
  if s.status.busy && (s.locate off).dataSet then
    { s with rdata := Config.freeWord s.draws, draws := s.draws + 1 }
  else { s with rdata := s.readLoc (s.locate off) }

/-- An aligned 32-bit write at an offset: to CMD or the data set while BUSY = 1 it is dropped and sets BUSYERR (R65, R186). -/
def State.busWrite (s : State) (off : Nat) (w : Word) : State :=
  if s.status.busy && (s.locate off).guarded then s.setBusyErr else s.writeLoc w (s.locate off)

/-- Whether an address is in the window (R51). -/
def State.inWindow (s : State) (addr : Nat) : Bool :=
  decide (s.base ≤ addr) && decide (addr < s.base + 0x20000)

/-- A transaction: outside the window it does not reach the core (R51; log 9); narrow or misaligned it has no step (R56; log 8). -/
def transaction (addr : Nat) (size : AccessSize) (act : Nat → State) (s : State) : Outcome State Fault Refusal :=
  if s.inWindow addr then
    if size ≠ .four then .refused .narrowAccess
    else if addr % 4 ≠ 0 then .refused .misalignedAccess
    else .next (act (addr - s.base))
  else .next s

/-- MemRead (R50). -/
def hostRead (addr : Nat) (size : AccessSize) (s : State) : Outcome State Fault Refusal :=
  transaction addr size (fun off => s.busRead off) s

/-- MemWrite (R50). -/
def hostWrite (addr : Nat) (size : AccessSize) (w : Word) (s : State) : Outcome State Fault Refusal :=
  transaction addr size (fun off => s.busWrite off w) s

end Sys2Proof.Machine
end

