-- ==== Sys2Proof/Machine/Complex.lean ====
section
/-! DEFINITION. The complex arithmetic unit: its datapath functions and its four commands, and the twiddle factor (40_complex.md). -/

namespace Sys2Proof.Machine

open Host (Outcome)

/-- R90. -/
def cadd (a b : Cplx) : Cplx := ⟨fadd a.re b.re, fadd a.im b.im⟩

/-- R91. -/
def csub (a b : Cplx) : Cplx := ⟨fsub a.re b.re, fsub a.im b.im⟩

/-- R92: four rounded products, no fused operation, no recovery of infinities. -/
def cmul (a b : Cplx) : Cplx :=
  ⟨fsub (fmul a.re b.re) (fmul a.im b.im), fadd (fmul a.re b.im) (fmul a.im b.re)⟩

/-- R93. -/
def cpolar (r t : Word) : Cplx := ⟨fmul r (Config.fcos t), fmul r (Config.fsin t)⟩

/-- The angle of TW(i, M) (R98). -/
def twiddleAngle (i m : Nat) : Word := fneg (fdiv (fmul twoPi32 (fcvt i)) (fcvt m))

/-- The twiddle factor TW(i, M) (R98). -/
def twiddle (i m : Nat) : Cplx := cpolar fOne (twiddleAngle i m)

/-- CADD (R94). -/
def execCadd (s : State) : Outcome State Fault Refusal := complexCommand cadd s

/-- CSUB (R95). -/
def execCsub (s : State) : Outcome State Fault Refusal := complexCommand csub s

/-- CMUL (R96). -/
def execCmul (s : State) : Outcome State Fault Refusal := complexCommand cmul s

/-- CPOLAR (R97): magnitude OPA_RE, angle OPB_RE; OPA_IM and OPB_IM are not read. -/
def execCpolar (s : State) : Outcome State Fault Refusal := complexCommand (fun a b => cpolar a.re b.re) s

end Sys2Proof.Machine
end

