-- ==== Sys2Proof/Machine/Fft.lean ====
section
/-! DEFINITION. The FFT engine (42_fft.md). Its commands read BUF[0..N-1] at their start and leave only the final value of these entries (R140), so each transform is a function on the list of the N entries; a block BUF[base .. base+M-1] of the pseudocode is a stretch of that list (log 17). The transforms take the twiddle factor as an argument; the commands pass `twiddle` (R98). -/

namespace Sys2Proof.Machine

open Host (Outcome)

/-- A twiddle factor TW(i, M). -/
abbrev TwiddleFn := Nat → Nat → Cplx

/-! ### Building blocks -/

/-- BFLY on a block of length M (R142): sums in the first half, twiddled differences in the second. -/
def butterfly (tw : TwiddleFn) (m : Nat) (xs : List Cplx) : List Cplx :=
  let a := xs.take (m / 2)
  let b := xs.drop (m / 2)
  List.zipWith cadd a b ++
    List.zipWith (fun i d => cmul (tw i m) d) (List.range (m / 2)) (List.zipWith csub a b)

/-- The interleave of R146: F[2i] = f[i], F[2i+1] = f[n+i]. -/
def interleave (xs ys : List Cplx) : List Cplx :=
  match xs, ys with
  | x :: xs, y :: ys => x :: y :: interleave xs ys
  | _, _ => []

/-- The inner loop of R144: toggle i against k until the toggled bit is set, halving k (`fuel` counts the values of k). -/
def reversedSuccessor (fuel i k : Nat) : Nat :=
  match fuel with
  | 0 => i
  | fuel + 1 =>
    let i' := i ^^^ k
    if i' &&& k != 0 then i' else reversedSuccessor fuel i' (k / 2)

/-- Exchange entries j and i, bit for bit. -/
def swapEntries (xs : List Cplx) (j i : Nat) : List Cplx :=
  (xs.set j (xs.getD i default)).set i (xs.getD j default)

/-- One iteration of the outer loop of R144: the running index and the entries. -/
def bitrevIteration (n : Nat) (st : Nat × List Cplx) (j : Nat) : Nat × List Cplx :=
  let i := reversedSuccessor (Nat.log2 n) st.1 (n / 2)
  (i, if j < i then swapEntries st.2 j i else st.2)

/-- BITREV_PASS(N) (R144): j runs from 1 to N-2. -/
def bitrevPass (n : Nat) (xs : List Cplx) : List Cplx :=
  ((List.range' 1 (n - 2)).foldl (bitrevIteration n) (0, xs)).2

/-! ### The transforms -/

/-- One bin of the direct transform (R145): ascending i, from (+0, +0). -/
def dftBin (tw : TwiddleFn) (n : Nat) (xs : List Cplx) (k : Nat) : Cplx :=
  (xs.zipIdx).foldl (fun acc (x, i) => cadd acc (cmul x (tw (k * i % n) n))) ⟨fZero, fZero⟩

/-- FFT_DFT's transform (R145). -/
def dft (tw : TwiddleFn) (n : Nat) (xs : List Cplx) : List Cplx :=
  (List.range n).map (dftBin tw n xs)

/-- RS on a block of length 2^p (R146). -/
def fftRs (tw : TwiddleFn) (p : Nat) (xs : List Cplx) : List Cplx :=
  match p with
  | 0 => xs
  | p + 1 =>
    let ys := butterfly tw (2 ^ (p + 1)) xs
    interleave (fftRs tw p (ys.take (2 ^ p))) (fftRs tw p (ys.drop (2 ^ p)))

/-- RB on a block of length 2^p: as RS without the interleave (R147). -/
def fftRbCore (tw : TwiddleFn) (p : Nat) (xs : List Cplx) : List Cplx :=
  match p with
  | 0 => xs
  | p + 1 =>
    let ys := butterfly tw (2 ^ (p + 1)) xs
    fftRbCore tw p (ys.take (2 ^ p)) ++ fftRbCore tw p (ys.drop (2 ^ p))

/-- FFT_RB's transform of length n (R147). -/
def fftRb (tw : TwiddleFn) (n : Nat) (xs : List Cplx) : List Cplx :=
  bitrevPass n (fftRbCore tw (Nat.log2 n) xs)

/-- Stage s of FFT_IT on n entries: 2^s segments of length n / 2^s, a butterfly in each (R148). -/
def itStage (tw : TwiddleFn) (n : Nat) (xs : List Cplx) (s : Nat) : List Cplx :=
  let l := n / 2 ^ s
  (List.range (2 ^ s)).flatMap fun g => butterfly tw l ((xs.drop (g * l)).take l)

/-- FFT_IT's transform of length n (R148). -/
def fftIt (tw : TwiddleFn) (n : Nat) (xs : List Cplx) : List Cplx :=
  bitrevPass n ((List.range (Nat.log2 n)).foldl (itStage tw n) xs)

/-! ### The commands -/

/-- FFT_DFT (R145). -/
def execFftDft (n : Nat) (s : State) : Outcome State Fault Refusal :=
  bufferCommand (anyLengthOk s n) n (dft twiddle n) s

/-- FFT_RS (R146). -/
def execFftRs (n : Nat) (s : State) : Outcome State Fault Refusal :=
  bufferCommand (powerLengthOk s n) n (fftRs twiddle (Nat.log2 n)) s

/-- FFT_RB (R147). -/
def execFftRb (n : Nat) (s : State) : Outcome State Fault Refusal :=
  bufferCommand (powerLengthOk s n) n (fftRb twiddle n) s

/-- FFT_IT (R148). -/
def execFftIt (n : Nat) (s : State) : Outcome State Fault Refusal :=
  bufferCommand (powerLengthOk s n) n (fftIt twiddle n) s

/-- BITREV (R149). -/
def execBitrev (n : Nat) (s : State) : Outcome State Fault Refusal :=
  bufferCommand (powerLengthOk s n) n (bitrevPass n) s

end Sys2Proof.Machine
end

