-- ==== Sys2Proof/Machine/Iir.lean ====
section
/-! DEFINITION. The IIR filter family: construction and apply (41_iir.md). -/

namespace Sys2Proof.Machine

open Host (Outcome)

/-! ### Construction -/

/-- What a construction writes to A1, A2, B0, B1, B2, MQ and NQ (R111). -/
structure Coeffs where
  a1 : Word
  a2 : Word
  b0 : Word
  b1 : Word
  b2 : Word
  mq : Word
  nq : Word
deriving DecidableEq, Repr

/-- w = fmul(WN, TS), the source's omega_n Ts (R111). -/
def omegaTs (ch : Channel) : Word := fmul ch.wn ch.ts

/-- a1 of both first-order kinds (R112, R113). -/
def firstA1 (w : Word) : Word := fdiv (fsub fTwo w) (fadd fTwo w)

/-- q = w/(w+2) (R112, R113). -/
def firstQ (w : Word) : Word := fdiv w (fadd w fTwo)

/-- The coefficients of FCFG_LPF1 (R112). -/
def lpf1Coeffs (ch : Channel) : Coeffs :=
  let w := omegaTs ch
  let q := firstQ w
  { a1 := firstA1 w, a2 := fZero, b0 := q, b1 := q, b2 := fZero, mq := fZero, nq := fZero }

/-- The coefficients of FCFG_HPF1 (R113): b0 = -q, b1 = -b0. -/
def hpf1Coeffs (ch : Channel) : Coeffs :=
  let w := omegaTs ch
  let q := firstQ w
  { a1 := firstA1 w, a2 := fZero, b0 := fneg q, b1 := fneg (fneg q), b2 := fZero, mq := fZero, nq := fZero }

/-- m = (4*zeta)/w (R114). -/
def secondM (ch : Channel) : Word := fdiv (fmul fFour ch.zeta) (omegaTs ch)

/-- n = 4/(w*w) (R114). -/
def secondN (ch : Channel) : Word := fdiv fFour (fmul (omegaTs ch) (omegaTs ch))

/-- d = (1+m)+n (R114). -/
def secondD (ch : Channel) : Word := fadd (fadd fOne (secondM ch)) (secondN ch)

/-- a1 = (2*(1-n))/d (R114). -/
def secondA1 (ch : Channel) : Word := fdiv (fmul fTwo (fsub fOne (secondN ch))) (secondD ch)

/-- a2 = ((1-m)+n)/d (R114). -/
def secondA2 (ch : Channel) : Word := fdiv (fadd (fsub fOne (secondM ch)) (secondN ch)) (secondD ch)

/-- The coefficients of FCFG_LPF2 (R114). -/
def lpf2Coeffs (ch : Channel) : Coeffs :=
  let d := secondD ch
  { a1 := secondA1 ch, a2 := secondA2 ch, b0 := fdiv fOne d, b1 := fdiv fTwo d, b2 := fdiv fOne d,
    mq := secondM ch, nq := secondN ch }

/-- The coefficients of FCFG_HPF2 (R115). -/
def hpf2Coeffs (ch : Channel) : Coeffs :=
  let n := secondN ch
  let d := secondD ch
  { a1 := secondA1 ch, a2 := secondA2 ch, b0 := fdiv n d, b1 := fdiv (fneg (fmul fTwo n)) d, b2 := fdiv n d,
    mq := secondM ch, nq := n }

/-- The common part of a construction (R111): coefficients, a zeroed delay line, Y_OUT = +0, FSTAT. TS, WN, ZETA and U_IN stay. -/
def Channel.configure (ch : Channel) (kind : Kind) (k : Coeffs) : Channel :=
  { ch with
    valid := true, kind := kind,
    a1 := k.a1, a2 := k.a2, b0 := k.b0, b1 := k.b1, b2 := k.b2, mq := k.mq, nq := k.nq,
    uOld0 := fZero, uOld1 := fZero, yOld0 := fZero, yOld1 := fZero, yOut := fZero }

/-- Construct channel c (R111). -/
def construct (kind : Kind) (coeffs : Channel → Coeffs) (c : Nat) (s : State) : Outcome State Fault Refusal :=
  channelCommand c (fun ch s => finish (s.setChan c (ch.configure kind (coeffs ch)))) s

/-- FCFG_LPF1 (R112). -/
def execFcfgLpf1 (c : Nat) (s : State) : Outcome State Fault Refusal := construct .lpf1 lpf1Coeffs c s

/-- FCFG_HPF1 (R113). -/
def execFcfgHpf1 (c : Nat) (s : State) : Outcome State Fault Refusal := construct .hpf1 hpf1Coeffs c s

/-- FCFG_LPF2 (R114). -/
def execFcfgLpf2 (c : Nat) (s : State) : Outcome State Fault Refusal := construct .lpf2 lpf2Coeffs c s

/-- FCFG_HPF2 (R115). -/
def execFcfgHpf2 (c : Nat) (s : State) : Outcome State Fault Refusal := construct .hpf2 hpf2Coeffs c s

/-! ### Apply -/

/-- The output of a first-order channel for input u (R117): (b0*u + b1*u_old) + a1*y_old. -/
def output1 (ch : Channel) (u : Word) : Word :=
  fadd (fadd (fmul ch.b0 u) (fmul ch.b1 ch.uOld0)) (fmul ch.a1 ch.yOld0)

/-- The output of a second-order channel for input u (R118): the feedback is subtracted, left to right. -/
def output2 (ch : Channel) (u : Word) : Word :=
  fsub (fsub (fadd (fadd (fmul ch.b0 u) (fmul ch.b1 ch.uOld0)) (fmul ch.b2 ch.uOld1)) (fmul ch.a1 ch.yOld0))
    (fmul ch.a2 ch.yOld1)

/-- apply1 (R117): UOLD1 and YOLD1 are neither read nor written. -/
def Channel.apply1 (ch : Channel) : Channel :=
  let u := ch.uIn
  let y := output1 ch u
  { ch with uOld0 := u, yOld0 := y, yOut := y }

/-- apply2 (R118): the products use the delay line from before the shift. -/
def Channel.apply2 (ch : Channel) : Channel :=
  let u := ch.uIn
  let y := output2 ch u
  { ch with uOld1 := ch.uOld0, uOld0 := u, yOld1 := ch.yOld0, yOld0 := y, yOut := y }

/-- One filter step of a constructed channel (R116). -/
def Channel.step (ch : Channel) : Channel :=
  if ch.kind.secondOrder then ch.apply2 else ch.apply1

/-- FAPPLY (R116): NOT_CONFIGURED on a channel never constructed (R185). -/
def execFapply (c : Nat) (s : State) : Outcome State Fault Refusal :=
  channelCommand c
    (fun ch s => if ch.valid then finish (s.setChan c ch.step) else raiseError .notConfigured s) s

end Sys2Proof.Machine
end

