-- ==== Sys2Proof/Machine/Dispatch.lean ====
section
/-! DEFINITION. exec: the effect of a decoded command, with its checks and its completion (60_exceptions.md R187, R189), one arm per command. -/

namespace Sys2Proof.Machine

def exec (i : Instr) (s : State) : Host.Outcome State Fault Refusal :=
  match i with
  | .cadd => Sys2Proof.Machine.execCadd s
  | .csub => Sys2Proof.Machine.execCsub s
  | .cmul => Sys2Proof.Machine.execCmul s
  | .cpolar => Sys2Proof.Machine.execCpolar s
  | .fftDft n => Sys2Proof.Machine.execFftDft n s
  | .fftRs n => Sys2Proof.Machine.execFftRs n s
  | .fftRb n => Sys2Proof.Machine.execFftRb n s
  | .fftIt n => Sys2Proof.Machine.execFftIt n s
  | .bitrev n => Sys2Proof.Machine.execBitrev n s
  | .fcfgLpf1 c => Sys2Proof.Machine.execFcfgLpf1 c s
  | .fcfgHpf1 c => Sys2Proof.Machine.execFcfgHpf1 c s
  | .fcfgLpf2 c => Sys2Proof.Machine.execFcfgLpf2 c s
  | .fcfgHpf2 c => Sys2Proof.Machine.execFcfgHpf2 c s
  | .fapply c => Sys2Proof.Machine.execFapply c s

end Sys2Proof.Machine
end

