-- ==== Sys2Proof/Machine/Engine.lean ====
section
/-! DEFINITION. The ENGINE step (60_exceptions.md R189) and what each event does (20_memory.md R61). -/

namespace Sys2Proof.Machine

open Host (Outcome)

/-- The step of a pending command: an illegal word completes with ILLEGAL_CMD (R182), a command runs (R189). -/
def runCommand (s : State) : Outcome State Fault Refusal :=
  match decode s.cmd with
  | .ok i => exec i s
  | .error _ => raiseError .illegalCmd s

/-- ENGINE's turn: with PENDING = 0 it has no enabled step (R189, R199). -/
def engineTurn (s : State) : Outcome State Fault Refusal :=
  if s.status.busy then runCommand s else .next s

/-- What an event does. -/
def takeEvent (e : Event) (s : State) : Outcome State Fault Refusal :=
  match e with
  | .read addr size => hostRead addr size s
  | .write addr size w => hostWrite addr size w s
  | .engine => engineTurn s
  | .reset => .next s.resetEvent

/-- Take the agenda's first event; with none left a pending command still gets its ENGINE step (R210, R212; log 3). -/
def takeTurn (s : State) : Outcome State Fault Refusal :=
  match s.agenda with
  | [] => engineTurn s
  | e :: rest => takeEvent e { s with agenda := rest }

/-- The word accepted, and ENGINE's turn next (log 14). -/
def State.pend (s : State) (w : Word) : State :=
  { s.accept w with agenda := .engine :: s.agenda }

end Sys2Proof.Machine
end

