-- ==== Sys2Proof/Machine/Step.lean ====
section
/-! DEFINITION. One step of the machine (20_memory.md R61, 60_exceptions.md R189), and a command put where the next step runs it. -/

namespace Sys2Proof.Machine

/-- One step: the next event, or the step of a pending command. -/
def step (s : State) : Host.Outcome State Fault Refusal := Sys2Proof.Machine.takeTurn s

/-- The command word of `nbits` bits accepted by CMD, and ENGINE's turn next: the core fetches nothing, a command comes
to run by HOST's write to CMD (10_state.md R22, R25; log 14). -/
def State.withFetchWord (s : State) (nbits w : Nat) : State :=
  Sys2Proof.Machine.State.pend s (BitVec.ofNat 32 (w % 2 ^ nbits))

end Sys2Proof.Machine
end

