-- ==== Sys2Proof/Safety.lean ====
section
/-! DEFINITION. The terms claims are stated in: the accesses a host may make, the register tables, the opcode map as masks, the check of R187, bit reversal, rounding to nearest even as a property, and the invariant of the machine. Nothing in the machine uses this file. -/

namespace Sys2Proof

open Sys2Proof.Machine

/-! ### What HOST may do (20_memory.md R56, 70_reset_and_hazards.md R211) -/

/-- An event the core has a step for: any but a narrow or misaligned access in the window. -/
def eventDefined (s : State) : Event → Bool
  | .read addr size => !s.inWindow addr || (size == .four && addr % 4 == 0)
  | .write addr size _ => !s.inWindow addr || (size == .four && addr % 4 == 0)
  | .engine => true
  | .reset => true

/-- A safe run: every event still to come has a step. -/
def agendaDefined (s : State) : Prop := ∀ e ∈ s.agenda, eventDefined s e = true

/-! ### The address map as ranges (20_memory.md R52, R53, R54, R65) -/

/-- A word of channel c < NCH at an offset in the channel from lo to hi (R53). -/
def isChanOffset (s : State) (lo hi off : Nat) : Prop :=
  ∃ c o, c < s.nch ∧ lo ≤ o ∧ o ≤ hi ∧ off = 0x100 + 0x80 * c + o

/-- A word of an entry i < NMAX of BUF (R54). -/
def isBufOffset (s : State) (off : Nat) : Prop := 0x10000 ≤ off ∧ off < 0x10000 + 8 * s.nmax

/-- The data set: OPA, OPB, RES, every mapped channel register, every mapped BUF word (R65). -/
def isDataSetOffset (s : State) (off : Nat) : Prop :=
  (0x20 ≤ off ∧ off < 0x38) ∨ isChanOffset s 0x00 0x40 off ∨ isBufOffset s off

/-- The mapped words: ID, INFO, CMD, STATUS, CTRL and the data set (R52). -/
def isMappedOffset (s : State) (off : Nat) : Prop := off < 0x14 ∨ isDataSetOffset s off

/-- The words a write stores whole: CMD, OPA, OPB, a channel's TS, WN, ZETA and U_IN, BUF (10_state.md R25, R29, R30, R34). -/
def isStoringOffset (s : State) (off : Nat) : Prop :=
  off = 0x08 ∨ (0x20 ≤ off ∧ off < 0x30) ∨ isChanOffset s 0x04 0x10 off ∨ isBufOffset s off

/-! ### The registers as R26, R29 to R31 and R181 tabulate them -/

/-- The numbers of ERRCODE (60_exceptions.md R181). -/
def errNumber : ErrCode → Nat
  | .noError => 0
  | .illegalCmd => 1
  | .badLength => 2
  | .badChannel => 3
  | .notConfigured => 4

/-- The numbers of FSTAT.KIND (R31). -/
def kindNumber : Kind → Nat
  | .lpf1 => 0
  | .hpf1 => 1
  | .lpf2 => 2
  | .hpf2 => 3

/-- CMD and the six registers of the complex unit, by offset (R25, R29). -/
def registerTable (s : State) : List (Nat × Word) :=
  [(0x008, s.cmd), (0x020, s.opA.re), (0x024, s.opA.im), (0x028, s.opB.re), (0x02C, s.opB.im), (0x030, s.res.re),
   (0x034, s.res.im)]

/-- A channel's binary32 registers, by offset in the channel (R30): all but FSTAT. -/
def channelTable (ch : Channel) : List (Nat × Word) :=
  [(0x04, ch.ts), (0x08, ch.wn), (0x0C, ch.zeta), (0x10, ch.uIn), (0x14, ch.yOut), (0x18, ch.a1), (0x1C, ch.a2),
   (0x20, ch.b0), (0x24, ch.b1), (0x28, ch.b2), (0x2C, ch.mq), (0x30, ch.nq), (0x34, ch.uOld0), (0x38, ch.uOld1),
   (0x3C, ch.yOld0), (0x40, ch.yOld1)]

/-! ### The opcode map as R74 writes it -/

/-- A row of R74: a word selects it when (cmd AND mask) = pattern. -/
structure OpcodeRow where
  pattern : Word
  mask : Word
deriving DecidableEq, Repr

/-- Whether a word selects a row (R74). -/
def OpcodeRow.selects (r : OpcodeRow) (w : Word) : Bool := w &&& r.mask == r.pattern

/-- The 14 rows of R74. -/
def opcodeMap : List OpcodeRow :=
  [⟨0x00000001, 0xFFFFFFFF⟩, ⟨0x00000002, 0xFFFFFFFF⟩, ⟨0x00000003, 0xFFFFFFFF⟩, ⟨0x00000004, 0xFFFFFFFF⟩,
   ⟨0x00000010, 0x0000FFFF⟩, ⟨0x00000011, 0x0000FFFF⟩, ⟨0x00000012, 0x0000FFFF⟩, ⟨0x00000013, 0x0000FFFF⟩,
   ⟨0x00000014, 0x0000FFFF⟩,
   ⟨0x00000020, 0xFFFFF0FF⟩, ⟨0x00000021, 0xFFFFF0FF⟩, ⟨0x00000022, 0xFFFFF0FF⟩, ⟨0x00000023, 0xFFFFF0FF⟩,
   ⟨0x00000028, 0xFFFFF0FF⟩]

/-- The row of a command (R74). -/
def rowOf : Instr → OpcodeRow
  | .cadd => ⟨0x00000001, 0xFFFFFFFF⟩
  | .csub => ⟨0x00000002, 0xFFFFFFFF⟩
  | .cmul => ⟨0x00000003, 0xFFFFFFFF⟩
  | .cpolar => ⟨0x00000004, 0xFFFFFFFF⟩
  | .fftDft _ => ⟨0x00000010, 0x0000FFFF⟩
  | .fftRs _ => ⟨0x00000011, 0x0000FFFF⟩
  | .fftRb _ => ⟨0x00000012, 0x0000FFFF⟩
  | .fftIt _ => ⟨0x00000013, 0x0000FFFF⟩
  | .bitrev _ => ⟨0x00000014, 0x0000FFFF⟩
  | .fcfgLpf1 _ => ⟨0x00000020, 0xFFFFF0FF⟩
  | .fcfgHpf1 _ => ⟨0x00000021, 0xFFFFF0FF⟩
  | .fcfgLpf2 _ => ⟨0x00000022, 0xFFFFF0FF⟩
  | .fcfgHpf2 _ => ⟨0x00000023, 0xFFFFF0FF⟩
  | .fapply _ => ⟨0x00000028, 0xFFFFF0FF⟩

/-- The command classes of R73. -/
inductive Class where
  | complex
  | fft
  | filter
deriving DecidableEq, Repr

/-- A command's class (R73). -/
def classOf : Instr → Class
  | .cadd | .csub | .cmul | .cpolar => .complex
  | .fftDft _ | .fftRs _ | .fftRb _ | .fftIt _ | .bitrev _ => .fft
  | .fcfgLpf1 _ | .fcfgHpf1 _ | .fcfgLpf2 _ | .fcfgHpf2 _ | .fapply _ => .filter

/-! ### The check of R187, on the bare command word -/

/-- length_ok (42_fft.md R141): OP 0x10 takes any 1 <= N <= NMAX, the other FFT opcodes a power of two up to NMAX. -/
def lengthOk (s : State) (op n : Nat) : Bool :=
  if op == 0x10 then decide (1 ≤ n) && decide (n ≤ s.nmax) else 2 ^ Nat.log2 n == n && decide (n ≤ s.nmax)

/-- check(cmd) of R187, in its order, read off the bits of the word: no decoder is used. OP 0x20 and above is the
filter class, 0x10 to 0x14 the FFT class (R73). -/
def checkCode (s : State) (w : Word) : ErrCode :=
  let op := (w.extractLsb' 0 8).toNat
  let ch := (w.extractLsb' 8 4).toNat
  let n := (w.extractLsb' 16 16).toNat
  if !opcodeMap.any (fun r => r.selects w) then .illegalCmd
  else if decide (0x20 ≤ op) && decide (s.nch ≤ ch) then .badChannel
  else if decide (0x10 ≤ op) && decide (op ≤ 0x14) && !lengthOk s op n then .badLength
  else if op == 0x28 && !(s.chan ch).valid then .notConfigured
  else .noError

/-! ### Bit reversal (42_fft.md R144) -/

/-- rev_p: the p low bits of x in reverse order. -/
def reverseBits (p x : Nat) : Nat :=
  match p with
  | 0 => 0
  | p + 1 => (x % 2) * 2 ^ p + reverseBits p (x / 2)

/-! ### The fast transforms, bin by bin (42_fft.md R142, R146) -/

/-- Bin k of the fast transform of length 2^p of the samples f: one butterfly, then the even bins are the transform of
the sums and the odd bins that of the twiddled differences (R142, R146's F[2i] and F[2i+1]). -/
def fastBin (tw : TwiddleFn) (p : Nat) (f : Nat → Cplx) (k : Nat) : Cplx :=
  match p with
  | 0 => f 0
  | p + 1 =>
    if k % 2 = 0 then fastBin tw p (fun i => cadd (f i) (f (2 ^ p + i))) (k / 2)
    else fastBin tw p (fun i => cmul (tw i (2 ^ (p + 1))) (csub (f i) (f (2 ^ p + i)))) (k / 2)

/-- The first n terms of bin k of the direct transform of length m, summed from the left (R145). -/
def directSum (tw : TwiddleFn) (m k : Nat) (f : Nat → Cplx) (n : Nat) : Cplx :=
  match n with
  | 0 => ⟨0x00000000, 0x00000000⟩
  | n + 1 => cadd (directSum tw m k f n) (cmul (f n) (tw (k * n % m) m))

/-! ### A channel that can only answer NaN (41_iir.md R122) -/

/-- A NaN in a delay register or a coefficient that the channel's kind uses. -/
def isPoisoned (ch : Channel) : Prop :=
  isNaN ch.uOld0 ∨ isNaN ch.yOld0 ∨ isNaN ch.a1 ∨ isNaN ch.b0 ∨ isNaN ch.b1 ∨
    ch.kind.secondOrder = true ∧ (isNaN ch.uOld1 ∨ isNaN ch.yOld1 ∨ isNaN ch.a2 ∨ isNaN ch.b2)

/-! ### What a step does to the core -/

/-- ENGINE performs a command in this step: one is pending, its word decodes to i, and it is ENGINE's turn (R189). -/
def engineRuns (s : State) (i : Instr) : Prop :=
  s.status.busy = true ∧ decode s.cmd = .ok i ∧ (s.agenda = [] ∨ ∃ rest, s.agenda = .engine :: rest)

/-- The reset event happens in this step (R200). -/
def resetHappens (s : State) : Prop := ∃ rest, s.agenda = .reset :: rest

/-- HOST writes w to the window offset in this step, aligned and 32 bits wide (R56). -/
def hostWrites (s : State) (off : Nat) (w : Word) : Prop :=
  off < 0x20000 ∧ (s.base + off) % 4 = 0 ∧ ∃ rest, s.agenda = .write (s.base + off) .four w :: rest

/-- HOST reads the window offset in this step, aligned and 32 bits wide (R56). -/
def hostReads (s : State) (off : Nat) : Prop :=
  off < 0x20000 ∧ (s.base + off) % 4 = 0 ∧ ∃ rest, s.agenda = .read (s.base + off) .four :: rest

/-! ### Rounding (00_scope.md R8) -/

/-- The least magnitude that rounds to infinity: half a unit in the last place above the largest finite value, 2^128 - 2^103. -/
def overflowAt : ℚ := 2 ^ 128 - 2 ^ 103

/-- `w` is the rational q rounded to binary32, to nearest with ties to even: within range a finite value no finite value
is closer than, with an even last bit where another is as close; beyond it an infinity; with q's sign where q is not 0. -/
structure RoundsToNearestEven (q : ℚ) (w : Word) : Prop where
  finite : |q| < overflowAt → isFinite w = true
  nearest : |q| < overflowAt → ∀ v, isFinite v = true → |value w - q| ≤ |value v - q|
  even : |q| < overflowAt → ∀ v, isFinite v = true → value v ≠ value w → |value v - q| = |value w - q| → w.getLsbD 0 = false
  overflow : overflowAt ≤ |q| → isInf w = true
  negative : q < 0 → signBit w = true
  positive : 0 < q → signBit w = false

/-! ### The invariant -/

/-- The registers a channel does not use hold +0: all but the parameters where it is not constructed (R30, R201), the
second-order ones where its kind is of first order (R30, R111, R117). -/
structure Machine.Channel.Inv (ch : Channel) : Prop where
  unconfigured : ch.valid = false →
    ch.kind = .lpf1 ∧ ch.yOut = 0 ∧ ch.a1 = 0 ∧ ch.b0 = 0 ∧ ch.b1 = 0 ∧ ch.uOld0 = 0 ∧ ch.yOld0 = 0
  firstOrder : ch.kind.secondOrder = false →
    ch.a2 = 0 ∧ ch.b2 = 0 ∧ ch.mq = 0 ∧ ch.nq = 0 ∧ ch.uOld1 = 0 ∧ ch.yOld1 = 0

/-- The invariant of the machine. -/
structure Machine.State.Inv (s : State) : Prop where
  /-- BUF's list is in canonical form -/
  bufRising : Memory.wf s.buf = true
  /-- it lists only bytes of the mapped entries (R54) -/
  bufMapped : ∀ cell ∈ s.buf, bufOffset 0 ≤ cell.1 ∧ cell.1 < bufOffset s.nmax
  /-- the parameters are legal (R6) -/
  nmaxLegal : 3 ≤ s.log2Nmax ∧ s.log2Nmax ≤ 13
  nchLegal : 1 ≤ s.nch ∧ s.nch ≤ 16
  baseLegal : s.base % 0x20000 = 0
  /-- while a command is pending, DONE and ERRCODE are clear (R26, R188) -/
  busyClear : s.status.busy = true → s.status.done = false ∧ s.status.err = .noError
  channels : ∀ ch ∈ s.chans, Channel.Inv ch

end Sys2Proof
end

