-- ==== Sys2Proof/Certificates/Slice0/Obligations.lean ====
section
/-! DEFINITION. The statements for the provers, from the numbered rules of spec/. -/

open Sys2Proof Sys2Proof.Machine
open Host (Outcome)

/-! ## Encoding (30_encoding.md) -/

/-- R80: the worked encodings, both ways, and the three illegal words, which complete with ILLEGAL_CMD. -/
def Obligations.WorkedEncodings : Prop :=
  (encode .cmul = 0x00000003 ∧ decode 0x00000003 = .ok .cmul) ∧
  (encode .cpolar = 0x00000004 ∧ decode 0x00000004 = .ok .cpolar) ∧
  (encode (.fftDft 3) = 0x00030010 ∧ decode 0x00030010 = .ok (.fftDft 3)) ∧
  (encode (.fftRs 8) = 0x00080011 ∧ decode 0x00080011 = .ok (.fftRs 8)) ∧
  (encode (.fftRb 8) = 0x00080012 ∧ decode 0x00080012 = .ok (.fftRb 8)) ∧
  (encode (.fftIt 8) = 0x00080013 ∧ decode 0x00080013 = .ok (.fftIt 8)) ∧
  (encode (.fftIt 4) = 0x00040013 ∧ decode 0x00040013 = .ok (.fftIt 4)) ∧
  (encode (.bitrev 8) = 0x00080014 ∧ decode 0x00080014 = .ok (.bitrev 8)) ∧
  (encode (.fcfgLpf1 0) = 0x00000020 ∧ decode 0x00000020 = .ok (.fcfgLpf1 0)) ∧
  (encode (.fcfgLpf2 1) = 0x00000122 ∧ decode 0x00000122 = .ok (.fcfgLpf2 1)) ∧
  (encode (.fcfgHpf2 15) = 0x00000F23 ∧ decode 0x00000F23 = .ok (.fcfgHpf2 15)) ∧
  (encode (.fapply 0) = 0x00000028 ∧ decode 0x00000028 = .ok (.fapply 0)) ∧
  (∀ s : State, (s.cmd = 0x00010001 ∨ s.cmd = 0x00081013 ∨ s.cmd = 0x00020028) →
    runCommand s = .next { s with status := ⟨false, true, .illegalCmd, s.status.busyErr⟩ })

/-- R70, R71, R78: every command whose operand fits its field decodes from its own word, operand and all. -/
def Obligations.DecodeOfEncodeIsTheCommand : Prop :=
  ∀ i : Instr, i.wellFormed = true → decode (encode i) = .ok i

/-- R73, R74: a word that decodes is the one word of its command, and its operand fits. -/
def Obligations.DecodedWordIsTheEncoding : Prop :=
  ∀ (w : Word) (i : Instr), decode w = .ok i → encode i = w ∧ i.wellFormed = true

/-- R74, R75: a word decodes exactly if a row of the opcode map matches it, to that row's command; at most one row
matches; a word no row matches is rejected for its OP if that is none of the 14 values, else for a nonzero field. -/
def Obligations.DecoderFollowsTheOpcodeMap : Prop :=
  (∀ (w : Word) (i : Instr), decode w = .ok i → rowOf i ∈ opcodeMap ∧ (rowOf i).selects w = true) ∧
  (∀ w : Word, (∃ r ∈ opcodeMap, r.selects w = true) → ∃ i, decode w = .ok i) ∧
  (∀ (w : Word) (r r' : OpcodeRow), r ∈ opcodeMap → r' ∈ opcodeMap → r.selects w = true → r'.selects w = true → r = r') ∧
  (∀ w : Word, decode w = .error .unassignedOp ↔
    w.extractLsb' 0 8 ∉ ([0x01, 0x02, 0x03, 0x04, 0x10, 0x11, 0x12, 0x13, 0x14, 0x20, 0x21, 0x22, 0x23, 0x28] : List (BitVec 8)))

/-! ## The command life cycle (60_exceptions.md) -/

/-- R188: an aligned 32-bit write of w to CMD while BUSY = 0. -/
def Obligations.AcceptanceOfACommandWord : Prop :=
  ∀ (s : State) (w : Word) (rest : List Event), s.base % 4 = 0 → s.status.busy = false →
    s.agenda = .write (s.base + 0x008) .four w :: rest →
    step s = .next { s with agenda := rest, cmd := w, status := ⟨true, false, .noError, s.status.busyErr⟩ }

/-- R189: when a command is pending, ENGINE's turn, or the end of the agenda, runs the decoded command. That the end of
the agenda is ENGINE's turn is the model's choice (log 3, DEDUCED from R210 and R212). -/
def Obligations.StepRunsTheDecodedCommand : Prop :=
  ∀ (s : State) (i : Instr), s.status.busy = true → decode s.cmd = .ok i →
    (∀ rest, s.agenda = .engine :: rest → step s = exec i { s with agenda := rest }) ∧
    (s.agenda = [] → step s = exec i s)

/-- R182: a word that no row of R74 matches, the word 0x00000000 among them, completes with ILLEGAL_CMD at ENGINE's turn,
and has no other effect: CMD still holds it. -/
def Obligations.IllegalWordCompletesWithIllegalCmd : Prop :=
  (∀ (s : State) (rest : List Event), s.status.busy = true → (∀ r ∈ opcodeMap, r.selects s.cmd = false) →
    s.agenda = .engine :: rest →
    step s = .next { s with agenda := rest, status := ⟨false, true, .illegalCmd, s.status.busyErr⟩ }) ∧
  (∀ r ∈ opcodeMap, r.selects 0x00000000 = false)

/-- R180, R187, R189: whatever word is pending, ENGINE completes it with the code of R187's check, read off the bits of
the word; with a nonzero code nothing but STATUS changes. -/
def Obligations.EngineCompletesWithTheCheckCode : Prop :=
  ∀ s : State, ∃ t, runCommand s = .next t ∧ t.status = ⟨false, true, checkCode s s.cmd, s.status.busyErr⟩ ∧
    (checkCode s s.cmd ≠ .noError → t = { s with status := ⟨false, true, checkCode s s.cmd, s.status.busyErr⟩ })

/-- R210, R212: if every event still to come has a step, a pending command completes (or is abandoned by a reset event)
within one step more than there are events. The bound is the model's: the end of the agenda is ENGINE's turn (log 3, DEDUCED). -/
def Obligations.EveryAcceptedCommandCompletes : Prop :=
  ∀ s : State, s.status.busy = true → agendaDefined s →
    ∃ k t, k ≤ s.agenda.length + 1 ∧ Host.Core.run Sys2Proof.core k s = .next t ∧ t.status.busy = false

/-- R189: a command writes its results and STATUS only. Whatever the word, CMD, CTRL, BUSYERR, OPA, OPB, the parameters,
every channel's TS, WN, ZETA and U_IN, and the model's own fields stay. RES changes only if the word is a complex command's,
a byte of BUF only if it is an FFT command's that reaches it, another register of channel c only if it is a filter
command's on c; FAPPLY leaves FSTAT and the coefficients. -/
def Obligations.EngineLeavesOperandsAlone : Prop :=
  ∀ s t : State, runCommand s = .next t →
    (t.res = s.res ∨ ∃ i, decode s.cmd = .ok i ∧ classOf i = .complex) ∧
    (∀ a, t.bufByte a = s.bufByte a ∨ ∃ i n, decode s.cmd = .ok i ∧
      (i = .fftDft n ∨ i = .fftRs n ∨ i = .fftRb n ∨ i = .fftIt n ∨ i = .bitrev n) ∧ 0x10000 ≤ a ∧ a < 0x10000 + 8 * n) ∧
    (∀ c, t.chan c = s.chan c ∨
      (∃ i, decode s.cmd = .ok i ∧ (i = .fcfgLpf1 c ∨ i = .fcfgHpf1 c ∨ i = .fcfgLpf2 c ∨ i = .fcfgHpf2 c)) ∨
      (decode s.cmd = .ok (.fapply c) ∧ ∃ u0 u1 y0 y1 y,
        t.chan c = { s.chan c with uOld0 := u0, uOld1 := u1, yOld0 := y0, yOld1 := y1, yOut := y })) ∧
    t.cmd = s.cmd ∧ t.ctrl = s.ctrl ∧ t.status.busyErr = s.status.busyErr ∧ t.opA = s.opA ∧ t.opB = s.opB ∧
    t.log2Nmax = s.log2Nmax ∧ t.base = s.base ∧ t.nch = s.nch ∧
    t.epoch = s.epoch ∧ t.draws = s.draws ∧ t.rdata = s.rdata ∧ t.agenda = s.agenda ∧
    ∀ c, (t.chan c).ts = (s.chan c).ts ∧ (t.chan c).wn = (s.chan c).wn ∧ (t.chan c).zeta = (s.chan c).zeta ∧
      (t.chan c).uIn = (s.chan c).uIn

/-! ## STATUS, CTRL, IRQ, ID, INFO (10_state.md, 60_exceptions.md) -/

/-- R26, R181: what a read of STATUS returns, BUSY or not: the layout, with ERR equal to (ERRCODE != 0), ERRCODE the
number of R181, and the other bits 0; the read changes nothing else. -/
def Obligations.StatusWordLayout : Prop :=
  ∀ (s : State) (rest : List Event), s.base % 4 = 0 → s.agenda = .read (s.base + 0x00C) .four :: rest →
    ∃ v, step s = .next { s with agenda := rest, rdata := v } ∧
      v.getLsbD 0 = s.status.busy ∧ v.getLsbD 1 = s.status.done ∧
      v.getLsbD 2 = decide (v.extractLsb' 4 4 ≠ 0#4) ∧ v.getLsbD 3 = false ∧
      (v.extractLsb' 4 4).toNat = errNumber s.status.err ∧ v.getLsbD 8 = s.status.busyErr ∧ v.extractLsb' 9 23 = 0#23

/-- R26, R191: a write to STATUS clears DONE and BUSYERR where its bit is 1 and changes nothing else, BUSY or not. -/
def Obligations.StatusWriteAcknowledges : Prop :=
  ∀ (s : State) (w : Word) (rest : List Event), s.base % 4 = 0 →
    s.agenda = .write (s.base + 0x00C) .four w :: rest →
    step s = .next { s with
      agenda := rest,
      status := ⟨s.status.busy, s.status.done && !w.getLsbD 1, s.status.err, s.status.busyErr && !w.getLsbD 8⟩ }

/-- R27: a write to CTRL sets the two enables, BUSY or not, and never BUSYERR; a read of CTRL, BUSY or not, returns the
enables with the other bits 0, so after a write it returns the written word with its other bits 0. -/
def Obligations.CtrlWriteSetsTheEnables : Prop :=
  ∀ (s : State) (w : Word) (rest : List Event), s.base % 4 = 0 →
    (s.agenda = .write (s.base + 0x010) .four w :: rest →
      step s = .next { s with agenda := rest, ctrl := ⟨w.getLsbD 0, w.getLsbD 1⟩ }) ∧
    (s.agenda = .read (s.base + 0x010) .four :: rest →
      ∃ v, step s = .next { s with agenda := rest, rdata := v } ∧ v.getLsbD 0 = s.ctrl.doneIe ∧
        v.getLsbD 1 = s.ctrl.busyErrIe ∧ v.extractLsb' 2 30 = 0#30) ∧
    (s.agenda = .write (s.base + 0x010) .four w :: .read (s.base + 0x010) .four :: rest →
      Host.Core.run Sys2Proof.core 2 s =
        .next { s with agenda := rest, ctrl := ⟨w.getLsbD 0, w.getLsbD 1⟩, rdata := w &&& 3#32 })

/-- R190: IRQ, and its value after reset. -/
def Obligations.InterruptOutputIsTheLevel : Prop :=
  (∀ s : State, s.irq = true ↔
    (s.ctrl.doneIe = true ∧ s.status.done = true) ∨ (s.ctrl.busyErrIe = true ∧ s.status.busyErr = true)) ∧
  State.reset.irq = false

/-- R23, R24: ID and INFO read as their constants in every state with legal parameters, BUSY or not. -/
def Obligations.IdAndInfoAreConstants : Prop :=
  ∀ (s : State) (rest : List Event), s.Inv →
    (s.agenda = .read (s.base + 0x000) .four :: rest → step s = .next { s with agenda := rest, rdata := 0x56510001#32 }) ∧
    (s.agenda = .read (s.base + 0x004) .four :: rest →
      ∃ v, step s = .next { s with agenda := rest, rdata := v } ∧ (v.extractLsb' 0 4).toNat = s.log2Nmax ∧
        v.extractLsb' 4 4 = 0#4 ∧ (v.extractLsb' 8 5).toNat = s.nch ∧ v.extractLsb' 13 19 = 0#19)

/-- R186, R191: BUSYERR is set only by a write, while BUSY = 1, to CMD or to the data set; once set it is cleared only by
the reset event or a write to STATUS with bit 8 set. -/
def Obligations.BusyErrIsSetByViolationsAndSticky : Prop :=
  ∀ s t : State, s.Inv → step s = .next t →
    (s.status.busyErr = false → t.status.busyErr = true →
      s.status.busy = true ∧ ∃ off w, hostWrites s off w ∧ (off = 0x008 ∨ isDataSetOffset s off)) ∧
    (s.status.busyErr = true → t.status.busyErr = false →
      resetHappens s ∨ ∃ w, hostWrites s 0x00C w ∧ w.getLsbD 8 = true)

/-- R191: ERRCODE changes only at an acceptance, at a completion and at the reset event. -/
def Obligations.ErrCodeIsKeptUntilTheNextCommand : Prop :=
  ∀ s t : State, step s = .next t → t.status.err ≠ s.status.err →
    resetHappens s ∨ (s.status.busy = false ∧ ∃ w, hostWrites s 0x008 w) ∨
    (s.status.busy = true ∧ t.status.busy = false ∧ t.status.done = true)

/-! ## The bus (20_memory.md) -/

/-- R51, R56: a step stops exactly at a narrow or misaligned access in the window, with a refusal, and never faults. That
such an access outside the window does not stop is the model's reading of R51 (log 9, DEDUCED), that there is no fault at
all is log 15 (DEDUCED). -/
def Obligations.OnlyUndefinedAccessesStop : Prop :=
  ∀ s : State, (∀ f, step s ≠ .fault f) ∧
    ((∃ r, step s = .refused r) ↔ ∃ e rest, s.agenda = e :: rest ∧ eventDefined s e = false)

/-- R51: an access outside the window does not reach the core. That its size does not matter, and that HOST's last word
stays, is the model's choice (log 9, DEDUCED). -/
def Obligations.AccessOutsideTheWindowHasNoEffect : Prop :=
  ∀ (s : State) (addr : Nat) (size : AccessSize) (w : Word) (rest : List Event),
    (addr < s.base ∨ s.base + 0x20000 ≤ addr) →
    (s.agenda = .read addr size :: rest → step s = .next { s with agenda := rest }) ∧
    (s.agenda = .write addr size w :: rest → step s = .next { s with agenda := rest })

/-- R57: an unmapped word reads 0 and ignores writes, BUSY or not. -/
def Obligations.UnmappedWordsReadZeroAndIgnoreWrites : Prop :=
  ∀ (s : State) (off : Nat), s.Inv → ¬ isMappedOffset s off →
    (hostReads s off → step s = .next { s with agenda := s.agenda.tail, rdata := 0x00000000#32 }) ∧
    (∀ w, hostWrites s off w → step s = .next { s with agenda := s.agenda.tail })

/-- R58, R65: a write to a read-only word while BUSY = 0 changes no state, nor does one to ID or INFO, BUSY or not. -/
def Obligations.ReadOnlyWordsIgnoreWrites : Prop :=
  ∀ (s : State) (off : Nat) (w : Word), s.Inv → hostWrites s off w →
    (s.status.busy = false → isMappedOffset s off → ¬ isStoringOffset s off → off ≠ 0x00C → off ≠ 0x010 →
      step s = .next { s with agenda := s.agenda.tail }) ∧
    (off = 0x000 ∨ off = 0x004 → step s = .next { s with agenda := s.agenda.tail })

/-- R59: a read changes no state of the core: only what HOST gets, and the count of free words. -/
def Obligations.ReadsHaveNoSideEffect : Prop :=
  ∀ (s t : State) (addr : Nat) (size : AccessSize) (rest : List Event),
    s.agenda = .read addr size :: rest → step s = .next t →
    ∃ v d, t = { s with agenda := rest, rdata := v, draws := d }

/-- R65, R186: while BUSY = 1 a write to CMD or to the data set is dropped and sets BUSYERR, nothing else. -/
def Obligations.BusyWriteIsDroppedAndFlagged : Prop :=
  ∀ (s : State) (off : Nat) (w : Word), s.Inv → s.status.busy = true → hostWrites s off w →
    (off = 0x008 ∨ isDataSetOffset s off) →
    step s = .next { s with agenda := s.agenda.tail, status := { s.status with busyErr := true } }

/-- R65: while BUSY = 1 a read of CMD returns the accepted word, and a read of a data-set word changes no state but
HOST's word and the model's count of draws; the word is free (log 5). -/
def Obligations.BusyReads : Prop :=
  ∀ (s : State) (off : Nat), s.Inv → s.status.busy = true → hostReads s off →
    (off = 0x008 → step s = .next { s with agenda := s.agenda.tail, rdata := s.cmd }) ∧
    (isDataSetOffset s off → ∃ v, step s = .next { s with agenda := s.agenda.tail, rdata := v, draws := s.draws + 1 })

/-- R61(a), R25, R29 to R31, R34, R54: while BUSY = 0, the next read of a word that stores what is written returns it;
and a read of CMD, of a complex-unit register, of a channel register or of a word of BUF returns that register, whoever
wrote it, with FSTAT as R30 and R31 lay it out, and changes nothing else. -/
def Obligations.WrittenWordIsReadBack : Prop :=
  ∀ (s : State) (rest : List Event), s.Inv → s.status.busy = false →
    (∀ off w, off < 0x20000 → off % 4 = 0 → isStoringOffset s off →
      s.agenda = .write (s.base + off) .four w :: .read (s.base + off) .four :: rest →
      ∃ t, Host.Core.run Sys2Proof.core 2 s = .next t ∧ t.rdata = w ∧ t.agenda = rest) ∧
    (∀ off v, (off, v) ∈ registerTable s → s.agenda = .read (s.base + off) .four :: rest →
      step s = .next { s with agenda := rest, rdata := v }) ∧
    (∀ c o v, c < s.nch → (o, v) ∈ channelTable (s.chan c) → s.agenda = .read (s.base + (0x100 + 0x80 * c + o)) .four :: rest →
      step s = .next { s with agenda := rest, rdata := v }) ∧
    (∀ c, c < s.nch → s.agenda = .read (s.base + (0x100 + 0x80 * c)) .four :: rest →
      ∃ v, step s = .next { s with agenda := rest, rdata := v } ∧ v.getLsbD 0 = (s.chan c).valid ∧
        (v.extractLsb' 1 2).toNat = kindNumber (s.chan c).kind ∧ v.extractLsb' 3 29 = 0#29) ∧
    (∀ i, i < s.nmax →
      (s.agenda = .read (s.base + (0x10000 + 8 * i)) .four :: rest →
        step s = .next { s with agenda := rest, rdata := (s.bufEntry i).re }) ∧
      (s.agenda = .read (s.base + (0x10004 + 8 * i)) .four :: rest →
        step s = .next { s with agenda := rest, rdata := (s.bufEntry i).im }))

/-- R21, R59: no word aliases another: a write, while BUSY = 0, to any word but CMD leaves what every other word reads. -/
def Obligations.NoWordAliasesAnother : Prop :=
  ∀ (s : State) (off off' : Nat) (w : Word), s.Inv → s.status.busy = false →
    off < 0x20000 → off' < 0x20000 → off % 4 = 0 → off' % 4 = 0 → off ≠ off' → off ≠ 0x008 →
    ((s.busWrite off w).busRead off').rdata = (s.busRead off').rdata

/-- R61(b), R63, R186, R189: a write dropped while BUSY = 1 does not affect the pending command: performed after it, the
command leaves the state it leaves without it, but for BUSYERR. -/
def Obligations.DroppedWriteDoesNotAffectTheCommand : Prop :=
  ∀ (s : State) (off : Nat) (w : Word) (rest : List Event), s.Inv → s.status.busy = true → off < 0x20000 → off % 4 = 0 →
    (off = 0x008 ∨ isDataSetOffset s off) →
    s.agenda = .write (s.base + off) .four w :: .engine :: rest →
    ∃ t, step { s with agenda := .engine :: rest } = .next t ∧
      Host.Core.run Sys2Proof.core 2 s = .next { t with status := { t.status with busyErr := true } }

/-! ## Reset and the whole machine (70_reset_and_hazards.md, 10_state.md) -/

/-- R23, R24, R37, R201: the words of the window after reset, below BUF: ID, INFO, and 0 everywhere else; idle, IRQ 0. That
HOST has issued nothing yet, and that the step of the idle core changes nothing, is the model's choice (log 2, DESIGN
CHOICE, and log 3, DEDUCED). -/
def Obligations.WordsAfterReset : Prop :=
  (State.reset.busRead 0x000).rdata = 0x56510001#32 ∧
  ((State.reset.busRead 0x004).rdata.extractLsb' 0 4).toNat = Config.log2Nmax ∧
  ((State.reset.busRead 0x004).rdata.extractLsb' 8 5).toNat = Config.nch ∧
  (∀ off, off % 4 = 0 → 0x008 ≤ off → off < 0x10000 → (State.reset.busRead off).rdata = 0x00000000#32) ∧
  State.reset.status.busy = false ∧ State.reset.irq = false ∧ step State.reset = .next State.reset

/-- R200: the reset event overrides everything: a pending command is abandoned, every register has its reset value. That
the rest of the agenda stays is the model's choice (log 13). -/
def Obligations.ResetEventRestoresEveryRegister : Prop :=
  ∀ (s : State) (rest : List Event), s.agenda = .reset :: rest →
    ∃ t, step s = .next t ∧ t.cmd = 0 ∧ t.status = ⟨false, false, .noError, false⟩ ∧ t.ctrl = ⟨false, false⟩ ∧
      t.opA = ⟨0, 0⟩ ∧ t.opB = ⟨0, 0⟩ ∧ t.res = ⟨0, 0⟩ ∧
      (∀ c, c < s.nch → t.chan c = Channel.reset ∧ ∀ r, (t.chan c).read r = 0) ∧
      t.log2Nmax = s.log2Nmax ∧ t.nch = s.nch ∧ t.base = s.base ∧ t.agenda = rest

/-- R22, R199, R212: with nothing to happen and no command pending, nothing advances. That there is such a step, which
changes nothing, is the model's choice (log 3, DEDUCED). -/
def Obligations.IdleCoreHoldsItsState : Prop :=
  ∀ s : State, s.agenda = [] → s.status.busy = false → step s = .next s

/-- The invariant holds after reset: BUF's list canonical and inside the mapped entries, the parameters legal, DONE and
ERRCODE clear if a command is pending, unused channel registers +0. The invariant is the model's own (logs 1 and 4). -/
def Obligations.ResetMeetsTheInvariant : Prop := State.reset.Inv

/-- Every step keeps the invariant: BUF's list canonical and inside the mapped entries, the parameters legal, DONE and
ERRCODE clear while a command is pending, unused channel registers +0. The invariant is the model's own (logs 1 and 4). -/
def Obligations.EveryStepKeepsTheInvariant : Prop :=
  ∀ s t : State, s.Inv → step s = .next t → t.Inv

/-- R6, R24: no step changes a parameter. -/
def Obligations.ParametersNeverChange : Prop :=
  ∀ s t : State, step s = .next t → t.log2Nmax = s.log2Nmax ∧ t.nch = s.nch ∧ t.base = s.base

/-- R29, R205: RES changes only when ENGINE performs a complex command, or at the reset event. -/
def Obligations.ResChangesOnlyByComplexCommands : Prop :=
  ∀ s t : State, step s = .next t → t.res ≠ s.res →
    resetHappens s ∨ ∃ i, engineRuns s i ∧ classOf i = .complex

/-- R34, R140, R205: a byte of BUF changes only when ENGINE performs an FFT command of a length N whose entries reach it,
by a HOST write, while BUSY = 0, to its word, or at the reset event. -/
def Obligations.BufChangesOnlyByFftCommandsAndHost : Prop :=
  ∀ (s t : State) (a : Nat), s.base % 4 = 0 → step s = .next t → t.bufByte a ≠ s.bufByte a →
    resetHappens s ∨
    (s.status.busy = false ∧ ∃ off w, hostWrites s off w ∧ off ≤ a ∧ a < off + 4) ∨
    (∃ i n, engineRuns s i ∧ (i = .fftDft n ∨ i = .fftRs n ∨ i = .fftRb n ∨ i = .fftIt n ∨ i = .bitrev n) ∧
      0x10000 ≤ a ∧ a < 0x10000 + 8 * n)

/-- R32, R33: FSTAT and the coefficients change only when the channel is constructed, the delay line and Y_OUT only then
and by FAPPLY on the channel, or at the reset event. -/
def Obligations.ChannelStateChangesOnlyByItsCommands : Prop :=
  ∀ (s t : State) (c : Nat), c < s.nch → step s = .next t → ¬ resetHappens s →
    (¬ (engineRuns s (.fcfgLpf1 c) ∨ engineRuns s (.fcfgHpf1 c) ∨ engineRuns s (.fcfgLpf2 c) ∨ engineRuns s (.fcfgHpf2 c)) →
      (t.chan c).valid = (s.chan c).valid ∧ (t.chan c).kind = (s.chan c).kind ∧
      (t.chan c).a1 = (s.chan c).a1 ∧ (t.chan c).a2 = (s.chan c).a2 ∧ (t.chan c).b0 = (s.chan c).b0 ∧
      (t.chan c).b1 = (s.chan c).b1 ∧ (t.chan c).b2 = (s.chan c).b2 ∧ (t.chan c).mq = (s.chan c).mq ∧
      (t.chan c).nq = (s.chan c).nq ∧
      (¬ engineRuns s (.fapply c) →
        (t.chan c).uOld0 = (s.chan c).uOld0 ∧ (t.chan c).uOld1 = (s.chan c).uOld1 ∧
        (t.chan c).yOld0 = (s.chan c).yOld0 ∧ (t.chan c).yOld1 = (s.chan c).yOld1 ∧ (t.chan c).yOut = (s.chan c).yOut))

/-! ## Binary32 (00_scope.md) -/

/-- R8: the operations on finite operands round the exact result once, to nearest with ties to even; underflow is
gradual, overflow gives infinity. What nearest, tie and overflow mean is IEEE 754's (log 16, PRESUMED). -/
def Obligations.ArithmeticRoundsToNearestEven : Prop :=
  (∀ a b, isFinite a = true → isFinite b = true →
    RoundsToNearestEven (value a + value b) (fadd a b) ∧ RoundsToNearestEven (value a - value b) (fsub a b) ∧
    RoundsToNearestEven (value a * value b) (fmul a b) ∧
    (isZero b = false → RoundsToNearestEven (value a / value b) (fdiv a b))) ∧
  (∀ i : Nat, RoundsToNearestEven i (fcvt i))

/-- R8: fcvt is exact below 2^24. -/
def Obligations.ConversionOfSmallNaturalsIsExact : Prop :=
  ∀ i : Nat, i < 2 ^ 24 → isFinite (fcvt i) = true ∧ value (fcvt i) = i

/-- R8, R95: signed zeros: an exact zero sum is -0 only of two negative zeros, an exact zero difference only of -0 and +0
(so x - x = +0 and (-0) - (+0) = -0), a zero product or quotient has the sign of its
operands' signs; fneg flips the sign bit and nothing else. What R8 leaves to IEEE 754 is log 16 (PRESUMED). -/
def Obligations.SignsOfZeros : Prop :=
  (∀ a b, isFinite a = true → isFinite b = true → value a + value b = 0 →
    fadd a b = if signBit a = true ∧ signBit b = true then 0x80000000#32 else 0x00000000#32) ∧
  (∀ a b, isFinite a = true → isFinite b = true → value a - value b = 0 →
    fsub a b = if signBit a = true ∧ signBit b = false then 0x80000000#32 else 0x00000000#32) ∧
  (∀ a b, isFinite a = true → isFinite b = true → isZero (fmul a b) = true →
    fmul a b = if signBit a = signBit b then 0x00000000#32 else 0x80000000#32) ∧
  (∀ a b, isFinite a = true → isNaN b = false → isZero b = false → isZero (fdiv a b) = true →
    fdiv a b = if signBit a = signBit b then 0x00000000#32 else 0x80000000#32) ∧
  (∀ a, isNaN a = false → fneg a = a ^^^ 0x80000000#32)

/-- R8, R9: a NaN operand, Inf - Inf, Inf * 0, 0/0 and Inf/Inf give the canonical NaN; a nonzero value over zero, and an
infinity in a sum, product or quotient without those, give the infinity of IEEE 754 (log 16, PRESUMED). -/
def Obligations.InfinitiesAndNaNs : Prop :=
  (∀ a b, isNaN a = true ∨ isNaN b = true →
    fadd a b = 0x7FC00000#32 ∧ fsub a b = 0x7FC00000#32 ∧ fmul a b = 0x7FC00000#32 ∧ fdiv a b = 0x7FC00000#32) ∧
  (∀ a, isNaN a = true → fneg a = 0x7FC00000#32) ∧
  (∀ a b, isInf a = true → isInf b = true →
    fadd a b = (if signBit a = signBit b then a else 0x7FC00000#32) ∧
    fsub a b = (if signBit a = signBit b then 0x7FC00000#32 else a) ∧
    fdiv a b = 0x7FC00000#32) ∧
  (∀ a b, isInf a = true → isFinite b = true → fadd a b = a ∧ fadd b a = a ∧ fsub a b = a ∧ fsub b a = fneg a) ∧
  (∀ a b, isInf a = true → isNaN b = false → isZero b = true → fmul a b = 0x7FC00000#32 ∧ fmul b a = 0x7FC00000#32) ∧
  (∀ a b, isInf a = true → isNaN b = false → isZero b = false →
    fmul a b = (if signBit a = signBit b then 0x7F800000#32 else 0xFF800000#32) ∧
    fmul b a = (if signBit a = signBit b then 0x7F800000#32 else 0xFF800000#32)) ∧
  (∀ a b, isZero a = true → isZero b = true → fdiv a b = 0x7FC00000#32) ∧
  (∀ a b, (isInf a = true ∧ isFinite b = true) ∨ (isFinite a = true ∧ isZero a = false ∧ isZero b = true) →
    fdiv a b = (if signBit a = signBit b then 0x7F800000#32 else 0xFF800000#32)) ∧
  (∀ a b, isFinite a = true → isInf b = true →
    fdiv a b = (if signBit a = signBit b then 0x00000000#32 else 0x80000000#32))

/-- R9: no operation, FCOS and FSIN included, returns another NaN than the canonical one. -/
def Obligations.ComputedNaNsAreCanonical : Prop :=
  (∀ a b, (isNaN (fadd a b) = true → fadd a b = 0x7FC00000#32) ∧ (isNaN (fsub a b) = true → fsub a b = 0x7FC00000#32) ∧
    (isNaN (fmul a b) = true → fmul a b = 0x7FC00000#32) ∧ (isNaN (fdiv a b) = true → fdiv a b = 0x7FC00000#32)) ∧
  (∀ a, (isNaN (fneg a) = true → fneg a = 0x7FC00000#32) ∧
    (isNaN (Config.fcos a) = true → Config.fcos a = 0x7FC00000#32) ∧
    (isNaN (Config.fsin a) = true → Config.fsin a = 0x7FC00000#32)) ∧
  (∀ i, isNaN (fcvt i) = false)

/-- R11: the properties P1 to P4 of FCOS and FSIN (P5 is that they are functions). What a unit in the last
place is is the model's reading (log 7, DEDUCED). -/
def Obligations.CosineAndSineProperties : Prop :=
  (Config.fcos 0x00000000#32 = 0x3F800000#32 ∧ Config.fcos 0x80000000#32 = 0x3F800000#32 ∧
    Config.fsin 0x00000000#32 = 0x00000000#32 ∧ Config.fsin 0x80000000#32 = 0x80000000#32) ∧
  (∀ x, isFinite x = true →
    isFinite (Config.fcos x) = true ∧ |value (Config.fcos x)| ≤ 1 ∧
    isFinite (Config.fsin x) = true ∧ |value (Config.fsin x)| ≤ 1 ∧
    WithinUlps Config.trigUlp (Config.fcos x) (Real.cos (value x : ℝ)) ∧
    WithinUlps Config.trigUlp (Config.fsin x) (Real.sin (value x : ℝ))) ∧
  (∀ x, isFinite x = false → Config.fcos x = 0x7FC00000#32 ∧ Config.fsin x = 0x7FC00000#32) ∧
  1 / 2 ≤ Config.trigUlp

/-! ## The complex unit (40_complex.md) -/

/-- R90 to R97: each complex command completes in every state, with its result in RES and STATUS completed, and nothing
else changed. -/
def Obligations.ComplexCommandResults : Prop :=
  ∀ s : State,
    (∃ t, exec .cadd s = .next t ∧
      t = { s with
        res := ⟨fadd s.opA.re s.opB.re, fadd s.opA.im s.opB.im⟩, status := ⟨false, true, .noError, s.status.busyErr⟩ }) ∧
    (∃ t, exec .csub s = .next t ∧
      t = { s with
        res := ⟨fsub s.opA.re s.opB.re, fsub s.opA.im s.opB.im⟩, status := ⟨false, true, .noError, s.status.busyErr⟩ }) ∧
    (∃ t, exec .cmul s = .next t ∧
      t = { s with
        res := ⟨fsub (fmul s.opA.re s.opB.re) (fmul s.opA.im s.opB.im),
                fadd (fmul s.opA.re s.opB.im) (fmul s.opA.im s.opB.re)⟩,
        status := ⟨false, true, .noError, s.status.busyErr⟩ }) ∧
    (∃ t, exec .cpolar s = .next t ∧
      t = { s with
        res := ⟨fmul s.opA.re (Config.fcos s.opB.re), fmul s.opA.re (Config.fsin s.opB.re)⟩,
        status := ⟨false, true, .noError, s.status.busyErr⟩ })

/-- The frame of CADD, CSUB, CMUL and CPOLAR: only RES and STATUS's BUSY, DONE and ERRCODE may change; every byte of BUF
reads as before. -/
def Obligations.ComplexCommandFrame : Prop :=
  ∀ (s t : State) (i : Instr), classOf i = .complex → exec i s = .next t →
    t.cmd = s.cmd ∧ t.ctrl = s.ctrl ∧ t.status.busyErr = s.status.busyErr ∧ t.opA = s.opA ∧ t.opB = s.opB ∧
    t.chans = s.chans ∧ (∀ a, t.bufByte a = s.bufByte a) ∧
    t.log2Nmax = s.log2Nmax ∧ t.base = s.base ∧ t.epoch = s.epoch ∧ t.draws = s.draws ∧ t.rdata = s.rdata ∧
    t.agenda = s.agenda

/-- R92: the complex product commutes bit for bit. -/
def Obligations.ComplexProductCommutes : Prop := ∀ a b : Cplx, cmul a b = cmul b a

/-- R98: TW(0, M) = (+1, -0) for every M >= 1; TW(i, M) is (FCOS, FSIN) of the angle -((TWO_PI32 * i)/M). -/
def Obligations.TwiddleFactor : Prop :=
  (∀ m : Nat, 1 ≤ m → twiddle 0 m = ⟨0x3F800000#32, 0x80000000#32⟩) ∧
  (∀ i m : Nat, twiddle i m =
    ⟨Config.fcos (fneg (fdiv (fmul 0x40C90FDB#32 (fcvt i)) (fcvt m))),
     Config.fsin (fneg (fdiv (fmul 0x40C90FDB#32 (fcvt i)) (fcvt m)))⟩)

/-! ## The FFT engine (42_fft.md) -/

/-- R141, R184: an FFT command with an illegal length changes nothing but STATUS, which reports BAD_LENGTH. -/
def Obligations.IllegalLengthIsRejected : Prop :=
  ∀ (s : State) (n : Nat),
    ((n = 0 ∨ s.nmax < n) →
      exec (.fftDft n) s = .next { s with status := ⟨false, true, .badLength, s.status.busyErr⟩ }) ∧
    ((s.nmax < n ∨ ∀ p, n ≠ 2 ^ p) →
      ∀ i, (i = .fftRs n ∨ i = .fftRb n ∨ i = .fftIt n ∨ i = .bitrev n) →
        exec i s = .next { s with status := ⟨false, true, .badLength, s.status.busyErr⟩ })

/-- R140, R145: FFT_DFT of any length 1 <= N <= NMAX completes; bin k is the sum from the left over ascending i. -/
def Obligations.DirectTransformResult : Prop :=
  ∀ (s : State) (n : Nat), 1 ≤ n → n ≤ s.nmax →
    ∃ t, exec (.fftDft n) s = .next t ∧ t.status = ⟨false, true, .noError, s.status.busyErr⟩ ∧
      ∀ k, k < n → t.bufEntry k = directSum twiddle n k s.bufEntry n

/-- R140, R142, R146 to R148, R150: FFT_RS, FFT_RB and FFT_IT of a length 2^p <= NMAX complete, and leave the same state,
bit for bit, whatever BUF holds: bin k is that of the decimation in frequency. -/
def Obligations.FastTransformsResult : Prop :=
  ∀ (s : State) (p : Nat), p ≤ s.log2Nmax →
    ∃ t, exec (.fftRs (2 ^ p)) s = .next t ∧ exec (.fftRb (2 ^ p)) s = .next t ∧ exec (.fftIt (2 ^ p)) s = .next t ∧
      t.status = ⟨false, true, .noError, s.status.busyErr⟩ ∧
      ∀ k, k < 2 ^ p → t.bufEntry k = fastBin twiddle p s.bufEntry k

/-- R144, R149: BITREV of a length 2^p <= NMAX completes, with BUF'[x] = BUF[rev_p(x)]. -/
def Obligations.BitReversalResult : Prop :=
  ∀ (s : State) (p : Nat), p ≤ s.log2Nmax →
    ∃ t, exec (.bitrev (2 ^ p)) s = .next t ∧ t.status = ⟨false, true, .noError, s.status.busyErr⟩ ∧
      ∀ x, x < 2 ^ p → reverseBits p x < 2 ^ p ∧ t.bufEntry x = s.bufEntry (reverseBits p x)

/-- R149: two BITREV commands of the same length restore every byte of BUF. -/
def Obligations.BitReversalTwiceRestoresBuf : Prop :=
  ∀ (s : State) (p : Nat), p ≤ s.log2Nmax →
    ∃ t u, exec (.bitrev (2 ^ p)) s = .next t ∧ exec (.bitrev (2 ^ p)) t = .next u ∧ ∀ a, u.bufByte a = s.bufByte a

/-- The frame of the FFT commands: only BUF[0..N-1] and STATUS's BUSY, DONE and ERRCODE may change; every byte of BUF
outside the 8N bytes from offset 0x10000 reads as before. -/
def Obligations.FftCommandFrame : Prop :=
  ∀ (s t : State) (i : Instr) (n : Nat),
    (i = .fftDft n ∨ i = .fftRs n ∨ i = .fftRb n ∨ i = .fftIt n ∨ i = .bitrev n) → exec i s = .next t →
    t.cmd = s.cmd ∧ t.ctrl = s.ctrl ∧ t.status.busyErr = s.status.busyErr ∧ t.opA = s.opA ∧ t.opB = s.opB ∧
    t.res = s.res ∧ t.chans = s.chans ∧
    (∀ a, (a < 0x10000 ∨ 0x10000 + 8 * n ≤ a) → t.bufByte a = s.bufByte a) ∧
    t.log2Nmax = s.log2Nmax ∧ t.base = s.base ∧ t.epoch = s.epoch ∧ t.draws = s.draws ∧ t.rdata = s.rdata ∧
    t.agenda = s.agenda

/-! ## The filters (41_iir.md) -/

/-- R111 to R113: FCFG_LPF1 and FCFG_HPF1 on a channel c < NCH complete; HPF1's B1 equals q bit for bit unless q is a NaN. -/
def Obligations.FirstOrderConstructions : Prop :=
  ∀ (s : State) (c : Nat) (w q : Word), c < s.nch → w = fmul (s.chan c).wn (s.chan c).ts →
    q = fdiv w (fadd w 0x40000000#32) →
    (∃ t, exec (.fcfgLpf1 c) s = .next t ∧ t.status = ⟨false, true, .noError, s.status.busyErr⟩ ∧
      t.chan c = { s.chan c with
        valid := true, kind := .lpf1, a1 := fdiv (fsub 0x40000000#32 w) (fadd 0x40000000#32 w), a2 := 0, b0 := q, b1 := q,
        b2 := 0, mq := 0, nq := 0, uOld0 := 0, uOld1 := 0, yOld0 := 0, yOld1 := 0, yOut := 0 }) ∧
    (∃ t, exec (.fcfgHpf1 c) s = .next t ∧ t.status = ⟨false, true, .noError, s.status.busyErr⟩ ∧
      t.chan c = { s.chan c with
        valid := true, kind := .hpf1, a1 := fdiv (fsub 0x40000000#32 w) (fadd 0x40000000#32 w), a2 := 0, b0 := fneg q,
        b1 := fneg (fneg q), b2 := 0, mq := 0, nq := 0, uOld0 := 0, uOld1 := 0, yOld0 := 0, yOld1 := 0, yOut := 0 } ∧
      (isNaN q = false → (t.chan c).b1 = q) ∧
      (isNaN q = true → (t.chan c).b0 = 0x7FC00000#32 ∧ (t.chan c).b1 = 0x7FC00000#32))

/-- R111, R114, R115: FCFG_LPF2 and FCFG_HPF2 on a channel c < NCH complete. -/
def Obligations.SecondOrderConstructions : Prop :=
  ∀ (s : State) (c : Nat) (w m n d : Word), c < s.nch → w = fmul (s.chan c).wn (s.chan c).ts →
    m = fdiv (fmul 0x40800000#32 (s.chan c).zeta) w → n = fdiv 0x40800000#32 (fmul w w) →
    d = fadd (fadd 0x3F800000#32 m) n →
    (∃ t, exec (.fcfgLpf2 c) s = .next t ∧ t.status = ⟨false, true, .noError, s.status.busyErr⟩ ∧
      t.chan c = { s.chan c with
        valid := true, kind := .lpf2, a1 := fdiv (fmul 0x40000000#32 (fsub 0x3F800000#32 n)) d,
        a2 := fdiv (fadd (fsub 0x3F800000#32 m) n) d, b0 := fdiv 0x3F800000#32 d, b1 := fdiv 0x40000000#32 d,
        b2 := fdiv 0x3F800000#32 d, mq := m, nq := n, uOld0 := 0, uOld1 := 0, yOld0 := 0, yOld1 := 0, yOut := 0 }) ∧
    (∃ t, exec (.fcfgHpf2 c) s = .next t ∧ t.status = ⟨false, true, .noError, s.status.busyErr⟩ ∧
      t.chan c = { s.chan c with
        valid := true, kind := .hpf2, a1 := fdiv (fmul 0x40000000#32 (fsub 0x3F800000#32 n)) d,
        a2 := fdiv (fadd (fsub 0x3F800000#32 m) n) d, b0 := fdiv n d, b1 := fdiv (fneg (fmul 0x40000000#32 n)) d,
        b2 := fdiv n d, mq := m, nq := n, uOld0 := 0, uOld1 := 0, yOld0 := 0, yOld1 := 0, yOut := 0 })

/-- R110: a construction does not depend on what the channel held but for TS, WN, ZETA and U_IN: after it, two channels
that agree there are equal. ZETA is not read by the first-order kinds (R111). -/
def Obligations.ConstructionStartsAFreshFilter : Prop :=
  ∀ (s t s' t' : State) (c c' : Nat), c < s.nch → c' < s'.nch →
    (s.chan c).ts = (s'.chan c').ts → (s.chan c).wn = (s'.chan c').wn →
    (∀ mk, (mk = Instr.fcfgLpf1 ∨ mk = Instr.fcfgHpf1) → exec (mk c) s = .next t → exec (mk c') s' = .next t' →
      t.chan c = { t'.chan c' with zeta := (s.chan c).zeta, uIn := (s.chan c).uIn }) ∧
    ((s.chan c).zeta = (s'.chan c').zeta →
      ∀ mk, (mk = Instr.fcfgLpf2 ∨ mk = Instr.fcfgHpf2) → exec (mk c) s = .next t → exec (mk c') s' = .next t' →
        t.chan c = { t'.chan c' with uIn := (s.chan c).uIn })

/-- R116 to R118: FAPPLY on a constructed channel c < NCH completes: the first-order step adds the feedback and leaves
UOLD1 and YOLD1 alone; the second-order step subtracts it, its products from before the shift. -/
def Obligations.FilterSteps : Prop :=
  ∀ (s : State) (c : Nat) (ch : Channel), c < s.nch → ch = s.chan c → ch.valid = true →
    ∃ t, exec (.fapply c) s = .next t ∧ t.status = ⟨false, true, .noError, s.status.busyErr⟩ ∧
      ((ch.kind = .lpf1 ∨ ch.kind = .hpf1) →
        ∀ y, y = fadd (fadd (fmul ch.b0 ch.uIn) (fmul ch.b1 ch.uOld0)) (fmul ch.a1 ch.yOld0) →
          t.chan c = { ch with uOld0 := ch.uIn, yOld0 := y, yOut := y }) ∧
      ((ch.kind = .lpf2 ∨ ch.kind = .hpf2) →
        ∀ y, y = fsub (fsub (fadd (fadd (fmul ch.b0 ch.uIn) (fmul ch.b1 ch.uOld0)) (fmul ch.b2 ch.uOld1))
            (fmul ch.a1 ch.yOld0)) (fmul ch.a2 ch.yOld1) →
          t.chan c = { ch with uOld1 := ch.uOld0, uOld0 := ch.uIn, yOld1 := ch.yOld0, yOld0 := y, yOut := y })

/-- R183, R185: a filter command on a channel c >= NCH completes with BAD_CHANNEL, FAPPLY on a channel never constructed
with NOT_CONFIGURED, and nothing but STATUS changes. -/
def Obligations.FilterCommandRejections : Prop :=
  ∀ (s : State) (c : Nat),
    (s.nch ≤ c → ∀ i, (i = .fcfgLpf1 c ∨ i = .fcfgHpf1 c ∨ i = .fcfgLpf2 c ∨ i = .fcfgHpf2 c ∨ i = .fapply c) →
      exec i s = .next { s with status := ⟨false, true, .badChannel, s.status.busyErr⟩ }) ∧
    (c < s.nch → (s.chan c).valid = false →
      exec (.fapply c) s = .next { s with status := ⟨false, true, .notConfigured, s.status.busyErr⟩ })

/-- The frame of the filter commands on channel c (R123): only channel c and STATUS's BUSY, DONE and ERRCODE may change,
and of channel c not TS, WN, ZETA or U_IN; every byte of BUF reads as before. -/
def Obligations.FilterCommandFrame : Prop :=
  ∀ (s t : State) (i : Instr) (c : Nat),
    (i = .fcfgLpf1 c ∨ i = .fcfgHpf1 c ∨ i = .fcfgLpf2 c ∨ i = .fcfgHpf2 c ∨ i = .fapply c) → exec i s = .next t →
    t.cmd = s.cmd ∧ t.ctrl = s.ctrl ∧ t.status.busyErr = s.status.busyErr ∧ t.opA = s.opA ∧ t.opB = s.opB ∧
    t.res = s.res ∧ (∀ a, t.bufByte a = s.bufByte a) ∧ t.nch = s.nch ∧
    (∀ d, d ≠ c → t.chan d = s.chan d) ∧
    (t.chan c).ts = (s.chan c).ts ∧ (t.chan c).wn = (s.chan c).wn ∧ (t.chan c).zeta = (s.chan c).zeta ∧
    (t.chan c).uIn = (s.chan c).uIn ∧
    t.log2Nmax = s.log2Nmax ∧ t.base = s.base ∧ t.epoch = s.epoch ∧ t.draws = s.draws ∧ t.rdata = s.rdata ∧
    t.agenda = s.agenda

/-- R123: FAPPLY on two different constructed channels may be interleaved in either order: the state after both is the same. -/
def Obligations.FilterStepsOfTwoChannelsCommute : Prop :=
  ∀ (s : State) (c d : Nat), c ≠ d → c < s.nch → d < s.nch → (s.chan c).valid = true → (s.chan d).valid = true →
    ∃ t u v, exec (.fapply c) s = .next t ∧ exec (.fapply d) t = .next v ∧
      exec (.fapply d) s = .next u ∧ exec (.fapply c) u = .next v

/-- R122: a NaN in a delay register or a coefficient the kind uses stays through every step that neither constructs the
channel again nor resets the core, and every FAPPLY on the channel then answers the canonical NaN. -/
def Obligations.NaNStaysInAFilter : Prop :=
  ∀ (s t : State) (c : Nat), c < s.nch → isPoisoned (s.chan c) → step s = .next t → ¬ resetHappens s →
    ¬ (engineRuns s (.fcfgLpf1 c) ∨ engineRuns s (.fcfgHpf1 c) ∨ engineRuns s (.fcfgLpf2 c) ∨ engineRuns s (.fcfgHpf2 c)) →
    isPoisoned (t.chan c) ∧
    (engineRuns s (.fapply c) → (s.chan c).valid = true → (t.chan c).yOut = 0x7FC00000#32)
end

