-- ==== Sys2Proof/Laws/Binary32.lean ====
section
/-! SUPPORT. Binary32 bit patterns: the fields of a packed word, the value of magnitude bits, and what `roundMag` does. -/

namespace Sys2Proof.Machine

/-! ### A word is a sign above 31 magnitude bits -/

/-- The magnitude bits of a word. -/
def magBits (x : Word) : Nat := x.toNat % 2 ^ 31

theorem magBits_lt (x : Word) : magBits x < 2 ^ 31 := Nat.mod_lt _ (by decide)

theorem toNat_pack (s : Bool) (m : Nat) : (pack s m).toNat = s.toNat * 2 ^ 31 + m % 2 ^ 31 := by
  unfold pack
  rw [BitVec.toNat_append, BitVec.toNat_ofBool, BitVec.toNat_ofNat, Nat.shiftLeft_eq, Nat.mul_comm,
    ← Nat.two_pow_add_eq_or_of_lt (Nat.mod_lt m (by decide))]

@[simp] theorem magBits_pack (s : Bool) {m : Nat} (h : m < 2 ^ 31) : magBits (pack s m) = m := by
  unfold magBits
  rw [toNat_pack, Nat.mod_eq_of_lt h]
  cases s <;> simp only [Bool.toNat_true, Bool.toNat_false] <;> omega

@[simp] theorem signBit_pack (s : Bool) (m : Nat) : signBit (pack s m) = s := by
  unfold signBit pack
  rw [BitVec.getLsbD_append]
  simp

theorem expField_eq (x : Word) : expField x = magBits x / 2 ^ 23 := by
  unfold expField magBits
  rw [BitVec.extractLsb'_toNat, Nat.shiftRight_eq_div_pow]
  omega

theorem fracField_eq (x : Word) : fracField x = magBits x % 2 ^ 23 := by
  unfold fracField magBits
  rw [BitVec.extractLsb'_toNat, Nat.shiftRight_eq_div_pow]
  omega

theorem isNaN_iff (x : Word) : isNaN x = true ↔ infBits < magBits x := by
  have := magBits_lt x
  simp only [isNaN, expField_eq, fracField_eq, Bool.and_eq_true, beq_iff_eq, bne_iff_ne, infBits]
  omega

theorem isInf_iff (x : Word) : isInf x = true ↔ magBits x = infBits := by
  have := magBits_lt x
  simp only [isInf, expField_eq, fracField_eq, Bool.and_eq_true, beq_iff_eq, infBits]
  omega

theorem isFinite_iff (x : Word) : isFinite x = true ↔ magBits x < infBits := by
  have := magBits_lt x
  simp only [isFinite, expField_eq, bne_iff_ne, infBits]
  omega

theorem isZero_iff (x : Word) : isZero x = true ↔ magBits x = 0 := by
  have := magBits_lt x
  simp only [isZero, expField_eq, fracField_eq, Bool.and_eq_true, beq_iff_eq]
  omega

theorem signBit_eq (x : Word) : signBit x = decide (2 ^ 31 ≤ x.toNat) := by
  have h : signBit x = x.msb := by simp [signBit, BitVec.msb_eq_getLsbD_last]
  rw [h, BitVec.msb_eq_decide]

/-- A word is its sign above its magnitude bits. -/
theorem pack_signBit_magBits (x : Word) : pack (signBit x) (magBits x) = x := by
  apply BitVec.eq_of_toNat_eq
  have := x.isLt
  rw [toNat_pack, signBit_eq]
  unfold magBits
  by_cases h : 2 ^ 31 ≤ x.toNat
  · simp only [h, decide_true, Bool.toNat_true]; omega
  · simp only [h, decide_false, Bool.toNat_false]; omega

/-- Two words with the same sign and the same magnitude bits are equal. -/
theorem word_ext {x y : Word} (hs : signBit x = signBit y) (hm : magBits x = magBits y) : x = y := by
  rw [← pack_signBit_magBits x, ← pack_signBit_magBits y, hs, hm]

/-! ### The value of magnitude bits -/

/-- The magnitude, in units of 2^-149, that magnitude bits stand for. -/
def bitsUnits (b : Nat) : Nat :=
  if b / 2 ^ 23 = 0 then b % 2 ^ 23 else (b % 2 ^ 23 + 2 ^ 23) * 2 ^ (b / 2 ^ 23 - 1)

theorem magUnits_eq (x : Word) : magUnits x = bitsUnits (magBits x) := by
  simp only [magUnits, bitsUnits, expField_eq, fracField_eq]

/-- A significand m with quantum 2^k has the bits m + k * 2^23: subnormals, normals, and the carry into the next exponent. -/
theorem bitsUnits_add {m k : Nat} (hm : m ≤ 2 ^ 24) (hk : k = 0 ∨ 2 ^ 23 ≤ m) :
    bitsUnits (m + k * 2 ^ 23) = m * 2 ^ k := by
  unfold bitsUnits
  rcases Nat.lt_or_ge m (2 ^ 23) with h | h
  · obtain rfl : k = 0 := by omega
    rw [if_pos (by omega)]; simp; omega
  · rcases Nat.lt_or_ge m (2 ^ 24) with h' | h'
    · have h1 : (m + k * 2 ^ 23) / 2 ^ 23 = k + 1 := by omega
      have h2 : (m + k * 2 ^ 23) % 2 ^ 23 = m - 2 ^ 23 := by omega
      rw [h1, if_neg (by omega), h2, Nat.sub_add_cancel h, Nat.add_sub_cancel]
    · obtain rfl : m = 2 ^ 24 := by omega
      have h1 : (2 ^ 24 + k * 2 ^ 23) / 2 ^ 23 = k + 2 := by omega
      have h2 : (2 ^ 24 + k * 2 ^ 23) % 2 ^ 23 = 0 := by omega
      rw [h1, if_neg (by omega), h2, show k + 2 - 1 = k + 1 by omega, pow_succ]
      ring

/-- Every magnitude below infinity has a significand and a quantum. -/
theorem exists_significand {b : Nat} (h : b < infBits) :
    ∃ m k, b = m + k * 2 ^ 23 ∧ m < 2 ^ 24 ∧ (k = 0 ∨ 2 ^ 23 ≤ m) ∧ k ≤ 253 ∧ bitsUnits b = m * 2 ^ k := by
  unfold infBits at h
  by_cases h0 : b < 2 ^ 24
  · refine ⟨b, 0, by omega, h0, .inl rfl, by omega, ?_⟩
    have := bitsUnits_add (m := b) (k := 0) (by omega) (.inl rfl)
    simpa using this
  · have hb : b = (b - (b / 2 ^ 23 - 1) * 2 ^ 23) + (b / 2 ^ 23 - 1) * 2 ^ 23 := by omega
    refine ⟨b - (b / 2 ^ 23 - 1) * 2 ^ 23, b / 2 ^ 23 - 1, hb, by omega, .inr (by omega), by omega, ?_⟩
    have := bitsUnits_add (m := b - (b / 2 ^ 23 - 1) * 2 ^ 23) (k := b / 2 ^ 23 - 1) (by omega) (.inr (by omega))
    rwa [← hb] at this

theorem bitsUnits_eq_zero_iff {b : Nat} (h : b < infBits) : bitsUnits b = 0 ↔ b = 0 := by
  obtain ⟨m, k, hb, hm, hk, hk', hv⟩ := exists_significand h
  have := Nat.two_pow_pos k
  rw [hv, Nat.mul_eq_zero]
  constructor
  · rintro (rfl | h')
    · omega
    · omega
  · rintro rfl; left; omega

theorem magUnits_eq_zero_iff {x : Word} (h : isFinite x = true) : magUnits x = 0 ↔ isZero x = true := by
  rw [magUnits_eq, bitsUnits_eq_zero_iff ((isFinite_iff x).1 h), isZero_iff]

/-! ### roundMag -/

theorem roundMag_le (n d : Nat) : roundMag n d ≤ infBits := Nat.min_le_right ..

theorem roundMag_lt (n d : Nat) : roundMag n d < 2 ^ 31 := Nat.lt_of_le_of_lt (roundMag_le n d) (by decide)

/-- A rounded result is never a NaN. -/
theorem isNaN_pack_roundMag (s : Bool) (n d : Nat) : isNaN (pack s (roundMag n d)) = false := by
  rw [← Bool.not_eq_true, isNaN_iff, magBits_pack s (roundMag_lt n d)]
  exact Nat.not_lt.2 (roundMag_le n d)

/-- The significand and quantum `roundMag` works with: n = q*m + r with q = d * 2^k, m below 2^24, and at least 2^23 unless k = 0. -/
theorem roundMag_quantum (n d : Nat) (hd : 0 < d) :
    ∃ k m r, n = d * 2 ^ k * m + r ∧ r < d * 2 ^ k ∧ m < 2 ^ 24 ∧ (k = 0 ∨ 2 ^ 23 ≤ m) ∧
      roundMag n d = min ((if d * 2 ^ k < 2 * r ∨ (2 * r = d * 2 ^ k ∧ m % 2 = 1) then m + 1 else m) + k * 2 ^ 23) infBits := by
  refine ⟨Nat.log2 (n / d) - 23, n / (d * 2 ^ (Nat.log2 (n / d) - 23)), n % (d * 2 ^ (Nat.log2 (n / d) - 23)),
    (Nat.div_add_mod ..).symm, Nat.mod_lt _ (Nat.mul_pos hd (Nat.two_pow_pos _)), ?_, ?_, ?_⟩
  · rw [← Nat.div_div_eq_div_mul, Nat.div_lt_iff_lt_mul (Nat.two_pow_pos _), ← Nat.pow_add]
    refine Nat.lt_of_lt_of_le Nat.lt_log2_self (Nat.pow_le_pow_right (by decide) (by omega))
  · by_cases hk : Nat.log2 (n / d) - 23 = 0
    · exact .inl hk
    · right
      have hne : n / d ≠ 0 := by rintro h0; simp [h0] at hk
      rw [← Nat.div_div_eq_div_mul, Nat.le_div_iff_mul_le (Nat.two_pow_pos _), ← Nat.pow_add]
      have : 23 + (Nat.log2 (n / d) - 23) = Nat.log2 (n / d) := by omega
      rw [this]
      exact Nat.log2_self_le hne
  · simp [roundMag]

/-! ### Rounding to nearest even -/

/-- Of the multiples of q and of everything below q*m, the rounded multiple is nearest to n = q*m + r, and it is the even
one where another is as near. -/
theorem nearest_multiple {n q m r : Nat} (hn : n = q * m + r) (hr : r < q) (x : Nat) (hx : (∃ j, x = q * j) ∨ x < q * m) :
    let m' := if q < 2 * r ∨ (2 * r = q ∧ m % 2 = 1) then m + 1 else m
    |((q * m' : Nat) : ℤ) - n| ≤ |(x : ℤ) - n| ∧ (x ≠ q * m' → |(x : ℤ) - n| = |((q * m' : Nat) : ℤ) - n| → m' % 2 = 0) := by
  subst hn
  have key : x < q * m ∨ x = q * m ∨ x = q * m + q ∨ q * m + 2 * q ≤ x := by
    rcases hx with ⟨j, rfl⟩ | h
    · rcases lt_or_ge j m with h | h
      · exact .inl (Nat.mul_lt_mul_of_pos_left h (by omega))
      · obtain ⟨i, rfl⟩ := Nat.exists_eq_add_of_le h
        rcases i with _ | _ | i
        · simp
        · right; right; left; ring
        · right; right; right
          have : 0 ≤ q * i := Nat.zero_le _
          nlinarith
    · exact .inl h
  have h1 : q * (m + 1) = q * m + q := by ring
  intro m'
  generalize hQ : q * m = Q at *
  simp only [m', Int.abs_eq_natAbs]
  split
  · rw [h1]; omega
  · rw [hQ]; omega

/-- The least magnitude, in units, that rounds to infinity: half a unit in the last place above the largest finite value. -/
def overflowUnits : Nat := (2 ^ 25 - 1) * 2 ^ 252

/-- In the top binade (quantum 2e), what lies below the overflow bound does not round up from the largest significand. -/
theorem top_below {e m r : Nat} (hn : 2 * e * m + r < e * (2 ^ 25 - 1)) (hm : m = 2 ^ 24 - 1) :
    ¬(2 * e < 2 * r ∨ (2 * r = 2 * e ∧ m % 2 = 1)) := by
  subst hm; omega

/-- In the top binade, what lies at the overflow bound or above rounds up from the largest significand. -/
theorem top_above {e m r : Nat} (hn : e * (2 ^ 25 - 1) ≤ 2 * e * m + r) (hr : r < 2 * e) (hm : m < 2 ^ 24) :
    m = 2 ^ 24 - 1 ∧ (2 * e < 2 * r ∨ (2 * r = 2 * e ∧ m % 2 = 1)) := by
  have hmm : 2 ^ 24 - 1 ≤ m := by
    by_contra hc
    have : 2 * e * m ≤ 2 * e * (2 ^ 24 - 2) := Nat.mul_le_mul_left _ (by omega)
    omega
  obtain rfl : m = 2 ^ 24 - 1 := by omega
  omega

/-- In range, `roundMag` gives the finite magnitude nearest n/d, even where another is as near (R8). -/
theorem roundMag_nearest {n d : Nat} (hd : 0 < d) (hn : n < overflowUnits * d) :
    roundMag n d < infBits ∧ ∀ b, b < infBits →
      |((bitsUnits (roundMag n d) * d : Nat) : ℤ) - n| ≤ |((bitsUnits b * d : Nat) : ℤ) - n| ∧
      (bitsUnits b ≠ bitsUnits (roundMag n d) →
        |((bitsUnits b * d : Nat) : ℤ) - n| = |((bitsUnits (roundMag n d) * d : Nat) : ℤ) - n| → roundMag n d % 2 = 0) := by
  obtain ⟨k, m, r, hq, hr, hm, hk, hR⟩ := roundMag_quantum n d hd
  set m' := if d * 2 ^ k < 2 * r ∨ (2 * r = d * 2 ^ k ∧ m % 2 = 1) then m + 1 else m with hm'
  have hm'le : m ≤ m' ∧ m' ≤ m + 1 := by rw [hm']; split <;> omega
  have hd0 : 0 < d * 2 ^ k := Nat.mul_pos hd (Nat.two_pow_pos k)
  have hkm : k ≤ 253 ∧ (k = 253 → m' < 2 ^ 24) := by
    unfold overflowUnits at hn
    constructor
    · by_contra hc
      have h1 : 2 ^ 23 ≤ m := by omega
      have h2 : 2 ^ 254 ≤ 2 ^ k := Nat.pow_le_pow_right (by decide) (by omega)
      have h3 : d * 2 ^ 254 * 2 ^ 23 ≤ d * 2 ^ k * m := Nat.mul_le_mul (Nat.mul_le_mul_left d h2) h1
      have h4 : (2 ^ 25 - 1) * 2 ^ 252 * d ≤ d * 2 ^ 254 * 2 ^ 23 := by
        rw [Nat.mul_comm _ d, Nat.mul_assoc d]
        exact Nat.mul_le_mul_left d (by decide)
      omega
    · rintro rfl
      by_contra hc
      have hmm : m = 2 ^ 24 - 1 := by omega
      have h4 : (2 ^ 25 - 1) * 2 ^ 252 * d = d * 2 ^ 252 * (2 ^ 25 - 1) := by ring
      have h5 : d * 2 ^ 253 = 2 * (d * 2 ^ 252) := by ring
      rw [h4, hq, h5] at hn
      rw [h5, if_neg (top_below hn hmm)] at hm'
      omega
  have hlt : m' + k * 2 ^ 23 < infBits := by unfold infBits; omega
  rw [Nat.min_eq_left hlt.le] at hR
  have hv : bitsUnits (roundMag n d) = m' * 2 ^ k := by rw [hR, bitsUnits_add (by omega) (by omega)]
  have hpar : roundMag n d % 2 = m' % 2 := by rw [hR]; omega
  refine ⟨hR ▸ hlt, fun b hb => ?_⟩
  obtain ⟨M, K, _, hM, _, _, hbv⟩ := exists_significand hb
  have hx : (∃ j, bitsUnits b * d = d * 2 ^ k * j) ∨ bitsUnits b * d < d * 2 ^ k * m := by
    rw [hbv]
    rcases Nat.lt_or_ge K k with h | h
    · right
      have h1 : 2 ^ 23 ≤ m := by omega
      have h2 : M * 2 ^ K < 2 ^ k * m := by
        calc M * 2 ^ K < 2 ^ 24 * 2 ^ K := Nat.mul_lt_mul_of_pos_right hM (Nat.two_pow_pos K)
          _ = 2 ^ (K + 1) * 2 ^ 23 := by ring
          _ ≤ 2 ^ k * m := Nat.mul_le_mul (Nat.pow_le_pow_right (by decide) h) h1
      calc M * 2 ^ K * d = d * (M * 2 ^ K) := by ring
        _ < d * (2 ^ k * m) := Nat.mul_lt_mul_of_pos_left h2 hd
        _ = _ := by ring
    · left
      obtain ⟨i, rfl⟩ := Nat.exists_eq_add_of_le h
      exact ⟨M * 2 ^ i, by ring⟩
  have hmain := nearest_multiple hq hr _ hx
  have he : bitsUnits (roundMag n d) * d = d * 2 ^ k * m' := by rw [hv]; ring
  rw [he]
  refine ⟨hmain.1, fun hne heq => ?_⟩
  rw [hpar]
  refine hmain.2 (fun h => hne ?_) heq
  exact Nat.eq_of_mul_eq_mul_right hd (h.trans he.symm)

/-- Beyond the range, `roundMag` gives infinity (R8). -/
theorem roundMag_overflow {n d : Nat} (hd : 0 < d) (hn : overflowUnits * d ≤ n) : roundMag n d = infBits := by
  obtain ⟨k, m, r, hq, hr, hm, hk, hR⟩ := roundMag_quantum n d hd
  rw [hR]
  apply Nat.min_eq_right
  unfold overflowUnits at hn
  have hk' : 253 ≤ k := by
    by_contra hc
    have h2 : 2 ^ k ≤ 2 ^ 252 := Nat.pow_le_pow_right (by decide) (by omega)
    have h3 : d * 2 ^ k * (m + 1) ≤ d * 2 ^ 252 * 2 ^ 24 := Nat.mul_le_mul (Nat.mul_le_mul_left d h2) (by omega)
    have h4 : d * 2 ^ 252 * 2 ^ 24 < (2 ^ 25 - 1) * 2 ^ 252 * d := by
      rw [Nat.mul_comm _ d, Nat.mul_assoc d]
      exact Nat.mul_lt_mul_of_pos_left (by decide) hd
    rw [Nat.mul_add, Nat.mul_one] at h3
    omega
  unfold infBits
  rcases Nat.lt_or_ge 253 k with h | h
  · have : 2 ^ 23 ≤ m := by omega
    split <;> omega
  · obtain rfl : k = 253 := by omega
    have h4 : (2 ^ 25 - 1) * 2 ^ 252 * d = d * 2 ^ 252 * (2 ^ 25 - 1) := by ring
    have h5 : d * 2 ^ 253 = 2 * (d * 2 ^ 252) := by ring
    rw [h4, hq, h5] at hn
    rw [h5] at hr ⊢
    obtain ⟨hmm, hup⟩ := top_above hn hr hm
    rw [if_pos hup, hmm]; decide

end Sys2Proof.Machine
end

