-- ==== Sys2Proof/Laws/State.lean ====
section
/-! SUPPORT. One lemma per field per update of State, so that no later proof unfolds a record update. -/

namespace Sys2Proof.Machine

variable (s : State)

/-! ### storeBuf -/

@[simp] theorem State.storeBuf_log2Nmax (xs : List Cplx) : (s.storeBuf xs).log2Nmax = s.log2Nmax := rfl
@[simp] theorem State.storeBuf_base (xs : List Cplx) : (s.storeBuf xs).base = s.base := rfl
@[simp] theorem State.storeBuf_cmd (xs : List Cplx) : (s.storeBuf xs).cmd = s.cmd := rfl
@[simp] theorem State.storeBuf_status (xs : List Cplx) : (s.storeBuf xs).status = s.status := rfl
@[simp] theorem State.storeBuf_ctrl (xs : List Cplx) : (s.storeBuf xs).ctrl = s.ctrl := rfl
@[simp] theorem State.storeBuf_opA (xs : List Cplx) : (s.storeBuf xs).opA = s.opA := rfl
@[simp] theorem State.storeBuf_opB (xs : List Cplx) : (s.storeBuf xs).opB = s.opB := rfl
@[simp] theorem State.storeBuf_res (xs : List Cplx) : (s.storeBuf xs).res = s.res := rfl
@[simp] theorem State.storeBuf_chans (xs : List Cplx) : (s.storeBuf xs).chans = s.chans := rfl
@[simp] theorem State.storeBuf_buf (xs : List Cplx) : (s.storeBuf xs).buf = Memory.insertEntries s.buf 0 xs := rfl
@[simp] theorem State.storeBuf_epoch (xs : List Cplx) : (s.storeBuf xs).epoch = s.epoch := rfl
@[simp] theorem State.storeBuf_draws (xs : List Cplx) : (s.storeBuf xs).draws = s.draws := rfl
@[simp] theorem State.storeBuf_rdata (xs : List Cplx) : (s.storeBuf xs).rdata = s.rdata := rfl
@[simp] theorem State.storeBuf_agenda (xs : List Cplx) : (s.storeBuf xs).agenda = s.agenda := rfl

/-! ### setChan -/

@[simp] theorem State.setChan_log2Nmax (c : Nat) (ch : Channel) : (s.setChan c ch).log2Nmax = s.log2Nmax := rfl
@[simp] theorem State.setChan_base (c : Nat) (ch : Channel) : (s.setChan c ch).base = s.base := rfl
@[simp] theorem State.setChan_cmd (c : Nat) (ch : Channel) : (s.setChan c ch).cmd = s.cmd := rfl
@[simp] theorem State.setChan_status (c : Nat) (ch : Channel) : (s.setChan c ch).status = s.status := rfl
@[simp] theorem State.setChan_ctrl (c : Nat) (ch : Channel) : (s.setChan c ch).ctrl = s.ctrl := rfl
@[simp] theorem State.setChan_opA (c : Nat) (ch : Channel) : (s.setChan c ch).opA = s.opA := rfl
@[simp] theorem State.setChan_opB (c : Nat) (ch : Channel) : (s.setChan c ch).opB = s.opB := rfl
@[simp] theorem State.setChan_res (c : Nat) (ch : Channel) : (s.setChan c ch).res = s.res := rfl
@[simp] theorem State.setChan_chans (c : Nat) (ch : Channel) : (s.setChan c ch).chans = s.chans.set c ch := rfl
@[simp] theorem State.setChan_buf (c : Nat) (ch : Channel) : (s.setChan c ch).buf = s.buf := rfl
@[simp] theorem State.setChan_epoch (c : Nat) (ch : Channel) : (s.setChan c ch).epoch = s.epoch := rfl
@[simp] theorem State.setChan_draws (c : Nat) (ch : Channel) : (s.setChan c ch).draws = s.draws := rfl
@[simp] theorem State.setChan_rdata (c : Nat) (ch : Channel) : (s.setChan c ch).rdata = s.rdata := rfl
@[simp] theorem State.setChan_agenda (c : Nat) (ch : Channel) : (s.setChan c ch).agenda = s.agenda := rfl

/-! ### setRes -/

@[simp] theorem State.setRes_log2Nmax (x : Cplx) : (s.setRes x).log2Nmax = s.log2Nmax := rfl
@[simp] theorem State.setRes_base (x : Cplx) : (s.setRes x).base = s.base := rfl
@[simp] theorem State.setRes_cmd (x : Cplx) : (s.setRes x).cmd = s.cmd := rfl
@[simp] theorem State.setRes_status (x : Cplx) : (s.setRes x).status = s.status := rfl
@[simp] theorem State.setRes_ctrl (x : Cplx) : (s.setRes x).ctrl = s.ctrl := rfl
@[simp] theorem State.setRes_opA (x : Cplx) : (s.setRes x).opA = s.opA := rfl
@[simp] theorem State.setRes_opB (x : Cplx) : (s.setRes x).opB = s.opB := rfl
@[simp] theorem State.setRes_res (x : Cplx) : (s.setRes x).res = x := rfl
@[simp] theorem State.setRes_chans (x : Cplx) : (s.setRes x).chans = s.chans := rfl
@[simp] theorem State.setRes_buf (x : Cplx) : (s.setRes x).buf = s.buf := rfl
@[simp] theorem State.setRes_epoch (x : Cplx) : (s.setRes x).epoch = s.epoch := rfl
@[simp] theorem State.setRes_draws (x : Cplx) : (s.setRes x).draws = s.draws := rfl
@[simp] theorem State.setRes_rdata (x : Cplx) : (s.setRes x).rdata = s.rdata := rfl
@[simp] theorem State.setRes_agenda (x : Cplx) : (s.setRes x).agenda = s.agenda := rfl

/-! ### accept -/

@[simp] theorem State.accept_log2Nmax (w : Word) : (s.accept w).log2Nmax = s.log2Nmax := rfl
@[simp] theorem State.accept_base (w : Word) : (s.accept w).base = s.base := rfl
@[simp] theorem State.accept_cmd (w : Word) : (s.accept w).cmd = w := rfl
@[simp] theorem State.accept_status (w : Word) : (s.accept w).status = { s.status with busy := true, done := false, err := .noError } := rfl
@[simp] theorem State.accept_ctrl (w : Word) : (s.accept w).ctrl = s.ctrl := rfl
@[simp] theorem State.accept_opA (w : Word) : (s.accept w).opA = s.opA := rfl
@[simp] theorem State.accept_opB (w : Word) : (s.accept w).opB = s.opB := rfl
@[simp] theorem State.accept_res (w : Word) : (s.accept w).res = s.res := rfl
@[simp] theorem State.accept_chans (w : Word) : (s.accept w).chans = s.chans := rfl
@[simp] theorem State.accept_buf (w : Word) : (s.accept w).buf = s.buf := rfl
@[simp] theorem State.accept_epoch (w : Word) : (s.accept w).epoch = s.epoch := rfl
@[simp] theorem State.accept_draws (w : Word) : (s.accept w).draws = s.draws := rfl
@[simp] theorem State.accept_rdata (w : Word) : (s.accept w).rdata = s.rdata := rfl
@[simp] theorem State.accept_agenda (w : Word) : (s.accept w).agenda = s.agenda := rfl

/-! ### complete -/

@[simp] theorem State.complete_log2Nmax (code : ErrCode) : (s.complete code).log2Nmax = s.log2Nmax := rfl
@[simp] theorem State.complete_base (code : ErrCode) : (s.complete code).base = s.base := rfl
@[simp] theorem State.complete_cmd (code : ErrCode) : (s.complete code).cmd = s.cmd := rfl
@[simp] theorem State.complete_status (code : ErrCode) : (s.complete code).status = { s.status with busy := false, done := true, err := code } := rfl
@[simp] theorem State.complete_ctrl (code : ErrCode) : (s.complete code).ctrl = s.ctrl := rfl
@[simp] theorem State.complete_opA (code : ErrCode) : (s.complete code).opA = s.opA := rfl
@[simp] theorem State.complete_opB (code : ErrCode) : (s.complete code).opB = s.opB := rfl
@[simp] theorem State.complete_res (code : ErrCode) : (s.complete code).res = s.res := rfl
@[simp] theorem State.complete_chans (code : ErrCode) : (s.complete code).chans = s.chans := rfl
@[simp] theorem State.complete_buf (code : ErrCode) : (s.complete code).buf = s.buf := rfl
@[simp] theorem State.complete_epoch (code : ErrCode) : (s.complete code).epoch = s.epoch := rfl
@[simp] theorem State.complete_draws (code : ErrCode) : (s.complete code).draws = s.draws := rfl
@[simp] theorem State.complete_rdata (code : ErrCode) : (s.complete code).rdata = s.rdata := rfl
@[simp] theorem State.complete_agenda (code : ErrCode) : (s.complete code).agenda = s.agenda := rfl

/-! ### setBusyErr -/

@[simp] theorem State.setBusyErr_log2Nmax : (s.setBusyErr).log2Nmax = s.log2Nmax := rfl
@[simp] theorem State.setBusyErr_base : (s.setBusyErr).base = s.base := rfl
@[simp] theorem State.setBusyErr_cmd : (s.setBusyErr).cmd = s.cmd := rfl
@[simp] theorem State.setBusyErr_status : (s.setBusyErr).status = { s.status with busyErr := true } := rfl
@[simp] theorem State.setBusyErr_ctrl : (s.setBusyErr).ctrl = s.ctrl := rfl
@[simp] theorem State.setBusyErr_opA : (s.setBusyErr).opA = s.opA := rfl
@[simp] theorem State.setBusyErr_opB : (s.setBusyErr).opB = s.opB := rfl
@[simp] theorem State.setBusyErr_res : (s.setBusyErr).res = s.res := rfl
@[simp] theorem State.setBusyErr_chans : (s.setBusyErr).chans = s.chans := rfl
@[simp] theorem State.setBusyErr_buf : (s.setBusyErr).buf = s.buf := rfl
@[simp] theorem State.setBusyErr_epoch : (s.setBusyErr).epoch = s.epoch := rfl
@[simp] theorem State.setBusyErr_draws : (s.setBusyErr).draws = s.draws := rfl
@[simp] theorem State.setBusyErr_rdata : (s.setBusyErr).rdata = s.rdata := rfl
@[simp] theorem State.setBusyErr_agenda : (s.setBusyErr).agenda = s.agenda := rfl

/-! ### pend -/

@[simp] theorem State.pend_log2Nmax (w : Word) : (s.pend w).log2Nmax = s.log2Nmax := rfl
@[simp] theorem State.pend_base (w : Word) : (s.pend w).base = s.base := rfl
@[simp] theorem State.pend_cmd (w : Word) : (s.pend w).cmd = w := rfl
@[simp] theorem State.pend_status (w : Word) : (s.pend w).status = { s.status with busy := true, done := false, err := .noError } := rfl
@[simp] theorem State.pend_ctrl (w : Word) : (s.pend w).ctrl = s.ctrl := rfl
@[simp] theorem State.pend_opA (w : Word) : (s.pend w).opA = s.opA := rfl
@[simp] theorem State.pend_opB (w : Word) : (s.pend w).opB = s.opB := rfl
@[simp] theorem State.pend_res (w : Word) : (s.pend w).res = s.res := rfl
@[simp] theorem State.pend_chans (w : Word) : (s.pend w).chans = s.chans := rfl
@[simp] theorem State.pend_buf (w : Word) : (s.pend w).buf = s.buf := rfl
@[simp] theorem State.pend_epoch (w : Word) : (s.pend w).epoch = s.epoch := rfl
@[simp] theorem State.pend_draws (w : Word) : (s.pend w).draws = s.draws := rfl
@[simp] theorem State.pend_rdata (w : Word) : (s.pend w).rdata = s.rdata := rfl
@[simp] theorem State.pend_agenda (w : Word) : (s.pend w).agenda = .engine :: s.agenda := rfl

/-! ### resetEvent -/

@[simp] theorem State.resetEvent_log2Nmax : (s.resetEvent).log2Nmax = s.log2Nmax := rfl
@[simp] theorem State.resetEvent_base : (s.resetEvent).base = s.base := rfl
@[simp] theorem State.resetEvent_cmd : (s.resetEvent).cmd = 0 := rfl
@[simp] theorem State.resetEvent_status : (s.resetEvent).status = { busy := false, done := false, err := .noError, busyErr := false } := rfl
@[simp] theorem State.resetEvent_ctrl : (s.resetEvent).ctrl = { doneIe := false, busyErrIe := false } := rfl
@[simp] theorem State.resetEvent_opA : (s.resetEvent).opA = ⟨0, 0⟩ := rfl
@[simp] theorem State.resetEvent_opB : (s.resetEvent).opB = ⟨0, 0⟩ := rfl
@[simp] theorem State.resetEvent_res : (s.resetEvent).res = ⟨0, 0⟩ := rfl
@[simp] theorem State.resetEvent_chans : (s.resetEvent).chans = List.replicate s.chans.length Channel.reset := rfl
@[simp] theorem State.resetEvent_buf : (s.resetEvent).buf = [] := rfl
@[simp] theorem State.resetEvent_epoch : (s.resetEvent).epoch = s.epoch + 1 := rfl
@[simp] theorem State.resetEvent_draws : (s.resetEvent).draws = s.draws := rfl
@[simp] theorem State.resetEvent_rdata : (s.resetEvent).rdata = s.rdata := rfl
@[simp] theorem State.resetEvent_agenda : (s.resetEvent).agenda = s.agenda := rfl

/-! ### Derived views -/

@[simp] theorem State.nch_setRes (x : Cplx) : (s.setRes x).nch = s.nch := rfl
@[simp] theorem State.nch_storeBuf (xs : List Cplx) : (s.storeBuf xs).nch = s.nch := rfl
@[simp] theorem State.nch_accept (w : Word) : (s.accept w).nch = s.nch := rfl
@[simp] theorem State.nch_complete (code : ErrCode) : (s.complete code).nch = s.nch := rfl
@[simp] theorem State.nch_setBusyErr : s.setBusyErr.nch = s.nch := rfl
@[simp] theorem State.nch_setChan (c : Nat) (ch : Channel) : (s.setChan c ch).nch = s.nch := List.length_set ..
@[simp] theorem State.nch_resetEvent : s.resetEvent.nch = s.nch := List.length_replicate ..
@[simp] theorem State.nch_resetWith (p n b : Nat) : (State.resetWith p n b).nch = n := List.length_replicate ..

/-- A channel reads back what `setChan` put there (c < NCH). -/
theorem State.chan_setChan_self {c : Nat} (h : c < s.nch) (ch : Channel) : (s.setChan c ch).chan c = ch := by
  have h' : c < (s.chans.set c ch).length := by simpa [State.nch] using h
  simp only [State.chan, State.setChan]; rw [List.getD_eq_getElem _ _ h', List.getElem_set_self]

/-- `setChan` leaves every other channel alone. -/
theorem State.chan_setChan_ne {c d : Nat} (h : c ≠ d) (ch : Channel) : (s.setChan c ch).chan d = s.chan d := by
  simp [State.chan, List.getD_eq_getElem?_getD, h]

@[simp] theorem State.chan_setRes (x : Cplx) (d : Nat) : (s.setRes x).chan d = s.chan d := rfl
@[simp] theorem State.chan_storeBuf (xs : List Cplx) (d : Nat) : (s.storeBuf xs).chan d = s.chan d := rfl
@[simp] theorem State.chan_accept (w : Word) (d : Nat) : (s.accept w).chan d = s.chan d := rfl
@[simp] theorem State.chan_complete (code : ErrCode) (d : Nat) : (s.complete code).chan d = s.chan d := rfl
@[simp] theorem State.chan_setBusyErr (d : Nat) : s.setBusyErr.chan d = s.chan d := rfl

@[simp] theorem State.bufByte_setRes (x : Cplx) (a : Nat) : (s.setRes x).bufByte a = s.bufByte a := rfl
@[simp] theorem State.bufByte_setChan (c : Nat) (ch : Channel) (a : Nat) : (s.setChan c ch).bufByte a = s.bufByte a := rfl
@[simp] theorem State.bufByte_accept (w : Word) (a : Nat) : (s.accept w).bufByte a = s.bufByte a := rfl
@[simp] theorem State.bufByte_complete (code : ErrCode) (a : Nat) : (s.complete code).bufByte a = s.bufByte a := rfl
@[simp] theorem State.bufByte_setBusyErr (a : Nat) : s.setBusyErr.bufByte a = s.bufByte a := rfl

/-- After reset every channel is `Channel.reset`. -/
theorem State.chan_resetWith (p n b c : Nat) : (State.resetWith p n b).chan c = Channel.reset := by
  simp only [State.chan, State.resetWith, List.getD_eq_getElem?_getD, List.getElem?_replicate]
  split <;> rfl

/-! ### What is still to come is no part of the core -/

@[simp] theorem State.nch_agenda (rest : List Event) : State.nch { s with agenda := rest } = s.nch := rfl
@[simp] theorem State.nmax_agenda (rest : List Event) : State.nmax { s with agenda := rest } = s.nmax := rfl
@[simp] theorem State.chan_agenda (rest : List Event) (c : Nat) : State.chan { s with agenda := rest } c = s.chan c := rfl
@[simp] theorem State.bufByte_agenda (rest : List Event) (a : Nat) :
    State.bufByte { s with agenda := rest } a = s.bufByte a := rfl

/-! ### The parameters are legal (R6) -/

theorem Config.log2Nmax_legal : 3 ≤ Config.log2Nmax ∧ Config.log2Nmax ≤ 13 := by
  have := Config.log2NmaxOver3.isLt
  unfold Config.log2Nmax
  omega

theorem Config.nch_legal : 1 ≤ Config.nch ∧ Config.nch ≤ 16 := by
  have := Config.nchLess1.isLt
  unfold Config.nch
  omega

theorem Config.base_legal : Config.base % 0x20000 = 0 := by
  unfold Config.base
  generalize Config.baseWindow = n
  exact Nat.mul_mod_left _ _

theorem State.reset_base : State.reset.base = Config.base := rfl
theorem State.reset_log2Nmax : State.reset.log2Nmax = Config.log2Nmax := rfl
@[simp] theorem State.nch_reset : State.reset.nch = Config.nch := List.length_replicate ..

theorem State.reset_base_legal : State.reset.base % 0x20000 = 0 :=
  Eq.subst (motive := fun n => n % 0x20000 = 0) State.reset_base.symm Config.base_legal

end Sys2Proof.Machine
end

