-- ==== Sys2Proof/Laws/Memory.lean ====
section
/-! SUPPORT. BUF's list of bytes: a read after a write, and the canonical form kept by every memory operation. -/

namespace Sys2Proof.Machine

/-! ### One byte -/

theorem Memory.find_insert_self (m : Memory) (a : Nat) (b : Byte) : (m.insert a b).find a = some b := by
  induction m with
  | nil => simp [Memory.insert, Memory.find]
  | cons c m ih =>
    obtain ⟨x, c⟩ := c
    simp only [Memory.insert]
    split
    · simp [Memory.find]
    · split
      · simp [Memory.find]
      · have : x ≠ a := by omega
        simp [Memory.find, this, ih]

theorem Memory.find_insert_ne (m : Memory) {a a' : Nat} (h : a' ≠ a) (b : Byte) :
    (m.insert a b).find a' = m.find a' := by
  induction m with
  | nil => simp [Memory.insert, Memory.find, h.symm]
  | cons c m ih =>
    obtain ⟨x, c⟩ := c
    simp only [Memory.insert]
    split
    · simp [Memory.find, h.symm]
    · split
      · subst_vars; simp [Memory.find, h.symm]
      · simp only [Memory.find]; split
        · rfl
        · exact ih

/-! ### The canonical form -/

/-- The canonical form says of a cell that its offset lies below the next one's. -/
theorem Memory.wf_cons (x : Nat) (b : Byte) (m : Memory) :
    Memory.wf ((x, b) :: m) = true ↔ (∀ y c m', m = (y, c) :: m' → x < y) ∧ Memory.wf m = true := by
  cases m with
  | nil => simp [Memory.wf]
  | cons c m => obtain ⟨y, c⟩ := c; simp [Memory.wf]

theorem Memory.wf_insert {m : Memory} (h : m.wf = true) (a : Nat) (b : Byte) : (m.insert a b).wf = true := by
  induction m with
  | nil => simp [Memory.insert, Memory.wf]
  | cons c m ih =>
    obtain ⟨x, c⟩ := c
    obtain ⟨hx, hm⟩ := (Memory.wf_cons x c m).1 h
    simp only [Memory.insert]
    split
    · rename_i hlt
      exact (Memory.wf_cons ..).2 ⟨fun y _ _ he => by cases he; exact hlt, h⟩
    · split
      · subst_vars; exact (Memory.wf_cons ..).2 ⟨hx, hm⟩
      · refine (Memory.wf_cons ..).2 ⟨fun y d m' he => ?_, ih hm⟩
        cases m with
        | nil => simp only [Memory.insert, List.cons.injEq, Prod.mk.injEq] at he; omega
        | cons e m =>
          obtain ⟨z, e⟩ := e
          have hz := hx z e m rfl
          simp only [Memory.insert] at he
          split at he
          · simp only [List.cons.injEq, Prod.mk.injEq] at he; omega
          · split at he <;> · simp only [List.cons.injEq, Prod.mk.injEq] at he; omega

/-- The offsets after an insert are the old ones and the new one. -/
theorem Memory.mem_insert {m : Memory} {a : Nat} {b : Byte} {cell : Host.Cell} (h : cell ∈ m.insert a b) :
    cell = (a, b) ∨ cell ∈ m := by
  induction m with
  | nil => simpa [Memory.insert] using h
  | cons c m ih =>
    obtain ⟨x, c⟩ := c
    simp only [Memory.insert] at h
    split at h
    · simpa using h
    · split at h
      · simp only [List.mem_cons] at h ⊢; tauto
      · simp only [List.mem_cons] at h ⊢
        rcases h with h | h
        · exact .inr (.inl h)
        · rcases ih h with h | h <;> tauto

/-! ### Words, entries -/

theorem Memory.wf_insertWord {m : Memory} (h : m.wf = true) (a : Nat) (w : Word) : (m.insertWord a w).wf = true :=
  Memory.wf_insert (Memory.wf_insert (Memory.wf_insert (Memory.wf_insert h _ _) _ _) _ _) _ _

theorem Memory.wf_insertEntry {m : Memory} (h : m.wf = true) (i : Nat) (x : Cplx) : (m.insertEntry i x).wf = true :=
  Memory.wf_insertWord (Memory.wf_insertWord h _ _) _ _

theorem Memory.wf_insertEntries {m : Memory} (h : m.wf = true) (i : Nat) (xs : List Cplx) :
    (m.insertEntries i xs).wf = true := by
  induction xs generalizing m i with
  | nil => exact h
  | cons x xs ih => exact ih (Memory.wf_insertEntry h i x) (i + 1)

/-- A word lists only its own four offsets. -/
theorem Memory.mem_insertWord {m : Memory} {a : Nat} {w : Word} {cell : Host.Cell} (h : cell ∈ m.insertWord a w) :
    (a ≤ cell.1 ∧ cell.1 < a + 4) ∨ cell ∈ m := by
  rcases Memory.mem_insert h with h | h
  · exact .inl (by simp [h])
  · rcases Memory.mem_insert h with h | h
    · exact .inl (by simp [h])
    · rcases Memory.mem_insert h with h | h
      · exact .inl (by simp [h])
      · rcases Memory.mem_insert h with h | h
        · exact .inl (by simp [h])
        · exact .inr h

/-- Entries i .. i+k-1 list only their own 8k offsets. -/
theorem Memory.mem_insertEntries {m : Memory} {i : Nat} {xs : List Cplx} {cell : Host.Cell}
    (h : cell ∈ m.insertEntries i xs) :
    (bufOffset i ≤ cell.1 ∧ cell.1 < bufOffset (i + xs.length)) ∨ cell ∈ m := by
  induction xs generalizing m i with
  | nil => exact .inr h
  | cons x xs ih =>
    simp only [bufOffset, List.length_cons] at ih ⊢
    rcases ih h with h | h
    · left; omega
    · rcases Memory.mem_insertWord h with h | h
      · simp only [bufOffset] at h; left; omega
      · rcases Memory.mem_insertWord h with h | h
        · simp only [bufOffset] at h; left; omega
        · exact .inr h

theorem Memory.find_insertWord_ne (m : Memory) {a a' : Nat} (h : a' < a ∨ a + 4 ≤ a') (w : Word) :
    (m.insertWord a w).find a' = m.find a' := by
  unfold Memory.insertWord
  rw [Memory.find_insert_ne _ (by omega), Memory.find_insert_ne _ (by omega), Memory.find_insert_ne _ (by omega),
    Memory.find_insert_ne _ (by omega)]

/-- Lane k of a word written at a is at offset a + k (R55). -/
theorem Memory.find_insertWord_lane (m : Memory) (a : Nat) (w : Word) :
    (m.insertWord a w).find a = some (w.extractLsb' 0 8) ∧
    (m.insertWord a w).find (a + 1) = some (w.extractLsb' 8 8) ∧
    (m.insertWord a w).find (a + 2) = some (w.extractLsb' 16 8) ∧
    (m.insertWord a w).find (a + 3) = some (w.extractLsb' 24 8) := by
  unfold Memory.insertWord
  refine ⟨?_, ?_, ?_, Memory.find_insert_self ..⟩
  · rw [Memory.find_insert_ne _ (by omega), Memory.find_insert_ne _ (by omega), Memory.find_insert_ne _ (by omega),
      Memory.find_insert_self]
  · rw [Memory.find_insert_ne _ (by omega), Memory.find_insert_ne _ (by omega), Memory.find_insert_self]
  · rw [Memory.find_insert_ne _ (by omega), Memory.find_insert_self]

theorem Memory.find_insertEntries_ne (m : Memory) (i : Nat) (xs : List Cplx) {a : Nat}
    (h : a < bufOffset i ∨ bufOffset (i + xs.length) ≤ a) : (m.insertEntries i xs).find a = m.find a := by
  induction xs generalizing m i with
  | nil => rfl
  | cons x xs ih =>
    simp only [bufOffset, List.length_cons] at h ih
    simp only [Memory.insertEntries, Memory.insertEntry]
    rw [ih _ _ (by omega), Memory.find_insertWord_ne _ (by simp only [bufOffset]; omega),
      Memory.find_insertWord_ne _ (by simp only [bufOffset]; omega)]

/-! ### Reading through State -/

/-- The four byte lanes make the word (R55). -/
theorem word_of_lanes (w : Word) :
    (w.extractLsb' 24 8 ++ w.extractLsb' 16 8 ++ w.extractLsb' 8 8 ++ w.extractLsb' 0 8 : BitVec 32) = w := by
  apply BitVec.eq_of_getLsbD_eq
  intro i hi
  simp only [BitVec.getLsbD_append, BitVec.getLsbD_extractLsb']
  interval_cases i <;> simp

theorem State.bufByte_of_find {s t : State} (he : t.epoch = s.epoch) {a : Nat}
    (h : Memory.find t.buf a = Memory.find s.buf a) : t.bufByte a = s.bufByte a := by
  unfold State.bufByte; rw [h, he]

/-- The word written at an offset is the word read there. -/
theorem State.bufWord_insertWord_self (s : State) (a : Nat) (w : Word) :
    ({ s with buf := s.buf.insertWord a w } : State).bufWord a = w := by
  obtain ⟨h0, h1, h2, h3⟩ := Memory.find_insertWord_lane s.buf a w
  simp only [State.bufWord, State.bufByte, h0, h1, h2, h3]
  exact word_of_lanes w

/-- A word elsewhere is left alone. -/
theorem State.bufWord_insertWord_ne (s : State) {a a' : Nat} (h : a' + 4 ≤ a ∨ a + 4 ≤ a') (w : Word) :
    ({ s with buf := s.buf.insertWord a w } : State).bufWord a' = s.bufWord a' := by
  simp only [State.bufWord, State.bufByte]
  rw [Memory.find_insertWord_ne _ (by omega), Memory.find_insertWord_ne _ (by omega),
    Memory.find_insertWord_ne _ (by omega), Memory.find_insertWord_ne _ (by omega)]

/-- A byte outside the first entries is left alone by `storeBuf`. -/
theorem State.bufByte_storeBuf_ne (s : State) (xs : List Cplx) {a : Nat}
    (h : a < bufOffset 0 ∨ bufOffset xs.length ≤ a) : (s.storeBuf xs).bufByte a = s.bufByte a :=
  State.bufByte_of_find (s := s) (t := s.storeBuf xs) rfl
    (Memory.find_insertEntries_ne s.buf 0 xs (by simpa using h))

/-- Entry i + k after writing xs from entry i on is xs[k]. -/
theorem State.bufEntry_insertEntries (s : State) (i k : Nat) (xs : List Cplx) (hk : k < xs.length) :
    ({ s with buf := s.buf.insertEntries i xs } : State).bufEntry (i + k) = xs[k] := by
  induction xs generalizing s i k with
  | nil => simp at hk
  | cons x xs ih =>
    cases k with
    | succ k =>
      have := ih { s with buf := s.buf.insertEntry i x } (i + 1) k (by simpa using hk)
      simpa [Memory.insertEntries, Nat.add_assoc, Nat.add_comm 1 k] using this
    | zero =>
      have hw : ∀ a, (a = bufOffset i ∨ a = bufOffset i + 4) →
          ({ s with buf := s.buf.insertEntries i (x :: xs) } : State).bufWord a =
            ({ s with buf := s.buf.insertEntry i x } : State).bufWord a := by
        intro a ha
        simp only [State.bufWord, State.bufByte, Memory.insertEntries]
        rw [Memory.find_insertEntries_ne _ _ _ (by simp only [bufOffset] at ha ⊢; omega),
          Memory.find_insertEntries_ne _ _ _ (by simp only [bufOffset] at ha ⊢; omega),
          Memory.find_insertEntries_ne _ _ _ (by simp only [bufOffset] at ha ⊢; omega),
          Memory.find_insertEntries_ne _ _ _ (by simp only [bufOffset] at ha ⊢; omega)]
      simp only [State.bufEntry, Nat.add_zero, List.getElem_cons_zero]
      rw [hw _ (.inl rfl), hw _ (.inr rfl)]
      have h1 := State.bufWord_insertWord_ne { s with buf := s.buf.insertWord (bufOffset i) x.re }
        (a := bufOffset i + 4) (a' := bufOffset i) (by omega) x.im
      have h2 := State.bufWord_insertWord_self { s with buf := s.buf.insertWord (bufOffset i) x.re } (bufOffset i + 4) x.im
      have h3 := State.bufWord_insertWord_self s (bufOffset i) x.re
      simp only [Memory.insertEntry] at *
      rw [h1, h2, h3]

@[simp] theorem State.length_loadBuf (s : State) (n : Nat) : (s.loadBuf n).length = n := by simp [State.loadBuf]

/-- What `storeBuf` wrote is what `loadBuf` reads. -/
theorem State.loadBuf_storeBuf (s : State) (xs : List Cplx) : (s.storeBuf xs).loadBuf xs.length = xs := by
  apply List.ext_getElem
  · simp
  · intro k h1 h2
    have h := State.bufEntry_insertEntries s 0 k xs h2
    rw [Nat.zero_add] at h
    simp only [State.loadBuf, List.getElem_map, List.getElem_range]
    exact h

end Sys2Proof.Machine
end

