-- ==== Sys2Proof/Laws/Bus.lean ====
section
/-! SUPPORT. The address map: which offsets address what, for legal parameters, and what a transaction can do. -/

namespace Sys2Proof.Machine

open Host (Outcome)

/-! ### The map and its ranges -/

theorem nmax_le {s : State} (h : s.log2Nmax ≤ 13) : s.nmax ≤ 8192 :=
  (Nat.pow_le_pow_right (by decide) h : 2 ^ s.log2Nmax ≤ 2 ^ 13)

/-- A mapped channel offset is a multiple of 4 up to 0x40 (R30). -/
theorem chanRegAt_isSome_iff (o : Nat) (h : o % 4 = 0) : (chanRegAt o).isSome = true ↔ o ≤ 0x40 := by
  constructor
  · intro hs
    by_contra hc
    have : chanRegAt o = none := by
      unfold chanRegAt
      split <;> first | omega | rfl
    simp [this] at hs
  · intro ho
    have : o = 0x00 ∨ o = 0x04 ∨ o = 0x08 ∨ o = 0x0C ∨ o = 0x10 ∨ o = 0x14 ∨ o = 0x18 ∨ o = 0x1C ∨ o = 0x20 ∨ o = 0x24 ∨
        o = 0x28 ∨ o = 0x2C ∨ o = 0x30 ∨ o = 0x34 ∨ o = 0x38 ∨ o = 0x3C ∨ o = 0x40 := by omega
    rcases this with h | h | h | h | h | h | h | h | h | h | h | h | h | h | h | h | h <;> subst h <;> rfl

theorem locate_low (s : State) {off : Nat} (h : off < 0x100) : s.locate off = lowReg off := if_pos h

/-- CH[c] at an offset in the channel (R53). -/
theorem locate_chan {s : State} (hn : s.nch ≤ 16) {c o : Nat} (hc : c < s.nch) (ho : o < 0x80) :
    s.locate (0x100 + 0x80 * c + o) =
      match chanRegAt o with
      | some r => .chan c r
      | none => .unmapped := by
  have h1 : (0x100 + 0x80 * c + o - 0x100) / 0x80 = c := by omega
  have h2 : (0x100 + 0x80 * c + o - 0x100) % 0x80 = o := by omega
  cases hr : chanRegAt o <;>
    simp only [State.locate, if_neg (by omega : ¬ 0x100 + 0x80 * c + o < 0x100),
      if_pos (by omega : 0x100 + 0x80 * c + o < 0x900), chanLoc, h1, h2, hr, if_pos hc]

/-- BUF[i].re (R54). -/
theorem locate_bufRe {s : State} (hp : s.log2Nmax ≤ 13) {i : Nat} (hi : i < s.nmax) :
    s.locate (bufOffset i) = .bufRe i := by
  have := nmax_le hp
  have h1 : (bufOffset i - 0x10000) / 8 = i := by simp only [bufOffset]; omega
  have h2 : (bufOffset i - 0x10000) % 8 < 4 := by simp only [bufOffset]; omega
  simp only [State.locate]
  rw [if_neg (by simp only [bufOffset]; omega), if_neg (by simp only [bufOffset]; omega),
    if_neg (by simp only [bufOffset]; omega), if_pos (by simp only [bufOffset]; omega)]
  simp only [bufLoc, h1, if_pos hi, if_pos h2]

/-- BUF[i].im (R54). -/
theorem locate_bufIm {s : State} (hp : s.log2Nmax ≤ 13) {i : Nat} (hi : i < s.nmax) :
    s.locate (bufOffset i + 4) = .bufIm i := by
  have := nmax_le hp
  have h1 : (bufOffset i + 4 - 0x10000) / 8 = i := by simp only [bufOffset]; omega
  have h2 : ¬ (bufOffset i + 4 - 0x10000) % 8 < 4 := by simp only [bufOffset]; omega
  simp only [State.locate]
  rw [if_neg (by simp only [bufOffset]; omega), if_neg (by simp only [bufOffset]; omega),
    if_neg (by simp only [bufOffset]; omega), if_pos (by simp only [bufOffset]; omega)]
  simp only [bufLoc, h1, if_pos hi, if_neg h2]

/-- Where an aligned offset of the window lies: the register block, a channel, BUF, or unmapped, with the location it has. -/
inductive OffsetCase (s : State) (off : Nat) : Prop
  | low (h : off < 0x100)
  | chan (c o : Nat) (r : ChanReg) (hc : c < s.nch) (ho : o ≤ 0x40) (ho4 : o % 4 = 0) (hr : chanRegAt o = some r)
      (he : off = 0x100 + 0x80 * c + o) (hl : s.locate off = .chan c r)
  | bufRe (i : Nat) (hi : i < s.nmax) (he : off = bufOffset i) (hl : s.locate off = .bufRe i)
  | bufIm (i : Nat) (hi : i < s.nmax) (he : off = bufOffset i + 4) (hl : s.locate off = .bufIm i)
  | unmapped (hl : s.locate off = .unmapped) (hlow : 0x100 ≤ off) (hc : ¬ isChanOffset s 0 0x40 off) (hb : ¬ isBufOffset s off)

theorem offsetCase {s : State} (hn : s.nch ≤ 16) (hp : s.log2Nmax ≤ 13) {off : Nat} (h4 : off % 4 = 0) :
    OffsetCase s off := by
  have hm := nmax_le hp
  by_cases h1 : off < 0x100
  · exact .low h1
  by_cases h2 : off < 0x900
  · have he : off = 0x100 + 0x80 * ((off - 0x100) / 0x80) + (off - 0x100) % 0x80 := by omega
    have ho4 : (off - 0x100) % 0x80 % 4 = 0 := by omega
    have hlt : (off - 0x100) % 0x80 < 0x80 := by omega
    generalize (off - 0x100) / 0x80 = c at he
    generalize (off - 0x100) % 0x80 = o at he ho4 hlt
    by_cases hc : c < s.nch
    · have hl := locate_chan hn hc hlt
      rw [← he] at hl
      cases hr : chanRegAt o with
      | some r =>
        refine .chan c o r hc ((chanRegAt_isSome_iff o ho4).1 (by simp [hr])) ho4 hr he (by simpa [hr] using hl)
      | none =>
        refine .unmapped (by simpa [hr] using hl) (by omega) ?_ ?_
        · rintro ⟨c', o', hc', _, ho', he'⟩
          obtain rfl : c' = c := by omega
          obtain rfl : o' = o := by omega
          have := (chanRegAt_isSome_iff o' ho4).2 ho'
          simp [hr] at this
        · rintro ⟨h, _⟩; omega
    · refine .unmapped ?_ (by omega) ?_ ?_
      · have hc' : (off - 0x100) / 0x80 = c := by omega
        simp only [State.locate, if_neg h1, if_pos h2, chanLoc, hc', if_neg hc]
      · rintro ⟨c', o', hc', _, ho', he'⟩; omega
      · rintro ⟨h, _⟩; omega
  by_cases h3 : off < 0x10000
  · refine .unmapped ?_ (by omega) ?_ ?_
    · simp only [State.locate, if_neg h1, if_neg h2, if_pos h3]
    · rintro ⟨c', o', hc', _, ho', he'⟩; omega
    · rintro ⟨h, _⟩; omega
  by_cases hi : (off - 0x10000) / 8 < s.nmax
  · rcases (by omega : off = 0x10000 + 8 * ((off - 0x10000) / 8) ∨ off = 0x10000 + 8 * ((off - 0x10000) / 8) + 4) with he | he
    · exact .bufRe _ hi he ((congrArg s.locate he).trans (locate_bufRe hp hi))
    · exact .bufIm _ hi he ((congrArg s.locate he).trans (locate_bufIm hp hi))
  · refine .unmapped ?_ (by omega) ?_ ?_
    · simp only [State.locate, if_neg h1, if_neg h2, if_neg h3, bufLoc, if_neg hi, ite_self]
    · rintro ⟨c', o', hc', _, ho', he'⟩; omega
    · rintro ⟨h, hlt⟩; omega

/-- The register block below 0x100, by offset (R52). -/
theorem lowReg_dataSet (off : Nat) (h4 : off % 4 = 0) : (lowReg off).dataSet = true ↔ 0x20 ≤ off ∧ off < 0x38 := by
  unfold lowReg
  split <;> simp [Loc.dataSet]
  simp only [imp_false] at *
  omega

theorem lowReg_cmd (off : Nat) : lowReg off = .cmd ↔ off = 0x08 := by
  unfold lowReg
  split <;> simp
  assumption

/-- R65's data set, as the model's locations and as ranges of offsets. -/
theorem dataSet_iff {s : State} (hn : s.nch ≤ 16) (hp : s.log2Nmax ≤ 13) {off : Nat} (h4 : off % 4 = 0) :
    (s.locate off).dataSet = true ↔ isDataSetOffset s off := by
  unfold isDataSetOffset
  cases offsetCase hn hp h4 with
  | low h =>
    rw [locate_low s h, lowReg_dataSet off h4]
    refine ⟨.inl, ?_⟩
    rintro (h' | ⟨c, o, _, _, _, he⟩ | ⟨hb, _⟩)
    · exact h'
    · omega
    · omega
  | chan c o r hc ho ho4 hr he hl =>
    rw [hl]
    exact ⟨fun _ => .inr (.inl ⟨c, o, hc, Nat.zero_le o, ho, he⟩), fun _ => rfl⟩
  | bufRe i hi he hl =>
    rw [hl]
    refine ⟨fun _ => .inr (.inr ⟨?_, ?_⟩), fun _ => rfl⟩ <;> simp only [bufOffset] at he <;> omega
  | bufIm i hi he hl =>
    rw [hl]
    refine ⟨fun _ => .inr (.inr ⟨?_, ?_⟩), fun _ => rfl⟩ <;> simp only [bufOffset] at he <;> omega
  | unmapped hl hlow hc hb =>
    rw [hl]
    refine ⟨fun h => by simp [Loc.dataSet] at h, ?_⟩
    rintro (h' | h' | h')
    · omega
    · exact absurd h' hc
    · exact absurd h' hb

/-- CMD is at offset 8 only. -/
theorem locate_eq_cmd_iff (s : State) (off : Nat) : s.locate off = .cmd ↔ off = 0x08 := by
  by_cases h : off < 0x100
  · rw [locate_low s h, lowReg_cmd]
  · refine ⟨fun hl => ?_, fun h' => by omega⟩
    simp only [State.locate, if_neg h, chanLoc, bufLoc] at hl
    repeat' split at hl
    all_goals exact absurd hl (by simp)

/-- What a write may not touch while BUSY = 1 (R65), as ranges of offsets. -/
theorem guarded_iff {s : State} (hn : s.nch ≤ 16) (hp : s.log2Nmax ≤ 13) {off : Nat} (h4 : off % 4 = 0) :
    (s.locate off).guarded = true ↔ off = 0x08 ∨ isDataSetOffset s off := by
  rw [Loc.guarded, Bool.or_eq_true, dataSet_iff hn hp h4, beq_iff_eq, locate_eq_cmd_iff, or_comm]

/-- An offset outside R52's map has no location. -/
theorem locate_unmapped {s : State} (hn : s.nch ≤ 16) (hp : s.log2Nmax ≤ 13) {off : Nat} (h4 : off % 4 = 0)
    (h : ¬ isMappedOffset s off) : s.locate off = .unmapped := by
  unfold isMappedOffset isDataSetOffset at h
  cases offsetCase hn hp h4 with
  | low hl =>
    rw [locate_low s hl]
    unfold lowReg
    split <;> first | rfl | (exfalso; omega)
  | chan c o r hc ho ho4 hr he hl => exact absurd (.inr (.inr (.inl ⟨c, o, hc, Nat.zero_le o, ho, he⟩))) h
  | bufRe i hi he hl =>
    refine absurd (.inr (.inr (.inr ⟨?_, ?_⟩))) h <;> simp only [bufOffset] at he <;> omega
  | bufIm i hi he hl =>
    refine absurd (.inr (.inr (.inr ⟨?_, ?_⟩))) h <;> simp only [bufOffset] at he <;> omega
  | unmapped hl => exact hl

/-! ### Transactions -/

/-- What a transaction can do (R51, R56). -/
theorem transaction_cases (addr : Nat) (size : AccessSize) (act : Nat → State) (s : State) :
    (s.inWindow addr = false ∧ transaction addr size act s = .next s) ∨
    (s.inWindow addr = true ∧ size ≠ .four ∧ transaction addr size act s = .refused .narrowAccess) ∨
    (s.inWindow addr = true ∧ size = .four ∧ addr % 4 ≠ 0 ∧ transaction addr size act s = .refused .misalignedAccess) ∨
    (s.inWindow addr = true ∧ size = .four ∧ addr % 4 = 0 ∧ transaction addr size act s = .next (act (addr - s.base))) := by
  unfold transaction
  cases hw : s.inWindow addr
  · exact .inl ⟨rfl, by simp⟩
  · by_cases h1 : size = .four
    · by_cases h2 : addr % 4 = 0
      · exact .inr (.inr (.inr ⟨rfl, h1, h2, by simp [h1, h2]⟩))
      · exact .inr (.inr (.inl ⟨rfl, h1, h2, by simp [h1, h2]⟩))
    · exact .inr (.inl ⟨rfl, h1, by simp [h1]⟩)

theorem inWindow_iff (s : State) (addr : Nat) : s.inWindow addr = true ↔ s.base ≤ addr ∧ addr < s.base + 0x20000 := by
  simp [State.inWindow]

/-- An aligned 32-bit access at an offset of the window is performed. -/
theorem transaction_at {s : State} {off : Nat} (h : off < 0x20000) (h4 : (s.base + off) % 4 = 0) (act : Nat → State) :
    transaction (s.base + off) .four act s = .next (act off) := by
  have hw : s.inWindow (s.base + off) = true := (inWindow_iff s _).2 ⟨by omega, by omega⟩
  simp [transaction, hw, h4]

/-! ### Reads and writes -/

theorem busRead_of_idle {s : State} (h : s.status.busy = false) (off : Nat) :
    s.busRead off = { s with rdata := s.readLoc (s.locate off) } := by
  simp [State.busRead, h]

theorem busWrite_of_idle {s : State} (h : s.status.busy = false) (off : Nat) (w : Word) :
    s.busWrite off w = s.writeLoc w (s.locate off) := by
  simp [State.busWrite, h]

/-- A read changes HOST's word and the count of draws only (R59). -/
theorem busRead_eq (s : State) (off : Nat) : ∃ v d, s.busRead off = { s with rdata := v, draws := d } := by
  unfold State.busRead
  split
  · exact ⟨_, _, rfl⟩
  · exact ⟨_, s.draws, rfl⟩

/-- Everything a bus write can do. -/
inductive WriteEffect (s : State) (off : Nat) (w : Word) : State → Prop
  /-- dropped while BUSY = 1 (R65) -/
  | dropped (hb : s.status.busy = true) (hg : (s.locate off).guarded = true) : WriteEffect s off w s.setBusyErr
  /-- acceptance (R188) -/
  | accept (hb : s.status.busy = false) (ho : off = 0x08) : WriteEffect s off w (s.accept w)
  /-- acknowledgement (R191) -/
  | status (ho : off = 0x0C) : WriteEffect s off w { s with status := s.status.write w }
  /-- interrupt enables (R27) -/
  | ctrl (ho : off = 0x10) : WriteEffect s off w { s with ctrl := Ctrl.ofWord w }
  /-- OPA -/
  | opA (hb : s.status.busy = false) (x : Cplx) : WriteEffect s off w { s with opA := x }
  /-- OPB -/
  | opB (hb : s.status.busy = false) (x : Cplx) : WriteEffect s off w { s with opB := x }
  /-- a channel register -/
  | chan (hb : s.status.busy = false) (c : Nat) (r : ChanReg) (hl : s.locate off = .chan c r) (hc : c < s.nch) :
      WriteEffect s off w (s.setChan c ((s.chan c).write w r))
  /-- a word of BUF -/
  | buf (hb : s.status.busy = false) (i a : Nat) (hi : i < s.nmax) (ha : a = bufOffset i ∨ a = bufOffset i + 4)
      (ho : off / 4 * 4 = a) : WriteEffect s off w { s with buf := s.buf.insertWord a w }
  /-- unmapped or read-only (R57, R58) -/
  | ignored : WriteEffect s off w s

theorem busWrite_effect (s : State) (off : Nat) (w : Word) : WriteEffect s off w (s.busWrite off w) := by
  unfold State.busWrite
  split
  · rename_i h
    rw [Bool.and_eq_true] at h
    exact .dropped h.1 h.2
  · rename_i h
    rw [Bool.and_eq_true, not_and] at h
    have hb : (s.locate off).guarded = true → s.status.busy = false := fun hg => by
      cases hbz : s.status.busy
      · rfl
      · exact absurd hg (h hbz)
    by_cases h1 : off < 0x100
    · rw [locate_low s h1] at hb ⊢
      unfold lowReg at hb ⊢
      split at hb <;> simp only [State.writeLoc]
      · exact .ignored
      · exact .ignored
      · exact .accept (hb rfl) rfl
      · exact .status rfl
      · exact .ctrl rfl
      · exact .opA (hb rfl) _
      · exact .opA (hb rfl) _
      · exact .opB (hb rfl) _
      · exact .opB (hb rfl) _
      · exact .ignored
      · exact .ignored
      · exact .ignored
    by_cases h2 : off < 0x900
    · have hl : s.locate off = chanLoc s.nch off := by simp only [State.locate, if_neg h1, if_pos h2]
      rw [hl] at hb ⊢
      unfold chanLoc at hl hb ⊢
      by_cases hc : (off - 0x100) / 0x80 < s.nch
      · rw [if_pos hc] at hl hb ⊢
        cases hr : chanRegAt ((off - 0x100) % 0x80) with
        | some r => rw [hr] at hl hb; exact .chan (hb rfl) _ r hl hc
        | none => exact .ignored
      · rw [if_neg hc]; exact .ignored
    by_cases h3 : off < 0x10000
    · have hl : s.locate off = .unmapped := by simp only [State.locate, if_neg h1, if_neg h2, if_pos h3]
      rw [hl]; exact .ignored
    by_cases h4 : off < 0x20000
    · have hl : s.locate off = bufLoc s.nmax off := by simp only [State.locate, if_neg h1, if_neg h2, if_neg h3, if_pos h4]
      rw [hl] at hb ⊢
      unfold bufLoc at hb ⊢
      by_cases hi : (off - 0x10000) / 8 < s.nmax
      · rw [if_pos hi] at hb ⊢
        by_cases hlo : (off - 0x10000) % 8 < 4
        · rw [if_pos hlo] at hb ⊢
          exact .buf (hb rfl) _ _ hi (.inl rfl) (by simp only [bufOffset]; omega)
        · rw [if_neg hlo] at hb ⊢
          exact .buf (hb rfl) _ _ hi (.inr rfl) (by simp only [bufOffset]; omega)
      · rw [if_neg hi]; exact .ignored
    · have hl : s.locate off = .unmapped := by simp only [State.locate, if_neg h1, if_neg h2, if_neg h3, if_neg h4]
      rw [hl]; exact .ignored

/-- A write to a channel register leaves the read-only ones alone (R58). -/
theorem Channel.write_readOnly (ch : Channel) (w : Word) (r : ChanReg) :
    (ch.write w r).valid = ch.valid ∧ (ch.write w r).kind = ch.kind ∧ (ch.write w r).yOut = ch.yOut ∧
    (ch.write w r).a1 = ch.a1 ∧ (ch.write w r).a2 = ch.a2 ∧ (ch.write w r).b0 = ch.b0 ∧ (ch.write w r).b1 = ch.b1 ∧
    (ch.write w r).b2 = ch.b2 ∧ (ch.write w r).mq = ch.mq ∧ (ch.write w r).nq = ch.nq ∧
    (ch.write w r).uOld0 = ch.uOld0 ∧ (ch.write w r).uOld1 = ch.uOld1 ∧ (ch.write w r).yOld0 = ch.yOld0 ∧
    (ch.write w r).yOld1 = ch.yOld1 := by
  cases r <;> simp [Channel.write]

end Sys2Proof.Machine
end

