-- ==== Sys2Proof/Laws/Decode.lean ====
section
/-! SUPPORT. A command word and its fields determine each other (30_encoding.md R70, R71). -/

namespace Sys2Proof

/-- The fields of a word made of fields are those fields. -/
@[simp] theorem fieldsOf_wordOf (f : Fields) : fieldsOf (wordOf f) = f := by
  obtain ⟨op, ch, rsv, nlen⟩ := f
  simp only [fieldsOf, wordOf, Fields.mk.injEq]
  refine ⟨?_, ?_, ?_, ?_⟩ <;>
  · apply BitVec.eq_of_getLsbD_eq
    intro i hi
    simp only [BitVec.getLsbD_extractLsb', BitVec.getLsbD_append]
    interval_cases i <;> simp

/-- A word is made of its fields. -/
@[simp] theorem wordOf_fieldsOf (w : Word) : wordOf (fieldsOf w) = w := by
  apply BitVec.eq_of_getLsbD_eq
  intro i hi
  simp only [fieldsOf, wordOf, BitVec.getLsbD_extractLsb', BitVec.getLsbD_append]
  interval_cases i <;> simp

/-- A field of an operand that fits holds it. -/
theorem toNat_lengthField {n : Nat} (h : lengthFits n = true) : (BitVec.ofNat 16 n).toNat = n := by
  simpa [lengthFits] using h

theorem toNat_channelField {c : Nat} (h : channelFits c = true) : (BitVec.ofNat 4 c).toNat = c := by
  simpa [channelFits] using h

/-- What the three forms answer (R73). -/
theorem complexForm_eq_ok {f : Fields} {i j : Instr} :
    complexForm f i = .ok j ↔ (f.ch = 0 ∧ f.rsv = 0 ∧ f.nlen = 0) ∧ i = j := by
  unfold complexForm
  split <;> simp_all

theorem fftForm_eq_ok {f : Fields} {mk : Nat → Instr} {j : Instr} :
    fftForm f mk = .ok j ↔ (f.ch = 0 ∧ f.rsv = 0) ∧ mk f.nlen.toNat = j := by
  unfold fftForm
  split <;> simp_all

theorem filterForm_eq_ok {f : Fields} {mk : Nat → Instr} {j : Instr} :
    filterForm f mk = .ok j ↔ (f.rsv = 0 ∧ f.nlen = 0) ∧ mk f.ch.toNat = j := by
  unfold filterForm
  split <;> simp_all

end Sys2Proof
end

