-- ==== Sys2Proof/Laws/Fft.lean ====
section
/-! SUPPORT. The FFT engine's building blocks: lengths, the entries of a butterfly, of an interleave and of a swap. -/

namespace Sys2Proof.Machine

variable (tw : TwiddleFn)

/-- A butterfly on a block of its own even length keeps the length. -/
theorem length_butterfly (h : Nat) (xs : List Cplx) (hx : xs.length = 2 * h) :
    (butterfly tw (2 * h) xs).length = 2 * h := by
  simp only [butterfly, List.length_append, List.length_zipWith, List.length_take, List.length_drop, List.length_range,
    Nat.mul_div_cancel_left h (by decide : 0 < 2)]
  omega

/-- The entries of a butterfly (R142). -/
theorem getElem_butterfly (h : Nat) (xs : List Cplx) (hx : xs.length = 2 * h) (i : Nat) (hi : i < h) :
    (butterfly tw (2 * h) xs)[i]? = some (cadd (xs.getD i default) (xs.getD (h + i) default)) ∧
    (butterfly tw (2 * h) xs)[h + i]? =
      some (cmul (tw i (2 * h)) (csub (xs.getD i default) (xs.getD (h + i) default))) := by
  have h1 : i < xs.length := by omega
  have h2 : h + i < xs.length := by omega
  have hl : (List.zipWith cadd (xs.take h) (xs.drop h)).length = h := by
    simp only [List.length_zipWith, List.length_take, List.length_drop]; omega
  simp only [butterfly, Nat.mul_div_cancel_left h (by decide : 0 < 2), List.getD_eq_getElem?_getD]
  constructor
  · rw [List.getElem?_append_left (by omega)]
    simp [List.getElem?_zipWith, hi, h1, h2]
  · rw [List.getElem?_append_right (by omega), hl, Nat.add_sub_cancel_left]
    simp [List.getElem?_zipWith, hi, h1, h2]

theorem length_interleave (xs ys : List Cplx) (h : xs.length = ys.length) :
    (interleave xs ys).length = xs.length + ys.length := by
  induction xs generalizing ys with
  | nil => cases ys with
    | nil => rfl
    | cons => simp at h
  | cons x xs ih => cases ys with
    | nil => simp at h
    | cons y ys =>
      have := ih ys (by simpa using h)
      simp only [interleave, List.length_cons]; omega

/-- F[2i] = f[i], F[2i+1] = f[n+i] (R146). -/
theorem getElem_interleave (xs ys : List Cplx) (h : xs.length = ys.length) (i : Nat) :
    (interleave xs ys)[2 * i]? = xs[i]? ∧ (interleave xs ys)[2 * i + 1]? = ys[i]? := by
  induction xs generalizing ys i with
  | nil => cases ys with
    | nil => simp [interleave]
    | cons => simp at h
  | cons x xs ih => cases ys with
    | nil => simp at h
    | cons y ys =>
      cases i with
      | zero => simp [interleave]
      | succ i =>
        have := ih ys (by simpa using h) i
        simpa [interleave, Nat.mul_add] using this

@[simp] theorem length_swapEntries (xs : List Cplx) (j i : Nat) : (swapEntries xs j i).length = xs.length := by
  simp [swapEntries]

@[simp] theorem length_bitrevPass (n : Nat) (xs : List Cplx) : (bitrevPass n xs).length = xs.length := by
  unfold bitrevPass
  suffices ∀ (js : List Nat) (st : Nat × List Cplx), (js.foldl (bitrevIteration n) st).2.length = st.2.length from
    this _ _
  intro js
  induction js with
  | nil => intro st; rfl
  | cons j js ih =>
    intro st
    rw [List.foldl_cons, ih]
    simp only [bitrevIteration]
    split <;> simp

@[simp] theorem length_dft (n : Nat) (xs : List Cplx) : (dft tw n xs).length = n := by simp [dft]

theorem length_fftRs (p : Nat) (xs : List Cplx) (hx : xs.length = 2 ^ p) : (fftRs tw p xs).length = 2 ^ p := by
  induction p generalizing xs with
  | zero => simpa [fftRs] using hx
  | succ p ih =>
    have hb : (butterfly tw (2 ^ (p + 1)) xs).length = 2 ^ (p + 1) := by
      rw [Nat.pow_succ', length_butterfly _ _ _ (by rw [hx, Nat.pow_succ'])]
    have h1 := ih ((butterfly tw (2 ^ (p + 1)) xs).take (2 ^ p)) (by
      rw [List.length_take, hb, Nat.pow_succ]; omega)
    have h2 := ih ((butterfly tw (2 ^ (p + 1)) xs).drop (2 ^ p)) (by
      rw [List.length_drop, hb, Nat.pow_succ]; omega)
    simp only [fftRs]
    rw [length_interleave _ _ (by rw [h1, h2]), h1, h2, Nat.pow_succ]; omega

theorem length_fftRbCore (p : Nat) (xs : List Cplx) (hx : xs.length = 2 ^ p) : (fftRbCore tw p xs).length = 2 ^ p := by
  induction p generalizing xs with
  | zero => simpa [fftRbCore] using hx
  | succ p ih =>
    have hb : (butterfly tw (2 ^ (p + 1)) xs).length = 2 ^ (p + 1) := by
      rw [Nat.pow_succ', length_butterfly _ _ _ (by rw [hx, Nat.pow_succ'])]
    have h1 := ih ((butterfly tw (2 ^ (p + 1)) xs).take (2 ^ p)) (by
      rw [List.length_take, hb, Nat.pow_succ]; omega)
    have h2 := ih ((butterfly tw (2 ^ (p + 1)) xs).drop (2 ^ p)) (by
      rw [List.length_drop, hb, Nat.pow_succ]; omega)
    simp only [fftRbCore, List.length_append]
    rw [h1, h2, Nat.pow_succ]; omega

theorem length_fftRb (p : Nat) (xs : List Cplx) (hx : xs.length = 2 ^ p) : (fftRb tw (2 ^ p) xs).length = 2 ^ p := by
  rw [fftRb, length_bitrevPass, Nat.log2_two_pow, length_fftRbCore _ _ _ hx]

/-- A stage of FFT_IT keeps the length: 2^s segments of length 2^(p-s), each of even length (s < p). -/
theorem length_itStage (p s : Nat) (hs : s < p) (xs : List Cplx) (hx : xs.length = 2 ^ p) :
    (itStage tw (2 ^ p) xs s).length = 2 ^ p := by
  obtain ⟨q, rfl⟩ : ∃ q, p = s + (q + 1) := ⟨p - s - 1, by omega⟩
  have hl : 2 ^ (s + (q + 1)) / 2 ^ s = 2 ^ (q + 1) := by
    rw [Nat.pow_add, Nat.mul_div_cancel_left _ (Nat.two_pow_pos s)]
  simp only [itStage, hl, List.length_flatMap]
  rw [List.map_congr_left (g := fun _ => 2 ^ (q + 1)) (fun g hg => ?_)]
  · rw [List.map_const', List.sum_replicate, List.length_range, smul_eq_mul, ← Nat.pow_add]
  · have hg' : g < 2 ^ s := List.mem_range.1 hg
    have hgl : (g + 1) * 2 ^ (q + 1) ≤ 2 ^ s * 2 ^ (q + 1) := Nat.mul_le_mul_right _ hg'
    have hx' : xs.length = 2 ^ s * 2 ^ (q + 1) := by rw [hx, Nat.pow_add]
    have h2 : 2 ^ (q + 1) = 2 * 2 ^ q := Nat.pow_succ'
    rw [Nat.add_mul] at hgl
    simp only [h2] at hx' hgl ⊢
    refine length_butterfly tw _ _ ?_
    rw [List.length_take, List.length_drop, hx']
    omega

theorem length_fftIt (p : Nat) (xs : List Cplx) (hx : xs.length = 2 ^ p) : (fftIt tw (2 ^ p) xs).length = 2 ^ p := by
  rw [fftIt, length_bitrevPass, Nat.log2_two_pow]
  suffices ∀ k, k ≤ p → ((List.range k).foldl (itStage tw (2 ^ p)) xs).length = 2 ^ p from this p le_rfl
  intro k
  induction k with
  | zero => intro _; simpa using hx
  | succ k ih =>
    intro hk
    rw [List.range_succ, List.foldl_append]
    exact length_itStage tw p k hk _ (ih (by omega))

end Sys2Proof.Machine
end

