-- ==== Sys2Proof/Laws/Exec.lean ====
section
/-! SUPPORT. What a command can do, said once: the operand forms, and exec over all commands. -/

namespace Sys2Proof.Machine

open Host (Outcome)

/-! ### The length rules (R141) -/

theorem anyLengthOk_iff (s : State) (n : Nat) : anyLengthOk s n = true ↔ 1 ≤ n ∧ n ≤ s.nmax := by
  simp [anyLengthOk]

theorem powerLengthOk_iff (s : State) (n : Nat) : powerLengthOk s n = true ↔ ∃ p, p ≤ s.log2Nmax ∧ n = 2 ^ p := by
  simp only [powerLengthOk, Bool.and_eq_true, decide_eq_true_eq, List.any_eq_true, List.mem_range, beq_iff_eq]
  refine ⟨fun ⟨_, p, hp, h⟩ => ⟨p, by omega, h⟩, fun ⟨p, hp, h⟩ => ⟨?_, p, by omega, h⟩⟩
  rw [h]
  exact Nat.one_le_two_pow

/-- A legal length fits the buffer. -/
theorem le_nmax_of_powerLengthOk {s : State} {n : Nat} (h : powerLengthOk s n = true) : n ≤ s.nmax := by
  obtain ⟨p, hp, rfl⟩ := (powerLengthOk_iff s n).1 h
  exact Nat.pow_le_pow_right (by decide) hp

/-! ### The operand forms -/

theorem bufferCommand_next {ok : Bool} {n : Nat} {f : List Cplx → List Cplx} {s t : State}
    (h : bufferCommand ok n f s = .next t) :
    (ok = true ∧ t = (s.storeBuf (f (s.loadBuf n))).complete .noError) ∨ (ok = false ∧ t = s.complete .badLength) := by
  cases ok
  · exact .inr ⟨rfl, by simpa [bufferCommand, raiseError, eq_comm] using h⟩
  · exact .inl ⟨rfl, by simpa [bufferCommand, finish, eq_comm] using h⟩

theorem channelCommand_of_lt {c : Nat} {s : State} (h : c < s.nch) (f : Channel → State → Outcome State Fault Refusal) :
    channelCommand c f s = f (s.chan c) s := if_pos h

theorem channelCommand_of_le {c : Nat} {s : State} (h : s.nch ≤ c) (f : Channel → State → Outcome State Fault Refusal) :
    channelCommand c f s = .next (s.complete .badChannel) := if_neg (by omega)

theorem bufferCommand_ok {n : Nat} {f : List Cplx → List Cplx} {s : State} :
    bufferCommand true n f s = .next ((s.storeBuf (f (s.loadBuf n))).complete .noError) := rfl

theorem bufferCommand_not_ok {n : Nat} {f : List Cplx → List Cplx} {s : State} :
    bufferCommand false n f s = .next (s.complete .badLength) := rfl

/-- A construction on a channel c < NCH (R111). -/
theorem construct_of_lt {kind : Kind} {coeffs : Channel → Coeffs} {c : Nat} {s : State} (h : c < s.nch) :
    construct kind coeffs c s =
      .next ((s.setChan c ((s.chan c).configure kind (coeffs (s.chan c)))).complete .noError) := channelCommand_of_lt h _

/-- A construction on a channel c >= NCH (R183). -/
theorem construct_of_le {kind : Kind} {coeffs : Channel → Coeffs} {c : Nat} {s : State} (h : s.nch ≤ c) :
    construct kind coeffs c s = .next (s.complete .badChannel) := channelCommand_of_le h _

/-- FAPPLY on a constructed channel (R116). -/
theorem execFapply_of_valid {c : Nat} {s : State} (h : c < s.nch) (hv : (s.chan c).valid = true) :
    execFapply c s = .next ((s.setChan c (s.chan c).step).complete .noError) := by
  rw [execFapply, channelCommand_of_lt h, if_pos hv, finish]

/-- FAPPLY on a channel never constructed (R185). -/
theorem execFapply_of_not_valid {c : Nat} {s : State} (h : c < s.nch) (hv : (s.chan c).valid = false) :
    execFapply c s = .next (s.complete .notConfigured) := by
  rw [execFapply, channelCommand_of_lt h, if_neg (by simp [hv]), raiseError]

/-- FAPPLY on a channel c >= NCH (R183). -/
theorem execFapply_of_le {c : Nat} {s : State} (h : s.nch ≤ c) : execFapply c s = .next (s.complete .badChannel) :=
  channelCommand_of_le h _

/-! ### exec -/

/-- The commands that act on BUF, with their length. -/
def isFftOf (i : Instr) (n : Nat) : Prop := i = .fftDft n ∨ i = .fftRs n ∨ i = .fftRb n ∨ i = .fftIt n ∨ i = .bitrev n

/-- The construction of a kind on a channel. -/
def constructionOf (c : Nat) : Kind → Instr
  | .lpf1 => .fcfgLpf1 c
  | .hpf1 => .fcfgHpf1 c
  | .lpf2 => .fcfgLpf2 c
  | .hpf2 => .fcfgHpf2 c

/-- The coefficients of a kind. -/
def coeffsOf : Kind → Channel → Coeffs
  | .lpf1 => lpf1Coeffs
  | .hpf1 => hpf1Coeffs
  | .lpf2 => lpf2Coeffs
  | .hpf2 => hpf2Coeffs

theorem exec_constructionOf (c : Nat) (kind : Kind) (s : State) :
    exec (constructionOf c kind) s = construct kind (coeffsOf kind) c s := by cases kind <;> rfl

/-- Everything a command can do to the state. -/
inductive ExecEffect (i : Instr) (s : State) : State → Prop
  /-- a command error: STATUS only -/
  | error (code : ErrCode) (hc : code ≠ .noError) : ExecEffect i s (s.complete code)
  /-- a complex command: RES -/
  | complex (x : Cplx) (hi : classOf i = .complex) : ExecEffect i s ((s.setRes x).complete .noError)
  /-- an FFT command of length n: the first n entries of BUF -/
  | buffer (n : Nat) (xs : List Cplx) (hi : isFftOf i n) (hl : xs.length = n) (hn : n ≤ s.nmax) :
      ExecEffect i s ((s.storeBuf xs).complete .noError)
  /-- a construction of channel c -/
  | construct (c : Nat) (kind : Kind) (hi : i = constructionOf c kind) (hc : c < s.nch) :
      ExecEffect i s ((s.setChan c ((s.chan c).configure kind (coeffsOf kind (s.chan c)))).complete .noError)
  /-- a filter step of channel c -/
  | apply (c : Nat) (hi : i = .fapply c) (hc : c < s.nch) (hv : (s.chan c).valid = true) :
      ExecEffect i s ((s.setChan c (s.chan c).step).complete .noError)

/-- An FFT command whose transform keeps the length of what it reads. -/
theorem bufferCommand_effect {i : Instr} {ok : Bool} {n : Nat} {f : List Cplx → List Cplx} {s : State}
    (hi : isFftOf i n) (hl : ok = true → (f (s.loadBuf n)).length = n) (hn : ok = true → n ≤ s.nmax) :
    ∃ t, bufferCommand ok n f s = .next t ∧ ExecEffect i s t := by
  cases ok
  · exact ⟨_, rfl, .error _ (by decide)⟩
  · exact ⟨_, rfl, .buffer n _ hi (hl rfl) (hn rfl)⟩

theorem construct_effect {c : Nat} {kind : Kind} {s : State} :
    ∃ t, construct kind (coeffsOf kind) c s = .next t ∧ ExecEffect (constructionOf c kind) s t := by
  by_cases h : c < s.nch
  · exact ⟨_, channelCommand_of_lt h _, .construct c kind rfl h⟩
  · exact ⟨_, channelCommand_of_le (by omega) _, .error _ (by decide)⟩

/-- The lengths of the four power-of-two transforms. -/
theorem length_of_powerLengthOk {s : State} {n : Nat} (h : powerLengthOk s n = true) :
    (fftRs twiddle (Nat.log2 n) (s.loadBuf n)).length = n ∧ (fftRb twiddle n (s.loadBuf n)).length = n ∧
    (fftIt twiddle n (s.loadBuf n)).length = n := by
  obtain ⟨p, _, rfl⟩ := (powerLengthOk_iff s n).1 h
  rw [Nat.log2_two_pow]
  exact ⟨length_fftRs _ _ _ (by simp), length_fftRb _ _ _ (by simp), length_fftIt _ _ _ (by simp)⟩

/-- Every command completes, with one of the effects above. -/
theorem exec_effect (i : Instr) (s : State) : ∃ t, exec i s = .next t ∧ ExecEffect i s t := by
  cases i with
  | cadd => exact ⟨_, rfl, .complex _ rfl⟩
  | csub => exact ⟨_, rfl, .complex _ rfl⟩
  | cmul => exact ⟨_, rfl, .complex _ rfl⟩
  | cpolar => exact ⟨_, rfl, .complex _ rfl⟩
  | fftDft n =>
    exact bufferCommand_effect (.inl rfl) (fun _ => length_dft ..) (fun h => ((anyLengthOk_iff s n).1 h).2)
  | fftRs n =>
    exact bufferCommand_effect (.inr (.inl rfl)) (fun h => (length_of_powerLengthOk h).1) le_nmax_of_powerLengthOk
  | fftRb n =>
    exact bufferCommand_effect (.inr (.inr (.inl rfl))) (fun h => (length_of_powerLengthOk h).2.1) le_nmax_of_powerLengthOk
  | fftIt n =>
    exact bufferCommand_effect (.inr (.inr (.inr (.inl rfl)))) (fun h => (length_of_powerLengthOk h).2.2)
      le_nmax_of_powerLengthOk
  | bitrev n =>
    exact bufferCommand_effect (.inr (.inr (.inr (.inr rfl)))) (fun _ => by simp) le_nmax_of_powerLengthOk
  | fcfgLpf1 c => exact construct_effect (kind := .lpf1)
  | fcfgHpf1 c => exact construct_effect (kind := .hpf1)
  | fcfgLpf2 c => exact construct_effect (kind := .lpf2)
  | fcfgHpf2 c => exact construct_effect (kind := .hpf2)
  | fapply c =>
    by_cases h : c < s.nch
    · cases hv : (s.chan c).valid with
      | true => exact ⟨_, execFapply_of_valid h hv, .apply c rfl h hv⟩
      | false => exact ⟨_, execFapply_of_not_valid h hv, .error _ (by decide)⟩
    · exact ⟨_, execFapply_of_le (by omega), .error _ (by decide)⟩

/-- What a next state of exec can be. -/
theorem exec_next {i : Instr} {s t : State} (h : exec i s = .next t) : ExecEffect i s t := by
  obtain ⟨t', h', he⟩ := exec_effect i s
  rw [h] at h'
  cases h'
  exact he

end Sys2Proof.Machine
end

