-- ==== Sys2Proof/Laws/FftForms.lean ====
section
/-! SUPPORT. Bit reversal and the fast transforms: the running index of BITREV_PASS, the permutation it makes, and that the three forms of the fast transform agree. -/

namespace Sys2Proof.Machine

/-! ### reverseBits -/

theorem reverseBits_lt (p x : Nat) : reverseBits p x < 2 ^ p := by
  induction p generalizing x with
  | zero => simp [reverseBits]
  | succ p ih =>
    have := ih (x / 2)
    have h2 := Nat.mod_lt x (by decide : 0 < 2)
    have : (x % 2) * 2 ^ p ≤ 1 * 2 ^ p := Nat.mul_le_mul_right _ (by omega)
    rw [reverseBits, Nat.pow_succ]
    omega

/-- The recursion of rev_p from the high end. -/
theorem reverseBits_high (p b y : Nat) (hb : b < 2) (hy : y < 2 ^ p) :
    reverseBits (p + 1) (b * 2 ^ p + y) = 2 * reverseBits p y + b := by
  induction p generalizing y with
  | zero =>
    obtain rfl : y = 0 := by simpa using hy
    simp only [reverseBits]; omega
  | succ p ih =>
    have h1 : (b * 2 ^ (p + 1) + y) % 2 = y % 2 := by rw [Nat.pow_succ, ← Nat.mul_assoc]; omega
    have h2 : (b * 2 ^ (p + 1) + y) / 2 = b * 2 ^ p + y / 2 := by rw [Nat.pow_succ, ← Nat.mul_assoc]; omega
    rw [reverseBits, h1, h2, ih (y / 2) (by rw [Nat.pow_succ] at hy; omega), reverseBits, Nat.pow_succ, ← Nat.mul_assoc]
    omega

/-- rev_p is its own inverse (R149). -/
theorem reverseBits_reverseBits (p x : Nat) (hx : x < 2 ^ p) : reverseBits p (reverseBits p x) = x := by
  induction p generalizing x with
  | zero => simp [reverseBits] at hx ⊢; omega
  | succ p ih =>
    rw [reverseBits.eq_def (p + 1) x]
    simp only
    rw [reverseBits_high p _ _ (Nat.mod_lt _ (by decide)) (reverseBits_lt p _), ih _ (by rw [Nat.pow_succ] at hx; omega)]
    omega

@[simp] theorem reverseBits_zero (p : Nat) : reverseBits p 0 = 0 := by
  induction p with
  | zero => rfl
  | succ p ih => simp [reverseBits, ih]

theorem reverseBits_last (p : Nat) : reverseBits p (2 ^ p - 1) = 2 ^ p - 1 := by
  induction p with
  | zero => rfl
  | succ p ih =>
    have h := Nat.two_pow_pos p
    have h1 : (2 ^ (p + 1) - 1) % 2 = 1 := by rw [Nat.pow_succ]; omega
    have h2 : (2 ^ (p + 1) - 1) / 2 = 2 ^ p - 1 := by rw [Nat.pow_succ]; omega
    rw [reverseBits, h1, h2, ih, Nat.pow_succ]
    omega

/-! ### BITREV_PASS (R144) -/

/-- The running index of R144 steps from rev_p(j) to rev_p(j+1). -/
theorem reversedSuccessor_eq (p j : Nat) (hj : j + 1 < 2 ^ p) :
    reversedSuccessor p (reverseBits p j) (2 ^ p / 2) = reverseBits p (j + 1) := by
  induction p generalizing j with
  | zero => simp at hj
  | succ p ih =>
    have hp : 2 ^ (p + 1) / 2 = 2 ^ p := by rw [Nat.pow_succ]; omega
    have hlt := reverseBits_lt p (j / 2)
    rw [hp, reverseBits.eq_def (p + 1) j, reverseBits.eq_def (p + 1) (j + 1)]
    simp only [reversedSuccessor]
    have hadd : 2 ^ p + reverseBits p (j / 2) = 2 ^ p ^^^ reverseBits p (j / 2) := by
      have hor := Nat.two_pow_add_eq_or_of_lt hlt 1
      rw [Nat.mul_one] at hor
      rw [hor]
      apply Nat.eq_of_testBit_eq
      intro i
      rw [Nat.testBit_or, Nat.testBit_xor, Nat.testBit_two_pow]
      by_cases h : p = i
      · subst h; simp [Nat.testBit_lt_two_pow hlt]
      · simp [h]
    rcases Nat.mod_two_eq_zero_or_one j with h | h
    · have h1 : (j + 1) % 2 = 1 := by omega
      have h2 : (j + 1) / 2 = j / 2 := by omega
      rw [h, h1, h2, Nat.zero_mul, Nat.zero_add, Nat.one_mul, Nat.xor_comm, ← hadd, if_pos]
      rw [bne_iff_ne]
      intro h0
      have := congrArg (fun z => Nat.testBit z p) h0
      simp [Nat.testBit_two_pow_add_eq, Nat.testBit_lt_two_pow hlt] at this
    · have h1 : (j + 1) % 2 = 0 := by omega
      have h2 : (j + 1) / 2 = j / 2 + 1 := by omega
      have hx : (2 ^ p + reverseBits p (j / 2)) ^^^ 2 ^ p = reverseBits p (j / 2) := by
        rw [hadd, Nat.xor_comm, ← Nat.xor_assoc, Nat.xor_self, Nat.zero_xor]
      rw [h, h1, h2, Nat.one_mul, hx, if_neg]
      · rw [ih (j / 2) (by rw [Nat.pow_succ] at hj; omega)]; omega
      · rw [bne_iff_ne, not_not]
        apply Nat.eq_of_testBit_eq
        intro i
        rw [Nat.testBit_and, Nat.testBit_two_pow]
        by_cases h : p = i
        · subst h; simp [Nat.testBit_lt_two_pow hlt]
        · simp [h]

theorem getElem_swapEntries (xs : List Cplx) (j i x : Nat) (hj : j < xs.length) (hi : i < xs.length) :
    (swapEntries xs j i)[x]? = if x = i then xs[j]? else if x = j then xs[i]? else xs[x]? := by
  simp only [swapEntries, List.getD_eq_getElem?_getD, List.getElem?_set, List.length_set]
  by_cases h1 : x = i
  · subst h1
    simp [hi, hj]
  · by_cases h2 : x = j
    · subst h2
      simp [Ne.symm h1, hj, hi, h1]
    · simp [Ne.symm h1, Ne.symm h2, h1, h2]

theorem length_bitrevLoop (n : Nat) (js : List Nat) (st : Nat × List Cplx) :
    (js.foldl (bitrevIteration n) st).2.length = st.2.length := by
  induction js generalizing st with
  | nil => rfl
  | cons j js ih =>
    rw [List.foldl_cons, ih]
    simp only [bitrevIteration]
    split <;> simp

/-- After the iterations up to j, the pairs whose smaller index is at most j are exchanged. -/
theorem bitrevLoop (p : Nat) (xs : List Cplx) (hx : xs.length = 2 ^ p) (j : Nat) (hj : j + 1 < 2 ^ p) :
    let st := (List.range' 1 j).foldl (bitrevIteration (2 ^ p)) (0, xs)
    st.1 = reverseBits p j ∧
    ∀ x, x < 2 ^ p → st.2[x]? = if min x (reverseBits p x) ≤ j then xs[reverseBits p x]? else xs[x]? := by
  induction j with
  | zero =>
    refine ⟨by simp, fun x hxp => ?_⟩
    split
    · rename_i h
      have : x = 0 ∨ reverseBits p x = 0 := by omega
      rcases this with rfl | h
      · simp
      · have := reverseBits_reverseBits p x hxp
        rw [h, reverseBits_zero] at this
        simp [← this]
    · rfl
  | succ j ih =>
    obtain ⟨h1, h2⟩ := ih (by omega)
    rw [List.range'_concat, List.foldl_append]
    simp only [Nat.one_mul, List.foldl_cons, List.foldl_nil]
    generalize hst : (List.range' 1 j).foldl (bitrevIteration (2 ^ p)) (0, xs) = st at h1 h2
    have hlen : st.2.length = 2 ^ p := by rw [← hst, length_bitrevLoop, hx]
    simp only [bitrevIteration, h1, Nat.log2_two_pow]
    rw [reversedSuccessor_eq p j (by omega)]
    have hr := reverseBits_lt p (j + 1)
    rw [Nat.add_comm 1 j]
    refine ⟨rfl, fun x hxp => ?_⟩
    have hinv := reverseBits_reverseBits p (j + 1) (by omega)
    have hinvx := reverseBits_reverseBits p x hxp
    have hrx := reverseBits_lt p x
    by_cases hlt : j + 1 < reverseBits p (j + 1)
    · rw [if_pos hlt, getElem_swapEntries _ _ _ _ (by omega) (by omega)]
      by_cases hx1 : x = reverseBits p (j + 1)
      · subst hx1
        rw [if_pos rfl, h2 _ (by omega), hinv, if_neg (by omega), if_pos (by omega)]
      · rw [if_neg hx1]
        by_cases hx2 : x = j + 1
        · subst hx2
          rw [if_pos rfl, h2 _ hr, hinv, if_neg (by omega), if_pos (by omega)]
        · rw [if_neg hx2, h2 _ hxp]
          have : reverseBits p x ≠ j + 1 := by intro h; rw [h] at hinvx; exact hx1 hinvx.symm
          congr 1
          exact propext ⟨fun h => by omega, fun h => by omega⟩
    · rw [if_neg hlt, h2 _ hxp]
      by_cases hm : min x (reverseBits p x) = j + 1
      · rw [if_neg (by omega), if_pos (by omega)]
        have : x = reverseBits p x := by
          rcases (by omega : x = j + 1 ∨ reverseBits p x = j + 1) with h | h
          · subst h; omega
          · have := hinvx; rw [h] at this; omega
        rw [← this]
      · congr 1
        exact propext ⟨fun h => by omega, fun h => by omega⟩

/-- BITREV_PASS is the permutation rev_p: BUF'[x] = BUF[rev_p(x)] (R144, R149). -/
theorem getElem_bitrevPass (p : Nat) (xs : List Cplx) (hx : xs.length = 2 ^ p) (x : Nat) (hxp : x < 2 ^ p) :
    (bitrevPass (2 ^ p) xs)[x]? = xs[reverseBits p x]? := by
  unfold bitrevPass
  rcases Nat.lt_or_ge (2 ^ p) 2 with h | h
  · have h2 : 2 ^ p = 1 := by have := Nat.two_pow_pos p; omega
    obtain rfl : x = 0 := by omega
    simp [h2]
  · have := (bitrevLoop p xs hx (2 ^ p - 2) (by omega)).2 x hxp
    rw [this]
    split
    · rfl
    · have hr := reverseBits_lt p x
      obtain rfl : x = 2 ^ p - 1 := by omega
      rw [reverseBits_last]

/-! ### The three forms of the fast transform agree (R146 to R148) -/

variable (tw : TwiddleFn)

/-- FFT_RB's blocks hold FFT_RS's result in bit-reversed order. -/
theorem getElem_fftRbCore (p : Nat) (xs : List Cplx) (hx : xs.length = 2 ^ p) (k : Nat) (hk : k < 2 ^ p) :
    (fftRbCore tw p xs)[reverseBits p k]? = (fftRs tw p xs)[k]? := by
  induction p generalizing xs k with
  | zero => obtain rfl : k = 0 := by simpa using hk
            simp [fftRbCore, fftRs]
  | succ p ih =>
    have hb : (butterfly tw (2 ^ (p + 1)) xs).length = 2 * 2 ^ p := by
      rw [Nat.pow_succ', length_butterfly _ _ _ (by rw [hx, Nat.pow_succ'])]
    simp only [fftRbCore, fftRs, reverseBits]
    generalize butterfly tw (2 ^ (p + 1)) xs = ys at hb
    have h1 : (ys.take (2 ^ p)).length = 2 ^ p := by rw [List.length_take]; omega
    have h2 : (ys.drop (2 ^ p)).length = 2 ^ p := by rw [List.length_drop]; omega
    have hi := getElem_interleave (fftRs tw p (ys.take (2 ^ p))) (fftRs tw p (ys.drop (2 ^ p)))
      (by rw [length_fftRs _ _ _ h1, length_fftRs _ _ _ h2]) (k / 2)
    have hl := length_fftRbCore tw p _ h1
    have hr := reverseBits_lt p (k / 2)
    have hk2 : k / 2 < 2 ^ p := by rw [Nat.pow_succ] at hk; omega
    rcases Nat.mod_two_eq_zero_or_one k with h | h
    · obtain ⟨i, rfl⟩ : ∃ i, k = 2 * i := ⟨k / 2, by omega⟩
      rw [show 2 * i / 2 = i by omega] at *
      rw [h, Nat.zero_mul, Nat.zero_add, List.getElem?_append_left (by omega), ih _ h1 _ hk2, hi.1]
    · obtain ⟨i, rfl⟩ : ∃ i, k = 2 * i + 1 := ⟨k / 2, by omega⟩
      rw [show (2 * i + 1) / 2 = i by omega] at *
      rw [h, Nat.one_mul, List.getElem?_append_right (by omega), hl, Nat.add_sub_cancel_left, ih _ h2 _ hk2, hi.2]

/-- FFT_RB equals FFT_RS, bit for bit (R150). -/
theorem fftRb_eq_fftRs (p : Nat) (xs : List Cplx) (hx : xs.length = 2 ^ p) : fftRb tw (2 ^ p) xs = fftRs tw p xs := by
  apply List.ext_getElem?
  intro k
  rcases Nat.lt_or_ge k (2 ^ p) with hk | hk
  · rw [fftRb, Nat.log2_two_pow, getElem_bitrevPass p _ (length_fftRbCore tw p xs hx) k hk,
      getElem_fftRbCore tw p xs hx k hk]
  · rw [List.getElem?_eq_none (by rw [length_fftRb tw p xs hx]; exact hk),
      List.getElem?_eq_none (by rw [length_fftRs tw p xs hx]; exact hk)]

/-- A stage after the first acts on the two halves separately. -/
theorem itStage_append (p s : Nat) (hs : s ≤ p) (ys zs : List Cplx) (hy : ys.length = 2 ^ p) :
    itStage tw (2 ^ (p + 1)) (ys ++ zs) (s + 1) = itStage tw (2 ^ p) ys s ++ itStage tw (2 ^ p) zs s := by
  have hl : 2 ^ (p + 1) / 2 ^ (s + 1) = 2 ^ p / 2 ^ s := by
    rw [Nat.pow_succ, Nat.pow_succ, Nat.mul_div_mul_right _ _ (by decide)]
  have hm : 2 ^ s * (2 ^ p / 2 ^ s) = 2 ^ p := Nat.mul_div_cancel' (Nat.pow_dvd_pow 2 hs)
  simp only [itStage, hl]
  generalize 2 ^ p / 2 ^ s = l at hm
  rw [Nat.pow_succ, Nat.mul_two, List.range_add, List.flatMap_append, List.flatMap_map]
  have hys : ys.length = 2 ^ s * l := by rw [hy, hm]
  congr 1
  · refine List.flatMap_congr fun g hg => ?_
    have hgl : (g + 1) * l ≤ 2 ^ s * l := Nat.mul_le_mul_right _ (List.mem_range.1 hg)
    rw [Nat.add_mul, Nat.one_mul] at hgl
    rw [List.drop_append_of_le_length (by omega), List.take_append_of_le_length (by rw [List.length_drop]; omega)]
  · refine List.flatMap_congr fun g _ => ?_
    rw [Nat.add_mul, ← hys, List.drop_append, Nat.add_sub_cancel_left,
      List.drop_eq_nil_of_le (by omega), List.nil_append]

/-- The stages of FFT_IT are the blocks of FFT_RB. -/
theorem itStages_eq_fftRbCore (p : Nat) (xs : List Cplx) (hx : xs.length = 2 ^ p) :
    (List.range p).foldl (itStage tw (2 ^ p)) xs = fftRbCore tw p xs := by
  induction p generalizing xs with
  | zero => rfl
  | succ p ih =>
    have hb : (butterfly tw (2 ^ (p + 1)) xs).length = 2 * 2 ^ p := by
      rw [Nat.pow_succ', length_butterfly _ _ _ (by rw [hx, Nat.pow_succ'])]
    have h0 : itStage tw (2 ^ (p + 1)) xs 0 = butterfly tw (2 ^ (p + 1)) xs := by
      simp [itStage, ← hx]
    rw [List.range_succ_eq_map, List.foldl_cons, h0, List.foldl_map, fftRbCore]
    generalize butterfly tw (2 ^ (p + 1)) xs = ys at hb
    have h1 : (ys.take (2 ^ p)).length = 2 ^ p := by rw [List.length_take]; omega
    have h2 : (ys.drop (2 ^ p)).length = 2 ^ p := by rw [List.length_drop]; omega
    rw [← ih _ h1, ← ih _ h2]
    suffices ∀ k, k ≤ p → ∃ as bs, as.length = 2 ^ p ∧
        (List.range k).foldl (itStage tw (2 ^ p)) (ys.take (2 ^ p)) = as ∧
        (List.range k).foldl (itStage tw (2 ^ p)) (ys.drop (2 ^ p)) = bs ∧
        (List.range k).foldl (fun zs s => itStage tw (2 ^ (p + 1)) zs (s + 1)) ys = as ++ bs by
      obtain ⟨as, bs, _, ha, hb', hab⟩ := this p le_rfl
      rw [ha, hb']
      exact hab
    intro k
    induction k with
    | zero => intro _; exact ⟨_, _, h1, rfl, rfl, (List.take_append_drop ..).symm⟩
    | succ k ihk =>
      intro hk
      obtain ⟨as, bs, hlen, ha, hb', hab⟩ := ihk (by omega)
      refine ⟨itStage tw (2 ^ p) as k, itStage tw (2 ^ p) bs k, length_itStage tw p k (by omega) _ hlen, ?_, ?_, ?_⟩
      · rw [List.range_succ, List.foldl_append, ha]; rfl
      · rw [List.range_succ, List.foldl_append, hb']; rfl
      · rw [List.range_succ, List.foldl_append, hab]
        exact itStage_append tw p k (by omega) as bs hlen

/-- FFT_IT equals FFT_RB, bit for bit (R150). -/
theorem fftIt_eq_fftRb (p : Nat) (xs : List Cplx) (hx : xs.length = 2 ^ p) : fftIt tw (2 ^ p) xs = fftRb tw (2 ^ p) xs := by
  rw [fftIt, fftRb, Nat.log2_two_pow, itStages_eq_fftRbCore tw p xs hx]

end Sys2Proof.Machine
end

