-- ==== Sys2Proof/Laws/PerInstr.lean ====
section
/-! SUPPORT. A fact about every command as a word: its encoding selects its row of R74, whatever its operand. -/

namespace Sys2Proof.Laws.OpcodeRow

open Sys2Proof

/-- The word of a command selects the command's row of the opcode map (R74). -/
def Statement (i : Instr) : Prop := (rowOf i).selects (encode i) = true

/-- A word of given fields selects a row of the FFT class by its low half alone. -/
theorem selects_low (f : Fields) (p : Word) (h : f.ch = 0 ∧ f.rsv = 0 ∧ p = (0#24 : BitVec 24) ++ f.op) :
    (⟨p, 0x0000FFFF⟩ : OpcodeRow).selects (wordOf f) = true := by
  obtain ⟨op, ch, rsv, nlen⟩ := f
  obtain ⟨rfl, rfl, rfl⟩ := h
  simp only [OpcodeRow.selects, wordOf, beq_iff_eq]
  apply BitVec.eq_of_getLsbD_eq
  intro i hi
  simp only [BitVec.getLsbD_and, BitVec.getLsbD_append]
  interval_cases i <;> simp

/-- A word of given fields selects a row of the filter class by all but its channel field. -/
theorem selects_filter (f : Fields) (p : Word) (h : f.nlen = 0 ∧ f.rsv = 0 ∧ p = (0#24 : BitVec 24) ++ f.op) :
    (⟨p, 0xFFFFF0FF⟩ : OpcodeRow).selects (wordOf f) = true := by
  obtain ⟨op, ch, rsv, nlen⟩ := f
  obtain ⟨rfl, rfl, rfl⟩ := h
  simp only [OpcodeRow.selects, wordOf, beq_iff_eq]
  apply BitVec.eq_of_getLsbD_eq
  intro i hi
  simp only [BitVec.getLsbD_and, BitVec.getLsbD_append]
  interval_cases i <;> simp

theorem cadd : Statement .cadd := rfl
theorem csub : Statement .csub := rfl
theorem cmul : Statement .cmul := rfl
theorem cpolar : Statement .cpolar := rfl
theorem fftDft (n : Nat) : Statement (.fftDft n) := selects_low _ _ ⟨rfl, rfl, by simp [opcode]⟩
theorem fftRs (n : Nat) : Statement (.fftRs n) := selects_low _ _ ⟨rfl, rfl, by simp [opcode]⟩
theorem fftRb (n : Nat) : Statement (.fftRb n) := selects_low _ _ ⟨rfl, rfl, by simp [opcode]⟩
theorem fftIt (n : Nat) : Statement (.fftIt n) := selects_low _ _ ⟨rfl, rfl, by simp [opcode]⟩
theorem bitrev (n : Nat) : Statement (.bitrev n) := selects_low _ _ ⟨rfl, rfl, by simp [opcode]⟩
theorem fcfgLpf1 (c : Nat) : Statement (.fcfgLpf1 c) := selects_filter _ _ ⟨rfl, rfl, by simp [opcode]⟩
theorem fcfgHpf1 (c : Nat) : Statement (.fcfgHpf1 c) := selects_filter _ _ ⟨rfl, rfl, by simp [opcode]⟩
theorem fcfgLpf2 (c : Nat) : Statement (.fcfgLpf2 c) := selects_filter _ _ ⟨rfl, rfl, by simp [opcode]⟩
theorem fcfgHpf2 (c : Nat) : Statement (.fcfgHpf2 c) := selects_filter _ _ ⟨rfl, rfl, by simp [opcode]⟩
theorem fapply (c : Nat) : Statement (.fapply c) := selects_filter _ _ ⟨rfl, rfl, by simp [opcode]⟩

end Sys2Proof.Laws.OpcodeRow
end

