-- ==== Sys2Proof/Laws/Rounding.lean ====
section
/-! SUPPORT. `roundMag` meets the rounding property that statements are made in. -/

namespace Sys2Proof.Machine

/-- The value of a sign above magnitude bits. -/
theorem value_pack (s : Bool) {m : Nat} (h : m < 2^31) :
    value (pack s m) = (if s then -1 else 1) * (bitsUnits m : ℚ) / 2^149 := by
  unfold value units
  rw [signBit_pack, magUnits_eq, magBits_pack s h]
  cases s <;> simp

/-- `roundMag` under a sign is the rounding of the signed rational n/d units to nearest even (R8). -/
theorem roundsToNearestEven_roundMag (s : Bool) (n d : Nat) (hd : 0 < d) (q : ℚ)
    (hq : q = (if s then -1 else 1) * ((n : ℚ) / (d * 2^149))) : RoundsToNearestEven q (pack s (roundMag n d)) := by
  have hd' : (0:ℚ) < d := by exact_mod_cast hd
  have h149 : (0:ℚ) < 2^149 := by positivity
  have hqabs : |q| = (n:ℚ) / (d * 2^149) := by
    rw [hq, abs_mul]
    have : |(if s = true then (-1:ℚ) else 1)| = 1 := by cases s <;> simp
    rw [this, one_mul, abs_of_nonneg (by positivity)]
  have hov : |q| < overflowAt ↔ n < overflowUnits * d := by
    rw [hqabs, div_lt_iff₀ (by positivity)]
    have : overflowAt * (d * 2^149) = ((overflowUnits * d : Nat) : ℚ) := by
      unfold overflowAt overflowUnits; push_cast; ring
    rw [this]; exact_mod_cast Iff.rfl
  have hval : ∀ v : Word, isFinite v = true → ∃ b, b < infBits ∧
      value v = (if signBit v then -1 else 1) * (bitsUnits b : ℚ) / 2^149 := by
    intro v hv
    refine ⟨magBits v, (isFinite_iff v).1 hv, ?_⟩
    unfold value units
    rw [magUnits_eq]
    cases signBit v <;> simp
  have hw := value_pack s (roundMag_lt n d)
  set R := roundMag n d with hR
  -- the distance from q of a value of q's sign, and of one of the other sign
  have dist : ∀ b : Nat, |(if s then (-1:ℚ) else 1) * (bitsUnits b : ℚ) / 2^149 - q| =
      ((|((bitsUnits b * d : Nat) : ℤ) - n| : ℤ) : ℚ) / (d * 2^149) := by
    intro b
    rw [hq]
    have : (if s then (-1:ℚ) else 1) * (bitsUnits b : ℚ) / 2^149 - (if s then (-1:ℚ) else 1) * ((n : ℚ) / (d * 2^149)) =
        (if s then (-1:ℚ) else 1) * (((bitsUnits b * d : ℚ) - n) / (d * 2^149)) := by
      field_simp
    rw [this, abs_mul]
    have : |(if s = true then (-1:ℚ) else 1)| = 1 := by cases s <;> simp
    rw [this, one_mul, abs_div, abs_of_pos (a := (d:ℚ) * 2^149) (by positivity)]
    push_cast; rfl
  have dist' : ∀ b : Nat, |(if s then (1:ℚ) else -1) * (bitsUnits b : ℚ) / 2^149 - q| =
      ((bitsUnits b : ℚ) * d + n) / (d * 2^149) := by
    intro b
    rw [hq]
    have : (if s then (1:ℚ) else -1) * (bitsUnits b : ℚ) / 2^149 - (if s then (-1:ℚ) else 1) * ((n : ℚ) / (d * 2^149)) =
        (if s then (1:ℚ) else -1) * (((bitsUnits b * d : ℚ) + n) / (d * 2^149)) := by
      cases s <;> simp only [if_true, if_false, Bool.false_eq_true] <;> field_simp <;> ring
    rw [this, abs_mul]
    have : |(if s = true then (1:ℚ) else -1)| = 1 := by cases s <;> simp
    rw [this, one_mul, abs_of_nonneg (by positivity)]
  have hw0 : (2:ℚ)^149 ≠ 0 := by positivity
  have h0 : bitsUnits 0 = 0 := by decide
  constructor
  · intro h
    rw [isFinite_iff, magBits_pack s (roundMag_lt n d)]
    exact (roundMag_nearest hd (hov.1 h)).1
  · intro h v hv
    obtain ⟨b, hb, hvb⟩ := hval v hv
    have hn := (roundMag_nearest hd (hov.1 h)).2
    rw [hw, dist, hvb]
    by_cases hs : signBit v = s
    · rw [hs, dist]
      exact div_le_div_of_nonneg_right (Int.cast_le.2 (hn b hb).1) (by positivity)
    · have : (if signBit v = true then (-1:ℚ) else 1) = if s then 1 else -1 := by cases s <;> simp_all
      rw [this, dist']
      refine div_le_div_of_nonneg_right ?_ (by positivity)
      have := (hn 0 (by decide)).1
      rw [h0] at this
      have h2 : |((bitsUnits R * d : Nat) : ℤ) - n| ≤ n := by simpa using this
      have : ((|((bitsUnits R * d : Nat) : ℤ) - n| : ℤ) : ℚ) ≤ n := by exact_mod_cast h2
      have : 0 ≤ (bitsUnits b : ℚ) * d := by positivity
      linarith
  · intro h v hv hne heq
    obtain ⟨b, hb, hvb⟩ := hval v hv
    have hn := (roundMag_nearest hd (hov.1 h)).2
    have hfin : R % 2 = 0 → (pack s R).getLsbD 0 = false := by
      intro h
      rw [BitVec.getLsbD, toNat_pack, Nat.testBit_zero, decide_eq_false_iff_not]
      omega
    apply hfin
    rw [hw, dist, hvb] at heq
    rw [hw, hvb] at hne
    by_cases hs : signBit v = s
    · rw [hs, dist] at heq
      rw [hs] at hne
      have h2 := mul_right_cancel₀ (b := (d * 2^149 : ℚ)⁻¹) (by positivity) heq
      refine (hn b hb).2 (fun h => hne (by rw [h])) ?_
      exact_mod_cast h2
    · have : (if signBit v = true then (-1:ℚ) else 1) = if s then 1 else -1 := by cases s <;> simp_all
      rw [this, dist'] at heq
      have h2 := mul_right_cancel₀ (b := (d * 2^149 : ℚ)⁻¹) (by positivity) heq
      have h3 := (hn 0 (by decide)).1
      rw [h0] at h3
      have h3 : |((bitsUnits R * d : Nat) : ℤ) - n| ≤ n := by simpa using h3
      have h3' : ((|((bitsUnits R * d : Nat) : ℤ) - n| : ℤ) : ℚ) ≤ n := by exact_mod_cast h3
      have h4 : 0 ≤ (bitsUnits b : ℚ) * d := by positivity
      have h5 : (bitsUnits b : ℚ) * d = 0 := by linarith
      have h6 : (bitsUnits b : ℚ) = 0 := by
        rcases mul_eq_zero.1 h5 with h | h
        · exact h
        · exact absurd h hd'.ne'
      refine (hn 0 (by decide)).2 (fun h => hne ?_) ?_
      · rw [h6]
        have : bitsUnits R = 0 := by rw [← h, h0]
        rw [this]; simp
      · rw [h0]
        have : (n:ℚ) = (|((bitsUnits R * d : Nat) : ℤ) - n| : ℤ) := by rw [← h2, h5]; ring
        have : (n:ℤ) = |((bitsUnits R * d : Nat) : ℤ) - n| := by exact_mod_cast this
        simpa using this
  · intro h
    have : overflowUnits * d ≤ n := by
      by_contra hc
      exact absurd (hov.2 (by omega)) (not_lt.2 h)
    rw [isInf_iff, magBits_pack s (roundMag_lt n d)]
    exact roundMag_overflow hd this
  · intro h
    rw [signBit_pack]
    cases s
    · rw [hq] at h; simp at h
      exact absurd h (not_lt.2 (by positivity))
    · rfl
  · intro h
    rw [signBit_pack]
    cases s
    · rfl
    · rw [hq] at h; simp at h
      exact absurd h (not_lt.2 (by positivity))

end Sys2Proof.Machine
end

