-- ==== Sys2Proof/Laws/Step.lean ====
section
/-! SUPPORT. What a step can do, said once. -/

namespace Sys2Proof.Machine

open Host (Outcome)

/-- The agenda's turn is ENGINE's, and what comes after it (R210: the end of the agenda is ENGINE's turn too). -/
def engineTurnOf (s : State) (rest : List Event) : Prop := (s.agenda = [] ∧ rest = []) ∨ s.agenda = .engine :: rest

/-- Everything a step that answers a next state can do; `rest` is what is still to come after it. -/
inductive StepEffect (s : State) : State → Prop
  /-- ENGINE has no enabled step -/
  | idle (rest : List Event) (ht : engineTurnOf s rest) (hb : s.status.busy = false) : StepEffect s { s with agenda := rest }
  /-- an illegal word completes -/
  | illegal (rest : List Event) (ht : engineTurnOf s rest) (hb : s.status.busy = true) (e : DecodeError)
      (hd : decode s.cmd = .error e) : StepEffect s (State.complete { s with agenda := rest } .illegalCmd)
  /-- a command runs -/
  | run (rest : List Event) (ht : engineTurnOf s rest) (hb : s.status.busy = true) (i : Instr) (hd : decode s.cmd = .ok i)
      (t : State) (he : exec i { s with agenda := rest } = .next t) : StepEffect s t
  /-- the reset event -/
  | reset (rest : List Event) (ht : s.agenda = .reset :: rest) : StepEffect s (State.resetEvent { s with agenda := rest })
  /-- an access outside the window -/
  | outside (e : Event) (rest : List Event) (ht : s.agenda = e :: rest) (hr : e ≠ .reset) (he : e ≠ .engine) :
      StepEffect s { s with agenda := rest }
  /-- a read -/
  | read (off : Nat) (rest : List Event) (ho : off < 0x20000) (h4 : (s.base + off) % 4 = 0)
      (ht : s.agenda = .read (s.base + off) .four :: rest) : StepEffect s (State.busRead { s with agenda := rest } off)
  /-- a write -/
  | write (off : Nat) (w : Word) (rest : List Event) (ho : off < 0x20000) (h4 : (s.base + off) % 4 = 0)
      (ht : s.agenda = .write (s.base + off) .four w :: rest) :
      StepEffect s (State.busWrite { s with agenda := rest } off w)

theorem step_nil {s : State} (h : s.agenda = []) : step s = engineTurn s := by
  simp [step, takeTurn, h]

theorem step_cons {s : State} {e : Event} {rest : List Event} (h : s.agenda = e :: rest) :
    step s = takeEvent e { s with agenda := rest } := by
  simp [step, takeTurn, h]

/-- On ENGINE's turn the step is that of ENGINE. -/
theorem step_engineTurn {s : State} {rest : List Event} (h : engineTurnOf s rest) :
    step s = engineTurn { s with agenda := rest } := by
  rcases h with ⟨h1, h2⟩ | h
  · rw [step_nil h1, h2, ← h1]
  · rw [step_cons h]; rfl

theorem engineTurn_idle {s : State} (h : s.status.busy = false) : engineTurn s = .next s := by simp [engineTurn, h]

theorem engineTurn_illegal {s : State} (h : s.status.busy = true) {e : DecodeError} (hd : decode s.cmd = .error e) :
    engineTurn s = .next (s.complete .illegalCmd) := by simp [engineTurn, h, runCommand, hd, raiseError]

theorem engineTurn_run {s : State} (h : s.status.busy = true) {i : Instr} (hd : decode s.cmd = .ok i) :
    engineTurn s = exec i s := by simp [engineTurn, h, runCommand, hd]

/-- A pending command always completes: ENGINE's turn answers a next state. -/
theorem engineTurn_next (s : State) : ∃ t, engineTurn s = .next t := by
  cases hb : s.status.busy with
  | false => exact ⟨s, engineTurn_idle hb⟩
  | true =>
    cases hd : decode s.cmd with
    | error e => exact ⟨_, engineTurn_illegal hb hd⟩
    | ok i =>
      obtain ⟨t, h, _⟩ := exec_effect i s
      exact ⟨t, (engineTurn_run hb hd).trans h⟩

theorem engineTurn_effect {s t : State} {rest : List Event} (ht : engineTurnOf s rest)
    (h : engineTurn { s with agenda := rest } = .next t) : StepEffect s t := by
  cases hb : s.status.busy with
  | false =>
    rw [engineTurn_idle (s := { s with agenda := rest }) hb] at h
    cases h
    exact .idle rest ht hb
  | true =>
    cases hd : decode s.cmd with
    | error e =>
      rw [engineTurn_illegal (s := { s with agenda := rest }) hb hd] at h
      cases h
      exact .illegal rest ht hb e hd
    | ok i =>
      rw [engineTurn_run (s := { s with agenda := rest }) hb hd] at h
      exact .run rest ht hb i hd t h

/-- What a next state of step can be. -/
theorem step_next {s t : State} (h : step s = .next t) : StepEffect s t := by
  cases ha : s.agenda with
  | nil =>
    have ht : engineTurnOf s [] := .inl ⟨ha, rfl⟩
    rw [step_engineTurn ht] at h
    exact engineTurn_effect ht h
  | cons e rest =>
    cases e with
    | engine =>
      have ht : engineTurnOf s rest := .inr ha
      rw [step_engineTurn ht] at h
      exact engineTurn_effect ht h
    | reset =>
      rw [step_cons ha] at h
      cases h
      exact .reset rest ha
    | read addr size =>
      rw [step_cons ha] at h
      simp only [takeEvent, hostRead] at h
      rcases transaction_cases addr size (fun off => State.busRead { s with agenda := rest } off)
        { s with agenda := rest } with ⟨_, he⟩ | ⟨_, _, he⟩ | ⟨_, _, _, he⟩ | ⟨hw, hs, h4, he⟩
      · rw [he] at h; cases h
        exact .outside _ rest ha (by simp) (by simp)
      · rw [he] at h; cases h
      · rw [he] at h; cases h
      · rw [he] at h; cases h
        have hw' := (inWindow_iff _ _).1 hw
        simp only at hw'
        have hadd : s.base + (addr - s.base) = addr := by omega
        exact .read (addr - s.base) rest (by omega) (by rw [hadd]; exact h4) (by rw [hadd, ha, hs])
    | write addr size w =>
      rw [step_cons ha] at h
      simp only [takeEvent, hostWrite] at h
      rcases transaction_cases addr size (fun off => State.busWrite { s with agenda := rest } off w)
        { s with agenda := rest } with ⟨_, he⟩ | ⟨_, _, he⟩ | ⟨_, _, _, he⟩ | ⟨hw, hs, h4, he⟩
      · rw [he] at h; cases h
        exact .outside _ rest ha (by simp) (by simp)
      · rw [he] at h; cases h
      · rw [he] at h; cases h
      · rw [he] at h; cases h
        have hw' := (inWindow_iff _ _).1 hw
        simp only at hw'
        have hadd : s.base + (addr - s.base) = addr := by omega
        exact .write (addr - s.base) w rest (by omega) (by rw [hadd]; exact h4) (by rw [hadd, ha, hs])

/-- An aligned write at an offset of the window is performed. -/
theorem step_hostWrites {s : State} {off : Nat} {w : Word} {rest : List Event} (ho : off < 0x20000)
    (h4 : (s.base + off) % 4 = 0) (ha : s.agenda = .write (s.base + off) .four w :: rest) :
    step s = .next (State.busWrite { s with agenda := rest } off w) := by
  rw [step_cons ha]
  exact transaction_at (s := { s with agenda := rest }) ho h4 (fun off => State.busWrite { s with agenda := rest } off w)

/-- An aligned read at an offset of the window is performed. -/
theorem step_hostReads {s : State} {off : Nat} {rest : List Event} (ho : off < 0x20000)
    (h4 : (s.base + off) % 4 = 0) (ha : s.agenda = .read (s.base + off) .four :: rest) :
    step s = .next (State.busRead { s with agenda := rest } off) := by
  rw [step_cons ha]
  exact transaction_at (s := { s with agenda := rest }) ho h4 (fun off => State.busRead { s with agenda := rest } off)

/-- An aligned read at an offset of the window while BUSY = 0 returns what the map has there, and changes nothing else. -/
theorem step_read_of_idle {s : State} {off : Nat} {rest : List Event} (hb : s.status.busy = false) (ho : off < 0x20000)
    (h4 : (s.base + off) % 4 = 0) (ha : s.agenda = .read (s.base + off) .four :: rest) :
    step s = .next { s with agenda := rest, rdata := s.readLoc (s.locate off) } := by
  have hl : ∀ l, State.readLoc { s with agenda := rest } l = s.readLoc l := fun l => by cases l <;> rfl
  rw [step_hostReads ho h4 ha, busRead_of_idle (s := { s with agenda := rest }) hb, hl]
  rfl

end Sys2Proof.Machine
end

