-- ==== Sys2Proof/Tests/Slice0.lean ====
section
/-! SUPPORT. Tests: the smoke tests of WellFormed, words of the spec decoded, the spec's vectors of 95_test_vectors.md on single commands and single steps, and for every obligation with hypotheses a named witness that meets them. -/

namespace Sys2Proof.Tests

open Sys2Proof Sys2Proof.Machine
open Host (Outcome)

/-! ### Well-formedness: an ill-formed term for each check (30_encoding.md R78: n > 65535, c > 15 are refused) -/

theorem test_length_too_long : (Instr.bitrev 65536).wellFormed = false := by decide
theorem test_length_longest : (Instr.bitrev 65535).wellFormed = true := by decide
theorem test_channel_too_high : (Instr.fapply 16).wellFormed = false := by decide
theorem test_channel_highest : (Instr.fapply 15).wellFormed = true := by decide

/-! ### Decoding: for every command a word written out from R70 and R74 as {NLEN, RSV, CH, OP} -/

theorem test_decode_cadd : decode 0b0000000000000000_0000_0000_00000001 = .ok .cadd := by rfl
theorem test_decode_csub : decode 0b0000000000000000_0000_0000_00000010 = .ok .csub := by rfl
theorem test_decode_cmul : decode 0b0000000000000000_0000_0000_00000011 = .ok .cmul := by rfl
theorem test_decode_cpolar : decode 0b0000000000000000_0000_0000_00000100 = .ok .cpolar := by rfl
theorem test_decode_fftDft : decode 0b0000000000000011_0000_0000_00010000 = .ok (.fftDft 3) := by rfl
theorem test_decode_fftRs : decode 0b1000000000000001_0000_0000_00010001 = .ok (.fftRs 32769) := by rfl
theorem test_decode_fftRb : decode 0b0000000000001000_0000_0000_00010010 = .ok (.fftRb 8) := by rfl
theorem test_decode_fftIt : decode 0b0000000000000100_0000_0000_00010011 = .ok (.fftIt 4) := by rfl
theorem test_decode_bitrev : decode 0b1111111111111111_0000_0000_00010100 = .ok (.bitrev 65535) := by rfl
theorem test_decode_fcfgLpf1 : decode 0b0000000000000000_0000_1000_00100000 = .ok (.fcfgLpf1 8) := by rfl
theorem test_decode_fcfgHpf1 : decode 0b0000000000000000_0000_0001_00100001 = .ok (.fcfgHpf1 1) := by rfl
theorem test_decode_fcfgLpf2 : decode 0b0000000000000000_0000_0001_00100010 = .ok (.fcfgLpf2 1) := by rfl
theorem test_decode_fcfgHpf2 : decode 0b0000000000000000_0000_1111_00100011 = .ok (.fcfgHpf2 15) := by rfl
theorem test_decode_fapply : decode 0b0000000000000000_0000_0100_00101000 = .ok (.fapply 4) := by rfl

/-- L2.4's illegal words. -/
theorem test_decode_illegal :
    decode 0x00000000 = .error .unassignedOp ∧ decode 0x00000005 = .error .unassignedOp ∧
    decode 0x000000FF = .error .unassignedOp ∧ decode 0x00000124 = .error .unassignedOp ∧
    decode 0x00000429 = .error .unassignedOp ∧ decode 0x00010001 = .error .nonzeroField ∧
    decode 0x00081013 = .error .nonzeroField ∧ decode 0x00020028 = .error .nonzeroField ∧
    decode 0x00001028 = .error .nonzeroField := ⟨rfl, rfl, rfl, rfl, rfl, rfl, rfl, rfl, rfl⟩

theorem test_decodeTableWord : decodeTableWord 32 0x00080113 = none ∧ decodeTableWord 32 0x28 = some (.fapply 0) :=
  ⟨rfl, rfl⟩

/-- R74: at most one row matches any word. -/
theorem test_rows_do_not_overlap :
    opcodeMap.Pairwise fun r r' => r.pattern &&& r'.mask ≠ r'.pattern &&& r.mask := by decide

/-! ### Small states -/

/-- NMAX = 16 and NCH = 4 as in 95_test_vectors.md; the window at 0x20000. -/
def t0 : State := State.resetWith 4 4 0x20000

/-- The next state, where there is one. -/
def after (o : Outcome State Fault Refusal) : State :=
  match o with
  | .next t => t
  | .fault _ => t0
  | .refused _ => t0

/-- t0 with given operands. -/
def withOps (a b : Cplx) : State := { t0 with opA := a, opB := b }

/-- t0 with given BUF entries from entry 0 on. -/
def withBuf (xs : List Cplx) : State := t0.storeBuf xs

/-- t0 with a channel 0 of given parameters. -/
def withParams (ts wn zeta u : Word) : State :=
  t0.setChan 0 { Channel.reset with ts := ts, wn := wn, zeta := zeta, uIn := u }

/-- t0 with events to come. -/
def withAgenda (es : List Event) : State := { t0 with agenda := es }

/-- t0 with a command pending and events to come. -/
def pending (w : Word) (es : List Event) : State := { t0.accept w with agenda := es }

/-! ### The complex unit (L2.1) -/

theorem test_cadd : (after (exec .cadd (withOps ⟨0x3F800000, 0x40000000⟩ ⟨0x40400000, 0x40800000⟩))).res =
    ⟨0x40800000, 0x40C00000⟩ := by decide
theorem test_cadd_infinities : (after (exec .cadd (withOps ⟨0x7F800000, 0x3F800000⟩ ⟨0xFF800000, 0x3F800000⟩))).res =
    ⟨0x7FC00000, 0x40000000⟩ := by decide
theorem test_csub : (after (exec .csub (withOps ⟨0x3F800000, 0x40000000⟩ ⟨0x40400000, 0x40800000⟩))).res =
    ⟨0xC0000000, 0xC0000000⟩ := by decide
theorem test_csub_zeros : (after (exec .csub (withOps ⟨0x40A00000, 0x80000000⟩ ⟨0x40A00000, 0x00000000⟩))).res =
    ⟨0x00000000, 0x80000000⟩ := by decide
theorem test_cmul : (after (exec .cmul (withOps ⟨0x3F800000, 0x40000000⟩ ⟨0x40400000, 0x40800000⟩))).res =
    ⟨0xC0A00000, 0x41200000⟩ := by decide
theorem test_cmul_nan : (after (exec .cmul (withOps ⟨0x7FC00001, 0⟩ ⟨0x3F800000, 0⟩))).res =
    ⟨0x7FC00000, 0x7FC00000⟩ := by decide
theorem test_cpolar : (after (exec .cpolar (withOps ⟨0xC0400000, 0x12345678⟩ ⟨0, 0x7FC00001⟩))).res =
    ⟨0xC0400000, 0x80000000⟩ := by decide
theorem test_cpolar_infinite_angle : (after (exec .cpolar (withOps ⟨0x3F800000, 0⟩ ⟨0x7F800000, 0⟩))).res =
    ⟨0x7FC00000, 0x7FC00000⟩ := by decide

/-- L2.1: overflow to +Inf, underflow to +0, and R8's signed zeros. -/
theorem test_rounding : fadd 0x7F7FFFFF 0x7F7FFFFF = 0x7F800000 ∧ fmul 0x00000001 0x3F000000 = 0x00000000 ∧
    fadd 0x80000000 0x80000000 = 0x80000000 ∧ fadd 0x80000000 0x00000000 = 0x00000000 := by decide

/-! ### The FFT engine (L2.2) -/

/-- The reference twiddles TW(i, 8); TW(i, 4) = TW(2i, 8) and TW(i, 2) = TW(4i, 8). -/
def refTwiddle (i m : Nat) : Cplx :=
  ([⟨0x3F800000, 0x80000000⟩, ⟨0x3F3504F3, 0xBF3504F3⟩, ⟨0xB33BBD2E, 0xBF800000⟩, ⟨0xBF3504F3, 0xBF3504F3⟩,
    ⟨0xBF800000, 0x33BBBD2E⟩, ⟨0xBF3504F1, 0x3F3504F5⟩, ⟨0x324CDE2E, 0x3F800000⟩, ⟨0x3F3504F7, 0x3F3504EF⟩] :
    List Cplx).getD (i * (8 / m)) default

/-- [1, 2, 3, 4] as complex entries. -/
def oneToFour : List Cplx := [⟨0x3F800000, 0⟩, ⟨0x40000000, 0⟩, ⟨0x40400000, 0⟩, ⟨0x40800000, 0⟩]

/-- [0, 1, …, 7] as complex entries. -/
def zeroToSeven : List Cplx := ⟨0, 0⟩ :: oneToFour ++ [⟨0x40A00000, 0⟩, ⟨0x40C00000, 0⟩, ⟨0x40E00000, 0⟩]

/-- FFT_RS, FFT_RB and FFT_IT 4 of [1, 2, 3, 4]. -/
def fourBins : List Cplx :=
  [⟨0x41200000, 0⟩, ⟨0xBFFFFFFF, 0x40000000⟩, ⟨0xC0000000, 0⟩, ⟨0xC0000000, 0xC0000000⟩]

theorem test_dft : dft refTwiddle 4 oneToFour =
    [⟨0x41200000, 0⟩, ⟨0xC0000000, 0x40000001⟩, ⟨0xC0000000, 0x350CCDE2⟩, ⟨0xC0000001, 0xBFFFFFFE⟩] := by decide
theorem test_fftRs : fftRs refTwiddle 2 oneToFour = fourBins := by decide
theorem test_fftRb : fftRb refTwiddle 4 oneToFour = fourBins := by decide
theorem test_fftIt : fftIt refTwiddle 4 oneToFour = fourBins := by decide
theorem test_bitrev : (bitrevPass 8 zeroToSeven).map Cplx.re =
    [0, 0x40800000, 0x40000000, 0x40C00000, 0x3F800000, 0x40A00000, 0x40400000, 0x40E00000] := by decide

/-- L1.4: FFT_IT 8 of [0, …, 7]. -/
theorem test_fftIt_eight : fftIt refTwiddle 8 zeroToSeven =
    [⟨0x41E00000, 0⟩, ⟨0xC07FFFFF, 0x411A827A⟩, ⟨0xC07FFFFF, 0x40800000⟩, ⟨0xC07FFFFF, 0x3FD413CC⟩,
     ⟨0xC0800000, 0⟩, ⟨0xC07FFFFF, 0xBFD413CC⟩, ⟨0xC0800000, 0xC0800000⟩, ⟨0xC0800001, 0xC11A827A⟩] := by decide

/-- FFT_DFT 1: -0 becomes +0, and Inf * (-0) is a NaN. -/
theorem test_fftDft_one :
    (after (exec (.fftDft 1) (withBuf [⟨0x40A00000, 0x80000000⟩]))).bufEntry 0 = ⟨0x40A00000, 0⟩ ∧
    (after (exec (.fftDft 1) (withBuf [⟨0x7F800000, 0⟩]))).bufEntry 0 = ⟨0x7F800000, 0x7FC00000⟩ := by decide +kernel
theorem test_fftRs_two :
    (after (exec (.fftRs 2) (withBuf [⟨0x40400000, 0x3F800000⟩, ⟨0x3F800000, 0xC0000000⟩]))).loadBuf 2 =
      [⟨0x40800000, 0xBF800000⟩, ⟨0x40000000, 0x40400000⟩] := by decide
theorem test_fftRb_two :
    (after (exec (.fftRb 2) (withBuf [⟨0x40400000, 0x3F800000⟩, ⟨0x3F800000, 0xC0000000⟩]))).loadBuf 2 =
      [⟨0x40800000, 0xBF800000⟩, ⟨0x40000000, 0x40400000⟩] := by decide
theorem test_fftIt_two :
    (after (exec (.fftIt 2) (withBuf [⟨0x40400000, 0x3F800000⟩, ⟨0x3F800000, 0xC0000000⟩]))).loadBuf 2 =
      [⟨0x40800000, 0xBF800000⟩, ⟨0x40000000, 0x40400000⟩] := by decide
theorem test_bitrev_four : (after (exec (.bitrev 4) (withBuf fourBins))).loadBuf 4 =
    [⟨0x41200000, 0⟩, ⟨0xC0000000, 0⟩, ⟨0xBFFFFFFF, 0x40000000⟩, ⟨0xC0000000, 0xC0000000⟩] := by decide

/-! ### The filters (L2.3) -/

/-- The output of a channel after a construction and one FAPPLY. -/
def firstOutput (i : Instr) (s : State) : Word := ((after (exec (.fapply 0) (after (exec i s)))).chan 0).yOut

theorem test_fcfgLpf1 :
    let ch := (after (exec (.fcfgLpf1 0) (withParams 0x3F800000 0x40C00000 0 0))).chan 0
    ch.a1 = 0xBF000000 ∧ ch.b0 = 0x3F400000 ∧ ch.b1 = 0x3F400000 ∧ ch.fstat = 0x00000001 := by decide
theorem test_fcfgHpf1 :
    let ch := (after (exec (.fcfgHpf1 0) (withParams 0x3F800000 0x40C00000 0 0))).chan 0
    ch.a1 = 0xBF000000 ∧ ch.b0 = 0xBF400000 ∧ ch.b1 = 0x3F400000 ∧ ch.fstat = 0x00000003 := by decide

/-- L1.6. -/
theorem test_fcfgLpf2 :
    let ch := (after (exec (.fcfgLpf2 0) (withParams 0x38D1B717 0x447A0000 0x3F34FDF4 0))).chan 0
    ch.mq = 0x41E23D72 ∧ ch.nq = 0x43C80002 ∧ ch.a1 = 0xBFEDF14F ∧ ch.a2 = 0x3F5E4546 ∧ ch.b0 = 0x3B18AA37 ∧
      ch.b1 = 0x3B98AA37 ∧ ch.b2 = 0x3B18AA37 ∧ ch.fstat = 0x00000005 := by decide
theorem test_fcfgHpf2 :
    let ch := (after (exec (.fcfgHpf2 0) (withParams 0x38D1B717 0x447A0000 0x3F34FDF4 0))).chan 0
    ch.b0 = 0x3F6E89F9 ∧ ch.b1 = 0xBFEE89F9 ∧ ch.b2 = 0x3F6E89F9 ∧ ch.fstat = 0x00000007 := by decide
theorem test_fapply_degenerate : firstOutput (.fcfgLpf1 0) (withParams 0x3F800000 0xC0000000 0 0x3F800000) = 0x7FC00000 := by
  decide

/-- P3: the second output of the low-pass filter with WN = 6 is 1.125. -/
theorem test_fapply_first_order :
    let s := after (exec (.fapply 0) (after (exec (.fcfgLpf1 0) (withParams 0x3F800000 0x40C00000 0 0x3F800000))))
    (s.chan 0).yOut = 0x3F400000 ∧ ((after (exec (.fapply 0) s)).chan 0).yOut = 0x3F900000 := by decide

/-- ZETA = 3: 0.125, then 0.375. -/
theorem test_fapply_second_order :
    let s := after (exec (.fapply 0) (after (exec (.fcfgLpf2 0) (withParams 0x3F800000 0x40000000 0x40400000 0x3F800000))))
    (s.chan 0).yOut = 0x3E000000 ∧ ((after (exec (.fapply 0) s)).chan 0).yOut = 0x3EC00000 := by decide +kernel

/-! ### The life cycle and the bus (L2.4) -/

/-- STATUS after ENGINE's turn on a word. -/
def statusAfter (w : Word) : Word := (after (step (pending w [.engine]))).status.word

theorem test_status_codes :
    statusAfter 0x00000000 = 0x00000016 ∧ statusAfter 0x00001028 = 0x00000016 ∧ statusAfter 0x00000428 = 0x00000036 ∧
    statusAfter 0x00000028 = 0x00000046 ∧ statusAfter 0x00030011 = 0x00000026 ∧ statusAfter 0x00110013 = 0x00000026 ∧
    statusAfter 0x00000010 = 0x00000026 ∧ statusAfter 0x00110010 = 0x00000026 ∧ statusAfter 0x00000011 = 0x00000026 ∧
    statusAfter 0x00000001 = 0x00000002 := by decide
theorem test_status_busy : (t0.accept 0x28).status.word = 0x00000001 ∧
    (t0.setBusyErr.accept 0x28).status.word = 0x00000101 := by decide
theorem test_status_acknowledge :
    (Status.write ⟨false, true, .notConfigured, true⟩ 0x00000102).word = 0x00000044 := by decide
theorem test_irq :
    ({ t0 with ctrl := ⟨true, false⟩, status := ⟨false, true, .notConfigured, false⟩ } : State).irq = true ∧
    ({ t0 with ctrl := ⟨true, false⟩, status := ⟨false, false, .noError, true⟩ } : State).irq = false ∧
    ({ t0 with ctrl := ⟨false, true⟩, status := ⟨false, true, .noError, false⟩ } : State).irq = false ∧
    ({ t0 with ctrl := ⟨true, true⟩, status := ⟨true, false, .noError, false⟩ } : State).irq = false := by decide
theorem test_info : t0.infoWord = 0x00000404 := by decide
theorem test_write_and_read : (after (step (after (step (withAgenda
    [.write 0x30004 .four 0x12345678, .read 0x30004 .four]))))).rdata = 0x12345678 := by decide
theorem test_little_endian : (after (step (withAgenda [.write 0x30000 .four 0x12345678]))).bufByte 0x10000 = 0x78 ∧
    (after (step (withAgenda [.write 0x30000 .four 0x12345678]))).bufByte 0x10003 = 0x12 := by decide
theorem test_narrow_refused : step (withAgenda [.read 0x20000 .two]) = .refused .narrowAccess := by rfl
theorem test_misaligned_refused : step (withAgenda [.write 0x20002 .four 0]) = .refused .misalignedAccess := by rfl
theorem test_busy_write : (after (step (pending 0x28 [.write 0x20020 .four 1]))).status.word = 0x00000101 ∧
    (after (step (pending 0x28 [.write 0x20020 .four 1]))).opA = ⟨0, 0⟩ := by decide
theorem test_withFetchWord : (after (step (t0.withFetchWord 32 0x00000428))).status.word = 0x00000036 := by decide

/-! ### Witnesses: states and operands that meet the hypotheses of the obligations

`test_witness_<Name>` shows them for Obligations.<Name>, one conjunct or one theorem for each clause. -/

/-- A step that answers a next state is `next` of it. -/
def Steps (s : State) : Prop := step s = .next (after (step s))

theorem inv_with (st : Status) (cmd : Word) (es : List Event) (h : st.busy = true → st.done = false ∧ st.err = .noError) :
    ({ t0 with status := st, cmd := cmd, agenda := es } : State).Inv where
  bufRising := rfl
  bufMapped := by simp [t0, State.resetWith]
  nmaxLegal := by simp [t0, State.resetWith]
  nchLegal := by simp [t0, State.nch, State.resetWith]
  baseLegal := by simp [t0, State.resetWith]
  busyClear := h
  channels := by
    intro ch hc
    simp only [t0, State.resetWith, List.mem_replicate] at hc
    rw [hc.2]
    exact ⟨by decide, by decide⟩

theorem inv_withAgenda (es : List Event) : (withAgenda es).Inv := inv_with _ _ es (by decide)
theorem inv_pending (w : Word) (es : List Event) : (pending w es).Inv := inv_with _ _ es (fun _ => ⟨rfl, rfl⟩)

/-- Where t0's map has nothing (NCH = 4, NMAX = 16). -/
theorem not_mapped {s : State} (hn : s.nch = 4) (hm : s.nmax = 16) (off : Nat) (h1 : 0x14 ≤ off)
    (h2 : off < 0x20 ∨ 0x38 ≤ off) (h3 : off < 0x10000 ∨ 0x10080 ≤ off)
    (h4 : ∀ c, c < 4 → off < 0x100 + 0x80 * c ∨ 0x140 + 0x80 * c < off) : ¬ isMappedOffset s off := by
  rintro (h | ⟨h, h'⟩ | ⟨c, o, hc, _, ho, he⟩ | ⟨h, h'⟩)
  · omega
  · omega
  · have := h4 c (by omega); omega
  · omega

/-- An access HOST makes to an offset of t0's window. -/
theorem writes_at {s : State} (hb : s.base = 0x20000) {off : Nat} {w : Word} {rest : List Event} (h : off < 0x20000)
    (h4 : off % 4 = 0) (ha : s.agenda = .write (0x20000 + off) .four w :: rest) : hostWrites s off w :=
  ⟨h, by omega, rest, by rw [hb]; exact ha⟩
theorem reads_at {s : State} (hb : s.base = 0x20000) {off : Nat} {rest : List Event} (h : off < 0x20000)
    (h4 : off % 4 = 0) (ha : s.agenda = .read (0x20000 + off) .four :: rest) : hostReads s off :=
  ⟨h, by omega, rest, by rw [hb]; exact ha⟩

/-- t0 with BUSYERR set and events to come. -/
def flagged (es : List Event) : State := { t0 with status := ⟨false, true, .badLength, true⟩, agenda := es }

/-- t0 with OPA = OPB = (1, 0), RES = (1, 1), and events to come. -/
def withRes (es : List Event) : State :=
  { t0.accept 0x00000001 with opA := ⟨0x3F800000, 0⟩, opB := ⟨0x3F800000, 0⟩, res := ⟨0x3F800000, 0x3F800000⟩, agenda := es }

/-- t0 with BUF = [(1, 0), (1, 0)] and BITREV-like commands or writes to come. -/
def withTwo (w : Word) (es : List Event) : State := { (withBuf [⟨0x3F800000, 0⟩, ⟨0x3F800000, 0⟩]).accept w with agenda := es }

theorem test_witness_WorkedEncodings : ({ t0 with cmd := 0x00081013 } : State).cmd = 0x00081013 := rfl

theorem test_witness_DecodeOfEncodeIsTheCommand :
    (Instr.fftDft 65535).wellFormed = true ∧ (Instr.fcfgHpf2 15).wellFormed = true ∧ Instr.cadd.wellFormed = true := by decide

theorem test_witness_DecodedWordIsTheEncoding : decode 0xFFFF0010 = .ok (.fftDft 65535) := rfl

theorem test_witness_DecoderFollowsTheOpcodeMap :
    (∃ r ∈ opcodeMap, r.selects 0x00000F28 = true) ∧ decode 0x00000F28 = .ok (.fapply 15) ∧
    decode 0x00000029 = .error .unassignedOp := ⟨⟨_, by simp [opcodeMap], (by decide :
      (⟨0x00000028, 0xFFFFF0FF⟩ : OpcodeRow).selects 0x00000F28 = true)⟩, rfl, rfl⟩

theorem test_witness_AcceptanceOfACommandWord :
    let s := withAgenda [.write 0x20008 .four 0x00000028]
    s.base % 4 = 0 ∧ s.status.busy = false ∧ s.agenda = .write (s.base + 0x008) .four 0x00000028 :: [] := by decide

theorem test_witness_StepRunsTheDecodedCommand :
    (pending 0x00000001 [.engine]).status.busy = true ∧ decode (pending 0x00000001 [.engine]).cmd = .ok .cadd ∧
    (pending 0x00000001 [.engine]).agenda = .engine :: [] ∧ (pending 0x00000001 []).agenda = [] := ⟨rfl, rfl, rfl, rfl⟩

theorem test_witness_IllegalWordCompletesWithIllegalCmd :
    (pending 0x00001028 [.engine]).status.busy = true ∧
    (∀ r ∈ opcodeMap, r.selects (pending 0x00001028 [.engine]).cmd = false) ∧
    (pending 0x00001028 [.engine]).agenda = .engine :: [] := by decide

/-- Every code of R187's check, at a boundary: NCH = 4 and NMAX = 16. -/
theorem test_witness_EngineCompletesWithTheCheckCode :
    checkCode t0 0x00000000 = .illegalCmd ∧ checkCode t0 0x00000428 = .badChannel ∧ checkCode t0 0x00000328 = .notConfigured ∧
    checkCode t0 0x00110010 = .badLength ∧ checkCode t0 0x00100010 = .noError ∧ checkCode t0 0x00000011 = .badLength ∧
    checkCode t0 0x00100011 = .noError ∧ checkCode t0 0x00000320 = .noError := by decide

theorem test_witness_EveryAcceptedCommandCompletes :
    (pending 0x00000001 [.read 0x20004 .four, .read 0x40000 .one]).status.busy = true ∧
    agendaDefined (pending 0x00000001 [.read 0x20004 .four, .read 0x40000 .one]) := by
  refine ⟨rfl, fun e he => ?_⟩
  rcases List.mem_cons.1 he with rfl | he
  · decide
  · rcases List.mem_cons.1 he with rfl | he
    · decide
    · cases he

/-- An illegal word, and a command of each class that changes what its class may change. -/
theorem test_witness_EngineLeavesOperandsAlone :
    (∀ w ∈ [0x00000000, 0x00000001, 0x00100014, 0x00000320, 0x00000328],
      runCommand (pending w []) = .next (after (runCommand (pending w [])))) ∧
    (after (runCommand (withRes []))).res ≠ (withRes []).res ∧
    (after (runCommand (withTwo 0x00020011 []))).bufByte 0x10003 ≠ (withTwo 0x00020011 []).bufByte 0x10003 ∧
    (after (runCommand (pending 0x00000320 []))).chan 3 ≠ (pending 0x00000320 []).chan 3 := by
  refine ⟨fun w h => ?_, by decide, by decide, by decide⟩
  simp only [List.mem_cons, List.mem_nil_iff, or_false] at h
  rcases h with rfl | rfl | rfl | rfl | rfl <;> rfl

/-- BUSY = 1, and BUSY = 0 with an error code. -/
theorem test_witness_StatusWordLayout :
    (let s := pending 0x00000001 [.read 0x2000C .four]
     s.base % 4 = 0 ∧ s.agenda = .read (s.base + 0x00C) .four :: []) ∧
    (let s := flagged [.read 0x2000C .four]
     s.base % 4 = 0 ∧ s.agenda = .read (s.base + 0x00C) .four :: [] ∧ s.status.err = .badLength) := by decide

theorem test_witness_StatusWriteAcknowledges :
    let s := pending 0x00000001 [.write 0x2000C .four 0x00000102]
    s.base % 4 = 0 ∧ s.agenda = .write (s.base + 0x00C) .four 0x00000102 :: [] := by decide

theorem test_witness_CtrlWriteSetsTheEnables :
    (let s := pending 0x00000001 [.write 0x20010 .four 0xFFFFFFFE]
     s.base % 4 = 0 ∧ s.agenda = .write (s.base + 0x010) .four 0xFFFFFFFE :: []) ∧
    (let s := pending 0x00000001 [.read 0x20010 .four]
     s.base % 4 = 0 ∧ s.agenda = .read (s.base + 0x010) .four :: []) ∧
    (let s := withAgenda [.write 0x20010 .four 0xFFFFFFFE, .read 0x20010 .four]
     s.base % 4 = 0 ∧ s.agenda = .write (s.base + 0x010) .four 0xFFFFFFFE :: .read (s.base + 0x010) .four :: []) := by
  decide

theorem test_witness_IdAndInfoAreConstants :
    (pending 0x28 [.read 0x20000 .four]).Inv ∧ (withAgenda [.read 0x20004 .four]).Inv ∧
    (pending 0x28 [.read 0x20000 .four]).agenda = .read ((pending 0x28 [.read 0x20000 .four]).base + 0x000) .four :: [] ∧
    (withAgenda [.read 0x20004 .four]).agenda = .read ((withAgenda [.read 0x20004 .four]).base + 0x004) .four :: [] :=
  ⟨inv_pending _ _, inv_withAgenda _, rfl, rfl⟩

theorem test_witness_BusyErrIsSetByViolationsAndSticky_set :
    (pending 0x28 [.write 0x20008 .four 0]).Inv ∧ Steps (pending 0x28 [.write 0x20008 .four 0]) ∧
    (pending 0x28 [.write 0x20008 .four 0]).status.busyErr = false ∧
    (after (step (pending 0x28 [.write 0x20008 .four 0]))).status.busyErr = true := ⟨inv_pending _ _, rfl, rfl, rfl⟩

theorem test_witness_BusyErrIsSetByViolationsAndSticky_cleared :
    (flagged [.write 0x2000C .four 0x100]).Inv ∧ Steps (flagged [.write 0x2000C .four 0x100]) ∧
    (flagged [.write 0x2000C .four 0x100]).status.busyErr = true ∧
    (after (step (flagged [.write 0x2000C .four 0x100]))).status.busyErr = false ∧
    (flagged [.reset]).Inv ∧ Steps (flagged [.reset]) ∧ (after (step (flagged [.reset]))).status.busyErr = false :=
  ⟨inv_with _ _ _ nofun, rfl, rfl, rfl, inv_with _ _ _ nofun, rfl, rfl⟩

theorem test_witness_ErrCodeIsKeptUntilTheNextCommand :
    (Steps (flagged [.reset]) ∧ (after (step (flagged [.reset]))).status.err ≠ (flagged [.reset]).status.err) ∧
    (Steps (flagged [.write 0x20008 .four 0]) ∧
      (after (step (flagged [.write 0x20008 .four 0]))).status.err ≠ (flagged [.write 0x20008 .four 0]).status.err) ∧
    (Steps (pending 0 [.engine]) ∧ (after (step (pending 0 [.engine]))).status.err ≠ (pending 0 [.engine]).status.err) :=
  ⟨⟨rfl, by decide⟩, ⟨rfl, by decide⟩, ⟨rfl, by decide⟩⟩

theorem test_witness_OnlyUndefinedAccessesStop :
    eventDefined t0 (.read 0x20001 .four) = false ∧ eventDefined t0 (.write 0x3FFFF .one 0) = false ∧
    eventDefined t0 (.read 0x40001 .one) = true ∧ eventDefined t0 (.read 0x1FFFF .one) = true ∧
    eventDefined t0 (.read 0x3FFFC .four) = true := by decide

theorem test_witness_AccessOutsideTheWindowHasNoEffect :
    ((0x1FFFF : Nat) < t0.base ∨ t0.base + 0x20000 ≤ 0x1FFFF) ∧ ((0x40000 : Nat) < t0.base ∨ t0.base + 0x20000 ≤ 0x40000) ∧
    (withAgenda [.read 0x1FFFF .one]).agenda = .read 0x1FFFF .one :: [] ∧
    (withAgenda [.write 0x40000 .four 1]).agenda = .write 0x40000 .four 1 :: [] := by decide

/-- The edges of the unmapped ranges: below OPA, above RES, above a channel, channel NCH, above the channels, below BUF,
entry NMAX, the last word. -/
theorem test_witness_UnmappedWordsReadZeroAndIgnoreWrites :
    (∀ off ∈ [0x14, 0x1C, 0x38, 0xFC, 0x144, 0x17C, 0x300, 0x900, 0xFFFC, 0x10080, 0x1FFFC],
      ¬ isMappedOffset (withAgenda [.read (0x20000 + off) .four]) off ∧
      hostReads (withAgenda [.read (0x20000 + off) .four]) off ∧
      ¬ isMappedOffset (pending 0x28 [.write (0x20000 + off) .four 1]) off ∧
      hostWrites (pending 0x28 [.write (0x20000 + off) .four 1]) off 1) ∧
    (∀ es, (withAgenda es).Inv) ∧ (∀ es, (pending 0x28 es).Inv) := by
  refine ⟨fun off h => ?_, inv_withAgenda, inv_pending _⟩
  simp only [List.mem_cons, List.mem_nil_iff, or_false] at h
  refine ⟨not_mapped rfl rfl _ (by omega) (by omega) (by omega) (by omega), reads_at rfl (by omega) (by omega) rfl,
    not_mapped rfl rfl _ (by omega) (by omega) (by omega) (by omega), writes_at rfl (by omega) (by omega) rfl⟩

/-- ID, INFO, RES, and of the last channel FSTAT, Y_OUT and YOLD1. -/
theorem test_witness_ReadOnlyWordsIgnoreWrites (off : Nat) (h : off ∈ [0x00, 0x04, 0x30, 0x34, 0x280, 0x294, 0x2C0]) :
    let s := withAgenda [.write (0x20000 + off) .four 0xFFFFFFFF]
    s.Inv ∧ s.status.busy = false ∧ isMappedOffset s off ∧ ¬ isStoringOffset s off ∧ off ≠ 0x00C ∧ off ≠ 0x010 ∧
      hostWrites s off 0xFFFFFFFF := by
  simp only [List.mem_cons, List.mem_nil_iff, or_false] at h
  refine ⟨inv_withAgenda _, rfl, ?_, ?_, by omega, by omega, writes_at rfl (by omega) (by omega) rfl⟩
  · by_cases h1 : off < 0x14
    · exact .inl h1
    by_cases h2 : off < 0x38
    · exact .inr (.inl ⟨by omega, h2⟩)
    · exact .inr (.inr (.inl ⟨3, off - 0x280, Nat.lt_succ_self 3, by omega, by omega, by omega⟩))
  · rintro (h' | ⟨h', h''⟩ | ⟨c, o, hc, _, ho, he⟩ | ⟨h', _⟩) <;> omega

/-- ID and INFO while BUSY = 1. -/
theorem test_witness_ReadOnlyWordsIgnoreWrites_busy (off : Nat) (h : off ∈ [0x00, 0x04]) :
    let s := pending 0x28 [.write (0x20000 + off) .four 0xFFFFFFFF]
    s.Inv ∧ s.status.busy = true ∧ (off = 0x000 ∨ off = 0x004) ∧ hostWrites s off 0xFFFFFFFF := by
  simp only [List.mem_cons, List.mem_nil_iff, or_false] at h
  exact ⟨inv_pending _ _, rfl, h, writes_at rfl (by omega) (by omega) rfl⟩

theorem test_witness_ReadsHaveNoSideEffect :
    Steps (pending 0x28 [.read 0x20020 .four]) ∧ Steps (withAgenda [.read 0x30000 .four]) ∧
    Steps (withAgenda [.read 0x00000 .one]) := ⟨rfl, rfl, rfl⟩

/-- CMD, the ends of OPA .. RES, of a channel and of BUF. -/
theorem test_witness_BusyWriteIsDroppedAndFlagged (off : Nat)
    (h : off ∈ [0x08, 0x20, 0x34, 0x280, 0x2C0, 0x10000, 0x1007C]) :
    let s := pending 0x28 [.write (0x20000 + off) .four 1]
    s.Inv ∧ s.status.busy = true ∧ hostWrites s off 1 ∧ (off = 0x008 ∨ isDataSetOffset s off) := by
  simp only [List.mem_cons, List.mem_nil_iff, or_false] at h
  refine ⟨inv_pending _ _, rfl, writes_at rfl (by omega) (by omega) rfl, ?_⟩
  by_cases h1 : off = 8
  · exact .inl h1
  by_cases h2 : off < 0x38
  · exact .inr (.inl ⟨by omega, h2⟩)
  by_cases h3 : off < 0x10000
  · exact .inr (.inr (.inl ⟨3, off - 0x280, Nat.lt_succ_self 3, by omega, by omega, by omega⟩))
  · exact .inr (.inr (.inr ⟨by omega, (by omega : off < 0x10000 + 8 * 16)⟩))

theorem test_witness_BusyReads :
    (pending 0x28 [.read 0x20008 .four]).Inv ∧ hostReads (pending 0x28 [.read 0x20008 .four]) 0x008 ∧
    (pending 0x28 [.read 0x30000 .four]).Inv ∧ hostReads (pending 0x28 [.read 0x30000 .four]) 0x10000 ∧
    isDataSetOffset (pending 0x28 [.read 0x30000 .four]) 0x10000 ∧ (pending 0x28 []).status.busy = true :=
  ⟨inv_pending _ _, reads_at rfl (by omega) (by omega) rfl, inv_pending _ _, reads_at rfl (by omega) (by omega) rfl,
    .inr (.inr ⟨by omega, (by omega : 0x10000 < 0x10000 + 8 * 16)⟩), rfl⟩

/-- CMD, OPA_RE, OPB_IM, TS and U_IN of the last channel, the first and the last word of BUF. -/
theorem test_witness_WrittenWordIsReadBack (off : Nat) (h : off ∈ [0x08, 0x20, 0x2C, 0x284, 0x290, 0x10000, 0x1007C]) :
    let s := withAgenda [.write (0x20000 + off) .four 7, .read (0x20000 + off) .four]
    s.Inv ∧ s.status.busy = false ∧ off < 0x20000 ∧ off % 4 = 0 ∧ isStoringOffset s off ∧
      s.agenda = .write (s.base + off) .four 7 :: .read (s.base + off) .four :: [] := by
  simp only [List.mem_cons, List.mem_nil_iff, or_false] at h
  refine ⟨inv_withAgenda _, rfl, by omega, by omega, ?_, rfl⟩
  by_cases h1 : off = 8
  · exact .inl h1
  by_cases h2 : off < 0x30
  · exact .inr (.inl ⟨by omega, h2⟩)
  by_cases h3 : off < 0x10000
  · exact .inr (.inr (.inl ⟨3, off - 0x280, Nat.lt_succ_self 3, by omega, by omega, by omega⟩))
  · exact .inr (.inr (.inr ⟨by omega, (by omega : off < 0x10000 + 8 * 16)⟩))

/-- RES_IM, A1 and YOLD1 of the last channel, its FSTAT, and both parts of the last entry of BUF. -/
theorem test_witness_WrittenWordIsReadBack_registers :
    (∀ es, (withAgenda es).Inv ∧ (withAgenda es).status.busy = false) ∧
    (0x034, (withRes []).res.im) ∈ registerTable (withRes []) ∧
    (0x18, (t0.chan 3).a1) ∈ channelTable (t0.chan 3) ∧ (0x40, (t0.chan 3).yOld1) ∈ channelTable (t0.chan 3) ∧
    3 < t0.nch ∧ 15 < t0.nmax ∧
    (withAgenda [.read 0x20034 .four]).agenda = .read (t0.base + 0x034) .four :: [] ∧
    (withAgenda [.read 0x20298 .four]).agenda = .read (t0.base + (0x100 + 0x80 * 3 + 0x18)) .four :: [] ∧
    (withAgenda [.read 0x20280 .four]).agenda = .read (t0.base + (0x100 + 0x80 * 3)) .four :: [] ∧
    (withAgenda [.read 0x30078 .four]).agenda = .read (t0.base + (0x10000 + 8 * 15)) .four :: [] ∧
    (withAgenda [.read 0x3007C .four]).agenda = .read (t0.base + (0x10004 + 8 * 15)) .four :: [] :=
  ⟨fun es => ⟨inv_withAgenda es, rfl⟩, by decide, by decide, by decide, by decide, by decide, rfl, rfl, rfl, rfl, rfl⟩

theorem test_witness_NoWordAliasesAnother :
    (withAgenda []).Inv ∧ (withAgenda []).status.busy = false ∧ (0x10000 : Nat) < 0x20000 ∧ (0x10004 : Nat) < 0x20000 ∧
    (0x10000 : Nat) % 4 = 0 ∧ (0x10004 : Nat) % 4 = 0 ∧ (0x10000 : Nat) ≠ 0x10004 ∧ (0x10000 : Nat) ≠ 0x008 :=
  ⟨inv_withAgenda _, rfl, by decide, by decide, by decide, by decide, by decide, by decide⟩

theorem test_witness_DroppedWriteDoesNotAffectTheCommand :
    let s := pending 0x00000001 [.write 0x20020 .four 1, .engine]
    s.Inv ∧ s.status.busy = true ∧ isDataSetOffset s 0x020 ∧ s.agenda = .write (s.base + 0x020) .four 1 :: .engine :: [] :=
  ⟨inv_pending _ _, rfl, .inl ⟨by omega, by omega⟩, rfl⟩

theorem test_witness_WordsAfterReset : (0x008 : Nat) % 4 = 0 ∧ (0x0FFFC : Nat) % 4 = 0 ∧ (0x0FFFC : Nat) < 0x10000 := by
  decide

theorem test_witness_ResetEventRestoresEveryRegister :
    (pending 0x28 [.reset, .engine]).agenda = .reset :: [.engine] ∧ 3 < (pending 0x28 [.reset, .engine]).nch := by decide

theorem test_witness_IdleCoreHoldsItsState : State.reset.agenda = [] ∧ State.reset.status.busy = false := ⟨rfl, rfl⟩

theorem test_witness_EveryStepKeepsTheInvariant :
    (pending 0x00000020 [.engine]).Inv ∧ Steps (pending 0x00000020 [.engine]) ∧
    (withAgenda [.write 0x3007C .four 1]).Inv ∧ Steps (withAgenda [.write 0x3007C .four 1]) ∧
    (flagged [.reset]).Inv ∧ Steps (flagged [.reset]) :=
  ⟨inv_pending _ _, rfl, inv_withAgenda _, rfl, inv_with _ _ _ nofun, rfl⟩

theorem test_witness_ParametersNeverChange : Steps (withAgenda [.reset]) := rfl

theorem test_witness_ResChangesOnlyByComplexCommands :
    (Steps (withRes [.engine]) ∧ (after (step (withRes [.engine]))).res ≠ (withRes [.engine]).res) ∧
    (Steps (withRes [.reset]) ∧ (after (step (withRes [.reset]))).res ≠ (withRes [.reset]).res) :=
  ⟨⟨rfl, by decide⟩, ⟨rfl, by decide⟩⟩

/-- FFT_RS 2 of [1, 1] gives [2, 0], so byte 0x10003 changes; a HOST write changes byte 0x10000. -/
theorem test_witness_BufChangesOnlyByFftCommandsAndHost :
    ((withTwo 0x00020011 [.engine]).base % 4 = 0 ∧ Steps (withTwo 0x00020011 [.engine]) ∧
      (after (step (withTwo 0x00020011 [.engine]))).bufByte 0x10003 ≠ (withTwo 0x00020011 [.engine]).bufByte 0x10003) ∧
    (let s := { withBuf [⟨0, 0⟩] with agenda := [.write 0x30000 .four 1] }
     Steps s ∧ (after (step s)).bufByte 0x10000 ≠ s.bufByte 0x10000) :=
  ⟨⟨rfl, rfl, by decide⟩, ⟨rfl, by decide⟩⟩

theorem test_witness_ChannelStateChangesOnlyByItsCommands :
    0 < (pending 0x00000120 [.engine]).nch ∧ Steps (pending 0x00000120 [.engine]) ∧ ¬ resetHappens (pending 0x00000120 [.engine]) ∧
    ¬ (engineRuns (pending 0x00000120 [.engine]) (.fcfgLpf1 0) ∨ engineRuns (pending 0x00000120 [.engine]) (.fcfgHpf1 0) ∨
       engineRuns (pending 0x00000120 [.engine]) (.fcfgLpf2 0) ∨ engineRuns (pending 0x00000120 [.engine]) (.fcfgHpf2 0)) ∧
    ¬ engineRuns (pending 0x00000120 [.engine]) (.fapply 0) := by
  have hd : decode (pending 0x00000120 [.engine]).cmd = .ok (.fcfgLpf1 1) := rfl
  refine ⟨by decide, rfl, (by rintro ⟨_, h⟩; cases h), ?_, ?_⟩
  · rintro (⟨_, h, _⟩ | ⟨_, h, _⟩ | ⟨_, h, _⟩ | ⟨_, h, _⟩) <;> rw [hd] at h <;> cases h
  · rintro ⟨_, h, _⟩; rw [hd] at h; cases h

theorem test_witness_ArithmeticRoundsToNearestEven :
    isFinite 0x7F7FFFFF = true ∧ isFinite 0x00000001 = true ∧ isZero 0x00000001 = false := by decide

theorem test_witness_ConversionOfSmallNaturalsIsExact : 16777215 < 2 ^ 24 := by decide

theorem test_witness_SignsOfZeros :
    (isFinite 0x80000000 = true ∧ value 0x80000000 + value 0x00000000 = 0 ∧ value 0x80000000 - value 0x00000000 = 0) ∧
    (isFinite 0x00000001 = true ∧ isZero (fmul 0x80000001 0x00000001) = true) ∧
    (isNaN 0x7F800000 = false ∧ isZero 0x7F800000 = false ∧ isZero (fdiv 0x3F800000 0x7F800000) = true) ∧
    isNaN 0x7F800000 = false := by
  refine ⟨⟨by decide, ?_⟩, by decide, by decide, by decide⟩
  have h1 : units 0x80000000#32 = 0 := by decide
  have h2 : units 0x00000000#32 = 0 := by decide
  simp [value, h1, h2]

theorem test_witness_InfinitiesAndNaNs :
    isNaN 0xFF800001 = true ∧ isInf 0x7F800000 = true ∧ isInf 0xFF800000 = true ∧ isFinite 0x7F7FFFFF = true ∧
    isNaN 0x80000000 = false ∧ isZero 0x80000000 = true ∧ isNaN 0x00000001 = false ∧ isZero 0x00000001 = false ∧
    isFinite 0x00000001 = true := by decide

theorem test_witness_ComputedNaNsAreCanonical :
    isNaN (fadd 0x7F800000 0xFF800000) = true ∧ isNaN (fsub 0x7F800000 0x7F800000) = true ∧
    isNaN (fmul 0x7F800000 0) = true ∧ isNaN (fdiv 0 0) = true ∧ isNaN (fneg 0x7FC00001) = true ∧
    isNaN (Config.fcos 0x7F800000) = true ∧ isNaN (Config.fsin 0x7FC00001) = true := by decide

theorem test_witness_CosineAndSineProperties :
    isFinite 0x7F7FFFFF = true ∧ isFinite 0x7F800000 = false ∧ isFinite 0x7FC00000 = false := by decide

theorem test_witness_ComplexCommandFrame :
    classOf .cpolar = .complex ∧ exec .cadd t0 = .next (after (exec .cadd t0)) := ⟨rfl, rfl⟩

theorem test_witness_IllegalLengthIsRejected :
    t0.nmax < 17 ∧ (∀ p, 0 ≠ 2 ^ p) ∧ (∀ p, 3 ≠ 2 ^ p) := by
  refine ⟨by decide, fun p h => absurd h (Nat.two_pow_pos p).ne, fun p h => ?_⟩
  have := congrArg Nat.log2 h
  rw [Nat.log2_two_pow] at this
  have h1 : p = 1 := by rw [← this]; decide
  subst h1
  omega

theorem test_witness_DirectTransformResult : 1 ≤ 16 ∧ 16 ≤ t0.nmax := by decide

theorem test_witness_FastTransformsResult : 0 ≤ t0.log2Nmax ∧ 4 ≤ t0.log2Nmax := by decide

theorem test_witness_BitReversalResult : 4 ≤ t0.log2Nmax ∧ 15 < 2 ^ 4 := by decide

theorem test_witness_BitReversalTwiceRestoresBuf : 4 ≤ t0.log2Nmax := by decide

theorem test_witness_FftCommandFrame :
    exec (.bitrev 16) t0 = .next (after (exec (.bitrev 16) t0)) ∧ (0xFFFF : Nat) < 0x10000 ∧ 0x10000 + 8 * 16 ≤ 0x10080 :=
  ⟨rfl, by decide, by decide⟩

theorem test_witness_FirstOrderConstructions :
    3 < t0.nch ∧ isNaN (fdiv (fmul 0x3F800000 0x40C00000) (fadd (fmul 0x3F800000 0x40C00000) 0x40000000)) = false ∧
    isNaN (fdiv (fmul 0x7F800000 0x40C00000) (fadd (fmul 0x7F800000 0x40C00000) 0x40000000)) = true := by decide

theorem test_witness_SecondOrderConstructions : 3 < t0.nch := by decide

/-- Channel 0 of one state and channel 3 of another, both with every parameter +0. -/
theorem test_witness_ConstructionStartsAFreshFilter :
    0 < t0.nch ∧ 3 < (flagged []).nch ∧ (t0.chan 0).ts = ((flagged []).chan 3).ts ∧ (t0.chan 0).wn = ((flagged []).chan 3).wn ∧
    (t0.chan 0).zeta = ((flagged []).chan 3).zeta ∧
    exec (Instr.fcfgLpf1 0) t0 = .next (after (exec (Instr.fcfgLpf1 0) t0)) ∧
    exec (Instr.fcfgLpf1 3) (flagged []) = .next (after (exec (Instr.fcfgLpf1 3) (flagged []))) ∧
    exec (Instr.fcfgHpf2 0) t0 = .next (after (exec (Instr.fcfgHpf2 0) t0)) ∧
    exec (Instr.fcfgHpf2 3) (flagged []) = .next (after (exec (Instr.fcfgHpf2 3) (flagged []))) :=
  ⟨by decide, by decide, rfl, rfl, rfl, rfl, rfl, rfl, rfl⟩

/-- Channel 0 constructed as LPF1 and channel 3 as HPF2, its coefficients NaNs (TS and WN are +0). -/
def constructed : State := after (exec (.fcfgHpf2 3) (after (exec (.fcfgLpf1 0) t0)))

theorem test_witness_FilterSteps :
    0 < constructed.nch ∧ 3 < constructed.nch ∧ (constructed.chan 0).valid = true ∧ (constructed.chan 0).kind = .lpf1 ∧
    (constructed.chan 3).valid = true ∧ (constructed.chan 3).kind = .hpf2 := by decide

theorem test_witness_FilterCommandRejections : t0.nch ≤ 4 ∧ 3 < t0.nch ∧ (t0.chan 3).valid = false := by decide

theorem test_witness_FilterCommandFrame : exec (.fapply 3) constructed = .next (after (exec (.fapply 3) constructed)) := rfl

theorem test_witness_FilterStepsOfTwoChannelsCommute :
    (0 : Nat) ≠ 3 ∧ 0 < constructed.nch ∧ 3 < constructed.nch ∧ (constructed.chan 0).valid = true ∧
    (constructed.chan 3).valid = true := by decide

/-- FAPPLY pending on the poisoned channel 3. -/
def poisoned : State := { constructed.accept 0x00000328 with agenda := [.engine] }

theorem test_witness_NaNStaysInAFilter :
    3 < poisoned.nch ∧ isPoisoned (poisoned.chan 3) ∧ Steps poisoned ∧ ¬ resetHappens poisoned ∧
    ¬ (engineRuns poisoned (.fcfgLpf1 3) ∨ engineRuns poisoned (.fcfgHpf1 3) ∨ engineRuns poisoned (.fcfgLpf2 3) ∨
       engineRuns poisoned (.fcfgHpf2 3)) ∧
    engineRuns poisoned (.fapply 3) ∧ (poisoned.chan 3).valid = true := by
  have hd : decode poisoned.cmd = .ok (.fapply 3) := rfl
  refine ⟨by decide, .inr (.inr (.inl (by decide))), rfl, (by rintro ⟨_, h⟩; cases h), ?_,
    ⟨rfl, hd, .inr ⟨[], rfl⟩⟩, by decide⟩
  rintro (⟨_, h, _⟩ | ⟨_, h, _⟩ | ⟨_, h, _⟩ | ⟨_, h, _⟩) <;> rw [hd] at h <;> cases h

end Sys2Proof.Tests
end

/-! The invariant of the machine and the parameters, kept by every step (00_scope.md R6; 10_state.md R26, R30). -/

namespace Sys2Proof.Machine

/-! ### The parameters -/

/-- No command changes a parameter. -/
theorem ExecEffect.parameters {i : Instr} {s t : State} (h : ExecEffect i s t) :
    t.log2Nmax = s.log2Nmax ∧ t.nch = s.nch ∧ t.base = s.base := by
  cases h <;> simp

/-- No write changes a parameter. -/
theorem WriteEffect.parameters {s t : State} {off : Nat} {w : Word} (h : WriteEffect s off w t) :
    t.log2Nmax = s.log2Nmax ∧ t.nch = s.nch ∧ t.base = s.base := by
  cases h with
  | chan => simp
  | _ => exact ⟨rfl, rfl, rfl⟩

/-- Settles O33: no effect of a step touches the parameters; only a channel update and the reset event rebuild the list
whose length is NCH. -/
theorem parametersNeverChange : Obligations.ParametersNeverChange := by
  intro s t h
  cases step_next h with
  | idle | illegal | outside => exact ⟨rfl, rfl, rfl⟩
  | run rest _ _ i _ _ he => exact (exec_next he).parameters
  | reset rest => simp
  | read off rest =>
    obtain ⟨v, d, hr⟩ := busRead_eq { s with agenda := rest } off
    rw [hr]
    exact ⟨rfl, rfl, rfl⟩
  | write off w rest => exact (busWrite_effect { s with agenda := rest } off w).parameters

/-! ### The invariant of a channel -/

theorem Channel.Inv.reset : Channel.reset.Inv := ⟨by decide, by decide⟩

/-- HOST reaches only TS, WN, ZETA and U_IN, of which the invariant does not speak. -/
theorem Channel.Inv.write {ch : Channel} (h : ch.Inv) (w : Word) (r : ChanReg) : (ch.write w r).Inv := by
  cases r <;> exact ⟨h.unconfigured, h.firstOrder⟩

/-- A construction of a kind configures the channel, and one of first order gives +0 to the second-order registers. -/
theorem Channel.Inv.configure (ch : Channel) (kind : Kind) : (ch.configure kind (coeffsOf kind ch)).Inv where
  unconfigured h := nomatch h
  firstOrder h := by
    cases kind with
    | lpf1 | hpf1 => exact ⟨rfl, rfl, rfl, rfl, rfl, rfl⟩
    | lpf2 | hpf2 => nomatch h

@[simp] theorem Channel.step_valid (ch : Channel) : ch.step.valid = ch.valid := by
  unfold Channel.step
  split <;> rfl

@[simp] theorem Channel.step_kind (ch : Channel) : ch.step.kind = ch.kind := by
  unfold Channel.step
  split <;> rfl

/-- A step of a first-order channel neither reads nor writes UOLD1 and YOLD1 (R117). -/
theorem Channel.step_of_firstOrder {ch : Channel} (h : ch.kind.secondOrder = false) : ch.step = ch.apply1 := by
  simp [Channel.step, h]

theorem Channel.Inv.step {ch : Channel} (h : ch.Inv) (hv : ch.valid = true) : ch.step.Inv where
  unconfigured hv' := by simp [hv] at hv'
  firstOrder hk := by
    rw [Channel.step_kind] at hk
    rw [Channel.step_of_firstOrder hk]
    exact h.firstOrder hk

/-! ### The invariant of the machine, operation by operation -/

namespace State.Inv

variable {s : State} (h : s.Inv)
include h

/-- A mapped channel meets its invariant. -/
theorem chan {c : Nat} (hc : c < s.nch) : (s.chan c).Inv := by
  have hc' : c < s.chans.length := hc
  rw [State.chan, List.getD_eq_getElem _ _ hc']
  exact h.channels _ (List.getElem_mem hc')

theorem withAgenda (rest : List Event) : State.Inv { s with agenda := rest } := { h with }

theorem complete (code : ErrCode) : (s.complete code).Inv := { h with busyClear := nofun }

theorem accept (w : Word) : (s.accept w).Inv := { h with busyClear := fun _ => ⟨rfl, rfl⟩ }

/-- An acknowledgement only clears bits (R191). -/
theorem statusWrite (w : Word) : State.Inv { s with status := s.status.write w } :=
  { h with busyClear := fun hb => by simp [Status.write, h.busyClear hb] }

theorem setChan (c : Nat) {ch : Channel} (hch : ch.Inv) : (s.setChan c ch).Inv :=
  { h with
    nchLegal := by simpa using h.nchLegal
    channels := fun x hx => (List.mem_or_eq_of_mem_set hx).elim (h.channels x) fun hxc => hxc ▸ hch }

/-- A list of bytes in canonical form, whose new entries are of mapped offsets, may replace BUF's. -/
theorem setBuf {m : Memory} (hwf : m.wf = true)
    (hm : ∀ cell ∈ m, (bufOffset 0 ≤ cell.1 ∧ cell.1 < bufOffset s.nmax) ∨ cell ∈ s.buf) :
    State.Inv { s with buf := m } :=
  { h with bufRising := hwf, bufMapped := fun cell hc => (hm cell hc).elim id (h.bufMapped cell) }

/-- A word of a mapped entry lists mapped offsets only (R54). -/
theorem insertWord {i a : Nat} (hi : i < s.nmax) (ha : a = bufOffset i ∨ a = bufOffset i + 4) (w : Word) :
    State.Inv { s with buf := s.buf.insertWord a w } := by
  refine h.setBuf (Memory.wf_insertWord h.bufRising a w) fun cell hc => (Memory.mem_insertWord hc).imp_left fun hr => ?_
  simp only [bufOffset] at ha ⊢
  omega

/-- At most NMAX entries list mapped offsets only (R54). -/
theorem storeBuf {xs : List Cplx} (hl : xs.length ≤ s.nmax) : (s.storeBuf xs).Inv := by
  refine h.setBuf (Memory.wf_insertEntries h.bufRising 0 xs) fun cell hc =>
    (Memory.mem_insertEntries hc).imp_left fun hr => ?_
  simp only [bufOffset] at hr ⊢
  omega

theorem resetEvent : s.resetEvent.Inv :=
  { h with
    bufRising := rfl
    bufMapped := nofun
    nchLegal := by simpa using h.nchLegal
    busyClear := nofun
    channels := fun _ hc => List.eq_of_mem_replicate hc ▸ Channel.Inv.reset }

theorem busRead (off : Nat) : (s.busRead off).Inv := by
  obtain ⟨v, d, hr⟩ := busRead_eq s off
  rw [hr]
  exact { h with }

/-! ### What a write, a command and a step do -/

theorem of_writeEffect {t : State} {off : Nat} {w : Word} (he : WriteEffect s off w t) : t.Inv := by
  cases he with
  | dropped => exact { h with }
  | accept => exact h.accept w
  | status => exact h.statusWrite w
  | ctrl | opA | opB => exact { h with }
  | chan _ c r _ hc => exact h.setChan c ((h.chan hc).write w r)
  | buf _ i a hi ha => exact h.insertWord hi ha w
  | ignored => exact h

theorem of_execEffect {t : State} {i : Instr} (he : ExecEffect i s t) : t.Inv := by
  cases he with
  | error code => exact h.complete code
  | complex x => exact complete (s := s.setRes x) { h with } _
  | buffer n xs _ hl hn => exact (h.storeBuf (hl.trans_le hn)).complete _
  | construct c kind => exact (h.setChan c (Channel.Inv.configure _ kind)).complete _
  | apply c _ hc hv => exact (h.setChan c ((h.chan hc).step hv)).complete _

theorem of_stepEffect {t : State} (he : StepEffect s t) : t.Inv := by
  cases he with
  | idle rest | outside _ rest => exact h.withAgenda rest
  | illegal rest => exact (h.withAgenda rest).complete _
  | run rest _ _ i _ _ he => exact (h.withAgenda rest).of_execEffect (exec_next he)
  | reset rest => exact (h.withAgenda rest).resetEvent
  | read off rest => exact (h.withAgenda rest).busRead off
  | write off w rest => exact (h.withAgenda rest).of_writeEffect (busWrite_effect _ off w)

end State.Inv

/-- Settles O32: each effect that a step can have keeps the invariant. -/
theorem everyStepKeepsTheInvariant : Obligations.EveryStepKeepsTheInvariant :=
  fun _ _ h hs => h.of_stepEffect (step_next hs)

end Sys2Proof.Machine

/-! Binary32 arithmetic (00_scope.md R8, R9): the classes of words, and the four operations on finite operands. -/

namespace Sys2Proof.Machine

/-! ### The classes of words: finite, infinite, NaN -/

section Classes

variable {x : Word}

theorem isNaN_of_isFinite (h : isFinite x = true) : isNaN x = false := by
  rw [← Bool.not_eq_true, isNaN_iff]
  exact Nat.not_lt.2 ((isFinite_iff x).1 h).le

theorem isInf_of_isFinite (h : isFinite x = true) : isInf x = false := by
  rw [← Bool.not_eq_true, isInf_iff]
  exact ((isFinite_iff x).1 h).ne

theorem isNaN_of_isInf (h : isInf x = true) : isNaN x = false := by
  rw [← Bool.not_eq_true, isNaN_iff]
  exact Nat.not_lt.2 ((isInf_iff x).1 h).le

theorem isFinite_of_isZero (h : isZero x = true) : isFinite x = true := by
  rw [isFinite_iff, (isZero_iff x).1 h]
  decide

theorem isZero_of_isInf (h : isInf x = true) : isZero x = false := by
  rw [← Bool.not_eq_true, isZero_iff, (isInf_iff x).1 h]
  decide

theorem isFinite_of_not (hn : isNaN x = false) (hi : isInf x = false) : isFinite x = true := by
  rw [← Bool.not_eq_true, isNaN_iff] at hn
  rw [← Bool.not_eq_true, isInf_iff] at hi
  rw [isFinite_iff]
  omega

/-- The zeros are +0 and -0. -/
theorem eq_pack_zero_of_isZero (h : isZero x = true) : x = pack (signBit x) 0 := by
  rw [← (isZero_iff x).1 h, pack_signBit_magBits]

end Classes

theorem isNaN_pack_zero (s : Bool) : isNaN (pack s 0) = false := by cases s <;> decide

theorem isNaN_pack_infBits (s : Bool) : isNaN (pack s infBits) = false := by cases s <;> decide

/-- An exclusive or of sign bits, as the choice between two words that differ in sign. -/
theorem pack_xor (s t : Bool) (m : Nat) : pack (s != t) m = if s = t then pack false m else pack true m := by
  cases s <;> cases t <;> rfl

/-! ### fneg -/

/-- fneg of a number flips its sign and keeps its magnitude. -/
theorem fneg_eq_pack {x : Word} (h : isNaN x = false) : fneg x = pack (!signBit x) (magBits x) := by
  have he : (x.extractLsb' 0 31).toNat = magBits x := by simp [magBits]
  simp [fneg, h, he]

theorem fneg_of_isNaN {x : Word} (h : isNaN x = true) : fneg x = qNaN := by simp [fneg, h]

theorem signBit_fneg {x : Word} (h : isNaN x = false) : signBit (fneg x) = !signBit x := by
  rw [fneg_eq_pack h, signBit_pack]

@[simp] theorem isNaN_fneg (x : Word) : isNaN (fneg x) = isNaN x := by
  cases h : isNaN x with
  | true => rw [fneg_of_isNaN h]; decide
  | false =>
    rw [← Bool.not_eq_true, isNaN_iff] at h ⊢
    rwa [fneg_eq_pack (by rwa [← Bool.not_eq_true, isNaN_iff]), magBits_pack _ (magBits_lt x)]

theorem magBits_fneg {x : Word} (h : isNaN x = false) : magBits (fneg x) = magBits x := by
  rw [fneg_eq_pack h, magBits_pack _ (magBits_lt x)]

theorem isFinite_fneg {x : Word} (h : isFinite x = true) : isFinite (fneg x) = true := by
  rwa [isFinite_iff, magBits_fneg (isNaN_of_isFinite h), ← isFinite_iff]

theorem isInf_fneg {x : Word} (h : isInf x = true) : isInf (fneg x) = true := by
  rwa [isInf_iff, magBits_fneg (isNaN_of_isInf h), ← isInf_iff]

theorem units_fneg {x : Word} (h : isNaN x = false) : units (fneg x) = -units x := by
  simp only [units, signBit_fneg h, magUnits_eq, magBits_fneg h]
  cases signBit x <;> simp

theorem value_fneg {x : Word} (h : isNaN x = false) : value (fneg x) = -value x := by
  simp [value, units_fneg h, neg_div]

theorem fneg_eq_xor {x : Word} (h : isNaN x = false) : fneg x = x ^^^ 0x80000000#32 := by
  have hs : signBit (x ^^^ 0x80000000#32) = !signBit x := by simp [signBit]
  have hm : (x ^^^ 0x80000000#32).extractLsb' 0 31 = x.extractLsb' 0 31 := by
    rw [BitVec.extractLsb'_xor]
    simp
  refine word_ext ((signBit_fneg h).trans hs.symm) ((magBits_fneg h).trans ?_)
  simpa [magBits] using congrArg BitVec.toNat hm.symm

/-! ### The operations on finite operands -/

/-- A finite value is its sign times its magnitude. -/
theorem value_eq_sign_mul (x : Word) : value x = (if signBit x then -1 else 1) * ((magUnits x : ℚ) / 2 ^ 149) := by
  unfold value units
  cases signBit x <;> simp [neg_div]

theorem sign_xor (s t : Bool) : (if (s != t) = true then (-1 : ℚ) else 1) = (if s then -1 else 1) * if t then -1 else 1 := by
  cases s <;> cases t <;> simp

/-- The sign of a sum: that of the exact sum where it is not 0. -/
def sumSign (a b : Word) : Bool :=
  if units a + units b = 0 then signBit a && signBit b else decide (units a + units b < 0)

theorem fadd_of_isFinite {a b : Word} (ha : isFinite a = true) (hb : isFinite b = true) :
    fadd a b = pack (sumSign a b) (roundMag (units a + units b).natAbs 1) := by
  simp only [fadd, isNaN_of_isFinite ha, isNaN_of_isFinite hb, isInf_of_isFinite ha, isInf_of_isFinite hb, sumSign]
  by_cases h : units a + units b = 0
  · simp [h, show roundMag 0 1 = 0 by decide]
  · simp [h]

theorem fmul_of_isFinite {a b : Word} (ha : isFinite a = true) (hb : isFinite b = true) :
    fmul a b = pack (signBit a != signBit b) (roundMag (magUnits a * magUnits b) (2 ^ 149)) := by
  simp only [fmul, isNaN_of_isFinite ha, isNaN_of_isFinite hb, isInf_of_isFinite ha, isInf_of_isFinite hb]
  rfl

theorem fdiv_of_isFinite {a b : Word} (ha : isFinite a = true) (hb : isFinite b = true) (hz : isZero b = false) :
    fdiv a b = pack (signBit a != signBit b) (roundMag (magUnits a * 2 ^ 149) (magUnits b)) := by
  simp only [fdiv, isNaN_of_isFinite ha, isNaN_of_isFinite hb, isInf_of_isFinite ha, isInf_of_isFinite hb, hz]
  rfl

/-- The sign of a sum above the magnitude of the exact sum is the exact sum. -/
theorem sign_mul_natAbs_sum (a b : Word) :
    (if sumSign a b then -1 else 1) * ((units a + units b).natAbs : ℤ) = units a + units b := by
  unfold sumSign
  generalize units a + units b = v
  by_cases h0 : v = 0
  · simp [h0]
  · by_cases hneg : v < 0
    · simp [h0, hneg, abs_of_neg hneg]
    · simp [h0, hneg, not_lt.1 hneg]

theorem fadd_roundsToNearestEven {a b : Word} (ha : isFinite a = true) (hb : isFinite b = true) :
    RoundsToNearestEven (value a + value b) (fadd a b) := by
  rw [fadd_of_isFinite ha hb]
  refine roundsToNearestEven_roundMag _ _ 1 one_pos _ ?_
  have hs := congrArg (Int.cast : ℤ → ℚ) (sign_mul_natAbs_sum a b)
  push_cast at hs
  rw [← mul_div_assoc, Nat.cast_one, one_mul, Nat.cast_natAbs, Int.cast_abs, Int.cast_add, hs, value, value, add_div]

theorem fsub_roundsToNearestEven {a b : Word} (ha : isFinite a = true) (hb : isFinite b = true) :
    RoundsToNearestEven (value a - value b) (fsub a b) := by
  rw [sub_eq_add_neg, ← value_fneg (isNaN_of_isFinite hb)]
  exact fadd_roundsToNearestEven ha (isFinite_fneg hb)

theorem fmul_roundsToNearestEven {a b : Word} (ha : isFinite a = true) (hb : isFinite b = true) :
    RoundsToNearestEven (value a * value b) (fmul a b) := by
  rw [fmul_of_isFinite ha hb]
  refine roundsToNearestEven_roundMag _ _ _ (Nat.two_pow_pos 149) _ ?_
  rw [value_eq_sign_mul a, value_eq_sign_mul b, sign_xor, Nat.cast_mul, Nat.cast_pow, Nat.cast_ofNat,
    mul_mul_mul_comm, div_mul_div_comm]

theorem fdiv_roundsToNearestEven {a b : Word} (ha : isFinite a = true) (hb : isFinite b = true)
    (hz : isZero b = false) : RoundsToNearestEven (value a / value b) (fdiv a b) := by
  have hmag : magUnits b ≠ 0 := by
    rw [ne_eq, magUnits_eq_zero_iff hb, hz]
    exact Bool.false_ne_true
  have hsign : ((if signBit b then -1 else 1) : ℚ)⁻¹ = if signBit b then -1 else 1 := by cases signBit b <;> norm_num
  rw [fdiv_of_isFinite ha hb hz]
  refine roundsToNearestEven_roundMag _ _ _ (Nat.pos_of_ne_zero hmag) _ ?_
  rw [value_eq_sign_mul a, value_eq_sign_mul b, sign_xor, mul_div_mul_comm, div_eq_mul_inv (ite ..) (ite ..), hsign,
    div_div_div_cancel_right₀ (by positivity), Nat.cast_mul, Nat.cast_pow, Nat.cast_ofNat,
    mul_div_mul_right _ _ (by positivity)]

theorem fcvt_roundsToNearestEven (i : Nat) : RoundsToNearestEven i (fcvt i) := by
  refine roundsToNearestEven_roundMag false _ 1 one_pos _ ?_
  rw [if_neg Bool.false_ne_true, one_mul, Nat.cast_one, one_mul, Nat.cast_mul, Nat.cast_pow, Nat.cast_ofNat,
    mul_div_cancel_right₀ _ (by positivity)]

/-- Settles O37: on finite operands each operation is `roundMag` of its exact result under that result's sign. -/
theorem arithmeticRoundsToNearestEven : Obligations.ArithmeticRoundsToNearestEven :=
  ⟨fun _ _ ha hb => ⟨fadd_roundsToNearestEven ha hb, fsub_roundsToNearestEven ha hb, fmul_roundsToNearestEven ha hb,
    fdiv_roundsToNearestEven ha hb⟩, fcvt_roundsToNearestEven⟩

end Sys2Proof.Machine

/-! What the arithmetic gives apart from rounding (00_scope.md R8, R9, R11): exact conversions, zeros, infinities,
NaNs, cosine and sine. -/

namespace Sys2Proof.Machine

/-! ### Small naturals -/

/-- A positive natural below 2^24 shifted up to 24 bits is a significand. -/
theorem exists_shift_to_significand {i : Nat} (hpos : 0 < i) (hi : i < 2 ^ 24) :
    ∃ j ≤ 23, 2 ^ 23 ≤ i * 2 ^ j ∧ i * 2 ^ j < 2 ^ 24 := by
  have hl : Nat.log2 i < 24 := (Nat.log2_lt hpos.ne').2 hi
  refine ⟨23 - Nat.log2 i, Nat.sub_le .., ?_, ?_⟩
  · calc 2 ^ 23 = 2 ^ Nat.log2 i * 2 ^ (23 - Nat.log2 i) := by rw [← Nat.pow_add]; congr 1; omega
      _ ≤ i * 2 ^ (23 - Nat.log2 i) := Nat.mul_le_mul_right _ (Nat.log2_self_le hpos.ne')
  · calc i * 2 ^ (23 - Nat.log2 i) < 2 ^ (Nat.log2 i + 1) * 2 ^ (23 - Nat.log2 i) :=
          Nat.mul_lt_mul_of_pos_right Nat.lt_log2_self (Nat.two_pow_pos _)
      _ = 2 ^ 24 := by rw [← Nat.pow_add]; congr 1; omega

/-- Every natural below 2^24 is the value of a finite word. -/
theorem exists_value_eq_of_lt {i : Nat} (hi : i < 2 ^ 24) : ∃ v, isFinite v = true ∧ value v = i := by
  rcases Nat.eq_zero_or_pos i with rfl | hpos
  · exact ⟨0#32, by decide, by simp [value, show units 0#32 = 0 by decide]⟩
  obtain ⟨j, hj, hlo, hhi⟩ := exists_shift_to_significand hpos hi
  have hb : i * 2 ^ j + (149 - j) * 2 ^ 23 < infBits := by unfold infBits; omega
  have hb31 : i * 2 ^ j + (149 - j) * 2 ^ 23 < 2 ^ 31 := hb.trans (by decide)
  have hu : bitsUnits (i * 2 ^ j + (149 - j) * 2 ^ 23) = i * 2 ^ 149 := by
    rw [bitsUnits_add hhi.le (.inr hlo), Nat.mul_assoc, ← Nat.pow_add]
    congr 2
    omega
  refine ⟨pack false (i * 2 ^ j + (149 - j) * 2 ^ 23), ?_, ?_⟩
  · rwa [isFinite_iff, magBits_pack _ hb31]
  · rw [value_pack _ hb31, hu, if_neg Bool.false_ne_true, one_mul, Nat.cast_mul, Nat.cast_pow, Nat.cast_ofNat,
      mul_div_cancel_right₀ _ (by positivity)]

/-- Where the exact result is itself a value in range, rounding gives that value. -/
theorem roundsToNearestEven_exact {q : ℚ} {w v : Word} (h : RoundsToNearestEven q w) (hq : |q| < overflowAt)
    (hv : isFinite v = true) (hvq : value v = q) : isFinite w = true ∧ value w = q := by
  refine ⟨h.finite hq, sub_eq_zero.1 (abs_nonpos_iff.1 ?_)⟩
  simpa [hvq] using h.nearest hq v hv

/-- Settles O38: a natural below 2^24 is the value of a word, so its rounding is exact. -/
theorem conversionOfSmallNaturalsIsExact : Obligations.ConversionOfSmallNaturalsIsExact := by
  intro i hi
  obtain ⟨v, hv, hvi⟩ := exists_value_eq_of_lt hi
  refine roundsToNearestEven_exact (fcvt_roundsToNearestEven i) ?_ hv hvi
  have hi' : (i : ℚ) < 2 ^ 24 := by exact_mod_cast hi
  rw [Nat.abs_cast]
  exact hi'.trans (by norm_num [overflowAt])

/-! ### Zeros -/

theorem units_add_eq_zero {a b : Word} (h : value a + value b = 0) : units a + units b = 0 := by
  rw [value, value, ← add_div, div_eq_zero_iff] at h
  exact_mod_cast h.resolve_right (by positivity)

/-- An exact zero sum is -0 only of two negative zeros. -/
theorem fadd_of_exact_zero {a b : Word} (ha : isFinite a = true) (hb : isFinite b = true)
    (h : value a + value b = 0) : fadd a b = pack (signBit a && signBit b) 0 := by
  rw [fadd_of_isFinite ha hb, sumSign, units_add_eq_zero h]
  rfl

/-- The quotient by a nonzero number has the exclusive or of the signs, whatever its magnitude. -/
theorem signBit_fdiv {a b : Word} (ha : isFinite a = true) (hb : isNaN b = false) (hz : isZero b = false) :
    signBit (fdiv a b) = (signBit a != signBit b) := by
  cases hi : isInf b with
  | true => simp [fdiv, isNaN_of_isFinite ha, hb, isInf_of_isFinite ha, hi]
  | false => rw [fdiv_of_isFinite ha (isFinite_of_not hb hi) hz, signBit_pack]

/-- A zero with the exclusive or of two signs. -/
theorem eq_signed_zero {x : Word} {s t : Bool} (hz : isZero x = true) (hs : signBit x = (s != t)) :
    x = if s = t then 0x00000000#32 else 0x80000000#32 := by
  rw [eq_pack_zero_of_isZero hz, hs, pack_xor]
  rfl

/-- Settles O39: the sign of an exact zero sum, and that of a product or quotient whatever its magnitude. -/
theorem signsOfZeros : Obligations.SignsOfZeros := by
  refine ⟨fun a b ha hb h => ?_, fun a b ha hb h => ?_, fun a b ha hb h => eq_signed_zero h ?_,
    fun a b ha hb hz h => eq_signed_zero h (signBit_fdiv ha hb hz), fun a => fneg_eq_xor⟩
  · rw [fadd_of_exact_zero ha hb h]
    cases signBit a <;> cases signBit b <;> rfl
  · have hn := isNaN_of_isFinite hb
    rw [sub_eq_add_neg, ← value_fneg hn] at h
    rw [fsub, fadd_of_exact_zero ha (isFinite_fneg hb) h, signBit_fneg hn]
    cases signBit a <;> cases signBit b <;> rfl
  · rw [fmul_of_isFinite ha hb, signBit_pack]

/-! ### Infinities and NaNs -/

section Special

variable {a b : Word}

theorem fadd_of_isNaN (h : isNaN a = true ∨ isNaN b = true) : fadd a b = qNaN := by
  rcases h with h | h <;> simp [fadd, h]

theorem fmul_of_isNaN (h : isNaN a = true ∨ isNaN b = true) : fmul a b = qNaN := by
  rcases h with h | h <;> simp [fmul, h]

theorem fdiv_of_isNaN (h : isNaN a = true ∨ isNaN b = true) : fdiv a b = qNaN := by
  rcases h with h | h <;> simp [fdiv, h]

theorem fsub_of_isNaN (h : isNaN a = true ∨ isNaN b = true) : fsub a b = qNaN :=
  fadd_of_isNaN (by rwa [isNaN_fneg])

theorem fadd_of_isInf (ha : isInf a = true) (hb : isInf b = true) :
    fadd a b = if signBit a = signBit b then a else qNaN := by
  simp only [fadd, isNaN_of_isInf ha, isNaN_of_isInf hb, ha, hb]
  by_cases h : signBit a = signBit b <;> simp [h]

theorem fadd_inf_left (ha : isInf a = true) (hb : isFinite b = true) : fadd a b = a := by
  simp [fadd, isNaN_of_isInf ha, isNaN_of_isFinite hb, ha, isInf_of_isFinite hb]

theorem fadd_inf_right (ha : isInf a = true) (hb : isFinite b = true) : fadd b a = a := by
  simp [fadd, isNaN_of_isInf ha, isNaN_of_isFinite hb, ha, isInf_of_isFinite hb]

theorem fsub_of_isInf (ha : isInf a = true) (hb : isInf b = true) :
    fsub a b = if signBit a = signBit b then qNaN else a := by
  rw [fsub, fadd_of_isInf ha (isInf_fneg hb), signBit_fneg (isNaN_of_isInf hb)]
  cases signBit a <;> cases signBit b <;> rfl

theorem fmul_inf_of_isZero (hn : isNaN a = false) (hn' : isNaN b = false) (hi : isInf a = true ∨ isInf b = true)
    (hz : isZero a = true ∨ isZero b = true) : fmul a b = qNaN := by
  rcases hi with hi | hi <;> simp [fmul, hn, hn', hi, hz]

theorem fmul_inf_of_not_isZero (hn : isNaN a = false) (hn' : isNaN b = false) (hi : isInf a = true ∨ isInf b = true)
    (hz : isZero a = false) (hz' : isZero b = false) : fmul a b = pack (signBit a != signBit b) infBits := by
  rcases hi with hi | hi <;> simp [fmul, hn, hn', hi, hz, hz']

theorem fdiv_inf_inf (ha : isInf a = true) (hb : isInf b = true) : fdiv a b = qNaN := by
  simp [fdiv, isNaN_of_isInf ha, isNaN_of_isInf hb, ha, hb]

theorem fdiv_inf_left (ha : isInf a = true) (hb : isFinite b = true) :
    fdiv a b = pack (signBit a != signBit b) infBits := by
  simp [fdiv, isNaN_of_isInf ha, isNaN_of_isFinite hb, ha, isInf_of_isFinite hb]

theorem fdiv_inf_right (ha : isFinite a = true) (hb : isInf b = true) :
    fdiv a b = pack (signBit a != signBit b) 0 := by
  simp [fdiv, isNaN_of_isFinite ha, isNaN_of_isInf hb, isInf_of_isFinite ha, hb]

theorem fdiv_zero (ha : isFinite a = true) (hb : isZero b = true) :
    fdiv a b = if isZero a = true then qNaN else pack (signBit a != signBit b) infBits := by
  have hf := isFinite_of_isZero hb
  simp [fdiv, isNaN_of_isFinite ha, isNaN_of_isFinite hf, isInf_of_isFinite ha, isInf_of_isFinite hf, hb]

end Special

/-- An infinity with the exclusive or of two signs. -/
theorem pack_infBits_xor (s t : Bool) :
    pack (s != t) infBits = if s = t then 0x7F800000#32 else 0xFF800000#32 := by
  rw [pack_xor]
  rfl

/-- Settles O40: each operation's rule for a NaN and for an infinity, on each side. -/
theorem infinitiesAndNaNs : Obligations.InfinitiesAndNaNs := by
  refine ⟨fun a b h => ⟨fadd_of_isNaN h, fsub_of_isNaN h, fmul_of_isNaN h, fdiv_of_isNaN h⟩, fun a => fneg_of_isNaN,
    fun a b ha hb => ⟨fadd_of_isInf ha hb, fsub_of_isInf ha hb, fdiv_inf_inf ha hb⟩,
    fun a b ha hb => ⟨fadd_inf_left ha hb, fadd_inf_right ha hb, fadd_inf_left ha (isFinite_fneg hb),
      fadd_inf_right (isInf_fneg ha) hb⟩,
    fun a b ha hb hz => ?_, fun a b ha hb hz => ?_, fun a b ha hb => ?_, fun a b h => ?_, fun a b ha hb => ?_⟩
  · have hn := isNaN_of_isInf ha
    exact ⟨fmul_inf_of_isZero hn hb (.inl ha) (.inr hz), fmul_inf_of_isZero hb hn (.inr ha) (.inl hz)⟩
  · have hn := isNaN_of_isInf ha
    have hza := isZero_of_isInf ha
    rw [fmul_inf_of_not_isZero hn hb (.inl ha) hza hz, fmul_inf_of_not_isZero hb hn (.inr ha) hz hza,
      pack_infBits_xor, pack_infBits_xor]
    exact ⟨rfl, if_congr eq_comm rfl rfl⟩
  · rw [fdiv_zero (isFinite_of_isZero ha) hb, if_pos ha]
    rfl
  · rcases h with ⟨ha, hb⟩ | ⟨ha, hza, hb⟩
    · rw [fdiv_inf_left ha hb, pack_infBits_xor]
    · rw [fdiv_zero ha hb, if_neg (by simp [hza]), pack_infBits_xor]
  · rw [fdiv_inf_right ha hb, pack_xor]
    rfl

/-! ### Computed NaNs

Each operation is a nest of conditions, and its proof is the same nest: `of_ite` at each condition, and at each leaf why
the word there is canonical. -/

/-- A word that is the canonical NaN if it is a NaN at all. -/
def CanonicalNaN (w : Word) : Prop := isNaN w = true → w = qNaN

namespace CanonicalNaN

theorem of_qNaN : CanonicalNaN qNaN := fun _ => rfl

theorem of_not_isNaN {w : Word} (h : isNaN w = false) : CanonicalNaN w :=
  fun hn => absurd hn (Bool.eq_false_iff.1 h)

/-- The choice between two words, each under its own condition. -/
theorem of_ite {p : Prop} [Decidable p] {w v : Word} (hw : p → CanonicalNaN w) (hv : ¬ p → CanonicalNaN v) :
    CanonicalNaN (if p then w else v) := by
  split
  · exact hw ‹_›
  · exact hv ‹_›

theorem of_infinity (s : Bool) : CanonicalNaN (pack s infBits) := of_not_isNaN (isNaN_pack_infBits s)

theorem of_zero (s : Bool) : CanonicalNaN (pack s 0) := of_not_isNaN (isNaN_pack_zero s)

theorem of_roundMag (s : Bool) (n d : Nat) : CanonicalNaN (pack s (roundMag n d)) :=
  of_not_isNaN (isNaN_pack_roundMag s n d)

theorem of_fadd (a b : Word) : CanonicalNaN (fadd a b) :=
  of_ite (fun _ => of_qNaN) fun _ =>
  of_ite (fun ha => of_ite (fun _ => of_qNaN) fun _ => of_not_isNaN (isNaN_of_isInf ha)) fun _ =>
  of_ite (fun hb => of_not_isNaN (isNaN_of_isInf hb)) fun _ =>
  of_ite (fun _ => of_zero _) fun _ => of_roundMag _ _ _

theorem of_fmul (a b : Word) : CanonicalNaN (fmul a b) :=
  of_ite (fun _ => of_qNaN) fun _ =>
  of_ite (fun _ => of_ite (fun _ => of_qNaN) fun _ => of_infinity _) fun _ => of_roundMag _ _ _

theorem of_fdiv (a b : Word) : CanonicalNaN (fdiv a b) :=
  of_ite (fun _ => of_qNaN) fun _ =>
  of_ite (fun _ => of_ite (fun _ => of_qNaN) fun _ => of_infinity _) fun _ =>
  of_ite (fun _ => of_zero _) fun _ =>
  of_ite (fun _ => of_ite (fun _ => of_qNaN) fun _ => of_infinity _) fun _ => of_roundMag _ _ _

theorem of_fneg (a : Word) : CanonicalNaN (fneg a) :=
  fun h => fneg_of_isNaN ((isNaN_fneg a).symm.trans h)

theorem of_fcos (x : Word) : CanonicalNaN (Config.fcos x) :=
  of_ite (fun _ => of_not_isNaN (by decide)) fun _ =>
  of_ite (fun h => of_not_isNaN (isNaN_of_isFinite (Trig.cos_finite _ x h).1)) fun _ => of_qNaN

theorem of_fsin (x : Word) : CanonicalNaN (Config.fsin x) :=
  of_ite (fun hz => of_not_isNaN (isNaN_of_isFinite (isFinite_of_isZero hz))) fun _ =>
  of_ite (fun h => of_not_isNaN (isNaN_of_isFinite (Trig.sin_finite _ x h).1)) fun _ => of_qNaN

end CanonicalNaN

/-- Settles O41: every branch of every operation ends in the canonical NaN, an infinity, a zero, a rounded magnitude or
an operand that is no NaN. -/
theorem computedNaNsAreCanonical : Obligations.ComputedNaNsAreCanonical :=
  ⟨fun a b => ⟨CanonicalNaN.of_fadd a b, CanonicalNaN.of_fadd a (fneg b), CanonicalNaN.of_fmul a b,
    CanonicalNaN.of_fdiv a b⟩,
    fun a => ⟨CanonicalNaN.of_fneg a, CanonicalNaN.of_fcos a, CanonicalNaN.of_fsin a⟩, fun _ => isNaN_pack_roundMag ..⟩

/-! ### Cosine and sine (R11) -/

theorem units_of_isZero {x : Word} (h : isZero x = true) : units x = 0 := by
  simp [units, (magUnits_eq_zero_iff (isFinite_of_isZero h)).2 h]

theorem value_of_isZero {x : Word} (h : isZero x = true) : value x = 0 := by simp [value, units_of_isZero h]

theorem units_fOne : units fOne = 2 ^ 149 := by decide

theorem value_fOne : value fOne = 1 := by
  rw [value, units_fOne, Int.cast_pow, Int.cast_ofNat, div_self (by positivity)]

/-- A word whose value is the real r exactly is within any number of units of it. -/
theorem withinUlps_exact {u r : ℝ} {w : Word} (hu : 0 ≤ u) (h : (units w : ℝ) = r * 2 ^ 149) : WithinUlps u w r := by
  rw [WithinUlps, h, sub_self, abs_zero]
  positivity

theorem half_le_trigUlp : 1 / 2 ≤ Config.trigUlp := Trig.half_le_trigUlp _

theorem trigUlp_nonneg : 0 ≤ Config.trigUlp := (by norm_num : (0 : ℝ) ≤ 1 / 2).trans half_le_trigUlp

theorem isZero_of_isFinite_false {x : Word} (h : isFinite x = false) : isZero x = false :=
  Bool.eq_false_iff.2 fun hz => by simp [isFinite_of_isZero hz] at h

theorem fcos_of_not_isFinite {x : Word} (h : isFinite x = false) : Config.fcos x = qNaN := by
  simp [Config.fcos, h, isZero_of_isFinite_false h]

theorem fsin_of_not_isFinite {x : Word} (h : isFinite x = false) : Config.fsin x = qNaN := by
  simp [Config.fsin, h, isZero_of_isFinite_false h]

/-- P2 and P4 of the cosine: exact at a zero, the implementation's elsewhere. -/
theorem fcos_of_isFinite {x : Word} (h : isFinite x = true) :
    isFinite (Config.fcos x) = true ∧ |value (Config.fcos x)| ≤ 1 ∧
      WithinUlps Config.trigUlp (Config.fcos x) (Real.cos (value x : ℝ)) := by
  cases hz : isZero x with
  | true =>
    rw [Config.fcos, if_pos hz]
    refine ⟨rfl, by rw [value_fOne, abs_one], withinUlps_exact trigUlp_nonneg ?_⟩
    rw [units_fOne, value_of_isZero hz, Rat.cast_zero, Real.cos_zero, one_mul, Int.cast_pow, Int.cast_ofNat]
  | false =>
    rw [Config.fcos, if_neg (Bool.eq_false_iff.1 hz), if_pos h]
    obtain ⟨hf, h1⟩ := Trig.cos_finite _ x h
    exact ⟨hf, h1, Trig.cos_close _ x h⟩

/-- P2 and P4 of the sine: exact at a zero, the implementation's elsewhere. -/
theorem fsin_of_isFinite {x : Word} (h : isFinite x = true) :
    isFinite (Config.fsin x) = true ∧ |value (Config.fsin x)| ≤ 1 ∧
      WithinUlps Config.trigUlp (Config.fsin x) (Real.sin (value x : ℝ)) := by
  cases hz : isZero x with
  | true =>
    rw [Config.fsin, if_pos hz]
    refine ⟨h, by simp [value_of_isZero hz], withinUlps_exact trigUlp_nonneg ?_⟩
    simp [units_of_isZero hz, value_of_isZero hz]
  | false =>
    rw [Config.fsin, if_neg (Bool.eq_false_iff.1 hz), if_pos h]
    obtain ⟨hf, h1⟩ := Trig.sin_finite _ x h
    exact ⟨hf, h1, Trig.sin_close _ x h⟩

/-- Settles O42: P1 and P3 are the functions' own branches, P2 and P4 those of the implementation's pair. -/
theorem cosineAndSineProperties : Obligations.CosineAndSineProperties := by
  refine ⟨⟨rfl, rfl, rfl, rfl⟩, fun x h => ?_, fun x h => ⟨fcos_of_not_isFinite h, fsin_of_not_isFinite h⟩,
    half_le_trigUlp⟩
  obtain ⟨hcf, hc1, hcu⟩ := fcos_of_isFinite h
  obtain ⟨hsf, hs1, hsu⟩ := fsin_of_isFinite h
  exact ⟨hcf, hc1, hsf, hs1, hcu, hsu⟩

end Sys2Proof.Machine

/-! The registers on the bus (10_state.md R21, 20_memory.md R52, R57 to R59, R65): where a location lies, what a write
leaves of every other word, and one-step accesses to the words that no busy window guards. -/

namespace Sys2Proof.Machine

/-! ### The offset of a location -/

/-- The offset of a register in its channel (R30). -/
def ChanReg.offset : ChanReg → Nat
  | .fstat => 0x00
  | .ts => 0x04
  | .wn => 0x08
  | .zeta => 0x0C
  | .uIn => 0x10
  | .yOut => 0x14
  | .a1 => 0x18
  | .a2 => 0x1C
  | .b0 => 0x20
  | .b1 => 0x24
  | .b2 => 0x28
  | .mq => 0x2C
  | .nq => 0x30
  | .uOld0 => 0x34
  | .uOld1 => 0x38
  | .yOld0 => 0x3C
  | .yOld1 => 0x40

/-- The offset of a location, as R52 to R54 tabulate it; an unmapped location has none. -/
def Loc.offset : Loc → Option Nat
  | .id => some 0x00
  | .info => some 0x04
  | .cmd => some 0x08
  | .status => some 0x0C
  | .ctrl => some 0x10
  | .opaRe => some 0x20
  | .opaIm => some 0x24
  | .opbRe => some 0x28
  | .opbIm => some 0x2C
  | .resRe => some 0x30
  | .resIm => some 0x34
  | .chan c r => some (0x100 + 0x80 * c + r.offset)
  | .bufRe i => some (bufOffset i)
  | .bufIm i => some (bufOffset i + 4)
  | .unmapped => none

theorem ChanReg.offset_of_chanRegAt {o : Nat} {r : ChanReg} (h : chanRegAt o = some r) : r.offset = o := by
  unfold chanRegAt at h
  split at h <;> cases h <;> rfl

theorem lowReg_offset (off : Nat) : lowReg off = .unmapped ∨ (lowReg off).offset = some off := by
  unfold lowReg
  split <;> simp [Loc.offset]

/-- The map gives an aligned offset no location but its own. -/
theorem offset_locate {s : State} (h : s.Inv) {off : Nat} (h4 : off % 4 = 0) :
    s.locate off = .unmapped ∨ (s.locate off).offset = some off := by
  cases offsetCase h.nchLegal.2 h.nmaxLegal.2 h4 with
  | low hlow => rw [locate_low s hlow]; exact lowReg_offset off
  | chan c o r _ _ _ hr he hl => rw [hl, he, Loc.offset, ChanReg.offset_of_chanRegAt hr]; exact .inr rfl
  | bufRe i _ he hl | bufIm i _ he hl => rw [hl, he]; exact .inr rfl
  | unmapped hl => exact .inl hl

/-- Two offsets with one location are equal, or unmapped. -/
theorem locate_inj {s : State} (h : s.Inv) {off off' : Nat} (h4 : off % 4 = 0) (h4' : off' % 4 = 0)
    (hl : s.locate off = s.locate off') : off = off' ∨ s.locate off = .unmapped := by
  rcases offset_locate h h4 with hu | ho
  · exact .inr hu
  rcases offset_locate h h4' with hu' | ho'
  · exact .inr (hl.trans hu')
  · exact .inl (Option.some.inj (ho.symm.trans ((congrArg Loc.offset hl).trans ho')))

/-- The map depends on the parameters only (R52). -/
theorem locate_congr {s t : State} (hp : t.log2Nmax = s.log2Nmax) (hn : t.nch = s.nch) (off : Nat) :
    t.locate off = s.locate off := by
  simp only [State.locate, State.nmax, hp, hn]

/-! ### What a write leaves of the other words -/

/-- A write to one register of a channel leaves what the others read. -/
theorem Channel.read_write_ne (ch : Channel) (w : Word) {r r' : ChanReg} (h : r ≠ r') :
    (ch.write w r).read r' = ch.read r' := by
  cases r with
  | ts | wn | zeta | uIn => cases r' <;> trivial
  | _ => rfl

/-- A write to a channel's register leaves what every other channel register reads. -/
theorem readChan_writeChan_ne (s : State) (w : Word) {c c' : Nat} {r r' : ChanReg}
    (h : Loc.chan c r ≠ Loc.chan c' r') :
    ((s.setChan c ((s.chan c).write w r)).chan c').read r' = (s.chan c').read r' := by
  by_cases hc : c = c'
  · subst hc
    by_cases hlt : c < s.nch
    · rw [State.chan_setChan_self s hlt, Channel.read_write_ne _ w fun hr => h (congrArg (Loc.chan c) hr)]
    · rw [State.setChan, List.set_eq_of_length_le (Nat.le_of_not_lt hlt)]
  · rw [State.chan_setChan_ne s hc]

/-- A write to a location leaves what every other location reads; CMD apart, whose write also accepts (R188). -/
theorem readLoc_writeLoc_ne (s : State) (w : Word) {l l' : Loc} (h : l ≠ l') (hcmd : l ≠ .cmd) :
    (s.writeLoc w l).readLoc l' = s.readLoc l' := by
  cases l with
  | cmd => exact absurd rfl hcmd
  | id | info | resRe | resIm | unmapped => rfl
  | status | ctrl | opaRe | opaIm | opbRe | opbIm => cases l' <;> trivial
  | chan c r =>
    cases l' with
    | chan c' r' => exact readChan_writeChan_ne s w h
    | info => simp only [State.writeLoc, State.readLoc, State.infoWord, State.nch_setChan, State.setChan_log2Nmax]
    | _ => rfl
  | bufRe i | bufIm i =>
    cases l' with
    | bufRe j | bufIm j =>
      refine State.bufWord_insertWord_ne s ?_ w
      simp only [ne_eq, Loc.bufRe.injEq, Loc.bufIm.injEq, reduceCtorEq, not_false_eq_true] at h
      simp only [bufOffset]
      omega
    | _ => rfl

/-- A write to any word but CMD leaves an idle core idle. -/
theorem WriteEffect.idle {s t : State} {off : Nat} {w : Word} (h : WriteEffect s off w t) (hb : s.status.busy = false)
    (hoff : off ≠ 0x008) : t.status.busy = false := by
  cases h with
  | accept _ ho => exact absurd ho hoff
  | _ => exact hb

/-- Settles O26: the offsets of two words have two locations, and a write to one leaves what the other reads. -/
theorem noWordAliasesAnother : Obligations.NoWordAliasesAnother := by
  intro s off off' w hinv hb _ _ h4 h4' hne hcmd
  have heff := busWrite_effect s off w
  obtain ⟨hp, hn, _⟩ := heff.parameters
  rw [busRead_of_idle (heff.idle hb hcmd), busRead_of_idle hb, locate_congr hp hn, busWrite_of_idle hb]
  by_cases hl : s.locate off = s.locate off'
  · rw [(locate_inj hinv h4 h4' hl).resolve_left hne]
    rfl
  · exact readLoc_writeLoc_ne s w hl (mt (locate_eq_cmd_iff s off).1 hcmd)

end Sys2Proof.Machine

/-! What changes RES, a byte of BUF and a channel's registers (10_state.md R29, R32 to R34, 70_reset_and_hazards.md
R205): effect by effect, then over a step. -/

namespace Sys2Proof.Machine

/-! ### ENGINE's turn -/

/-- On its turn, with a command pending, ENGINE performs it (R189). -/
theorem engineTurnOf.engineRuns {s : State} {rest : List Event} {i : Instr} (ht : engineTurnOf s rest)
    (hb : s.status.busy = true) (hd : decode s.cmd = .ok i) : engineRuns s i :=
  ⟨hb, hd, ht.imp And.left fun h => ⟨rest, h⟩⟩

/-! ### A read (R59) -/

theorem State.busRead_res (s : State) (off : Nat) : (s.busRead off).res = s.res := by
  obtain ⟨v, d, hr⟩ := busRead_eq s off
  rw [hr]

theorem State.bufByte_busRead (s : State) (off a : Nat) : (s.busRead off).bufByte a = s.bufByte a := by
  obtain ⟨v, d, hr⟩ := busRead_eq s off
  rw [hr]
  rfl

theorem State.chan_busRead (s : State) (off c : Nat) : (s.busRead off).chan c = s.chan c := by
  obtain ⟨v, d, hr⟩ := busRead_eq s off
  rw [hr]
  rfl

/-! ### RES -/

/-- Only a complex command writes RES. -/
theorem ExecEffect.res {i : Instr} {s t : State} (h : ExecEffect i s t) : t.res = s.res ∨ classOf i = .complex := by
  cases h with
  | complex _ hi => exact .inr hi
  | error | buffer | construct | apply => exact .inl rfl

/-- HOST does not write RES. -/
theorem WriteEffect.res {s t : State} {off : Nat} {w : Word} (h : WriteEffect s off w t) : t.res = s.res := by
  cases h <;> rfl

/-- Settles O34: of the effects of a step, only a complex command and the reset event touch RES. -/
theorem resChangesOnlyByComplexCommands : Obligations.ResChangesOnlyByComplexCommands := by
  intro s t h hne
  cases step_next h with
  | idle | illegal | outside => exact absurd rfl hne
  | run rest ht hb i hd _ he => exact .inr ⟨i, ht.engineRuns hb hd, (exec_next he).res.resolve_left hne⟩
  | reset rest ht => exact .inl ⟨rest, ht⟩
  | read off rest => exact absurd (State.busRead_res _ off) hne
  | write off w rest => exact absurd (busWrite_effect { s with agenda := rest } off w).res hne

/-! ### The bytes of BUF -/

/-- A command leaves a byte of BUF, or is an FFT command whose entries reach it (R140). -/
theorem ExecEffect.bufByte {i : Instr} {s t : State} (h : ExecEffect i s t) (a : Nat) :
    t.bufByte a = s.bufByte a ∨ ∃ n, isFftOf i n ∧ 0x10000 ≤ a ∧ a < 0x10000 + 8 * n := by
  cases h with
  | error | complex | construct | apply => exact .inl rfl
  | buffer n xs hi hl =>
    by_cases ha : 0x10000 ≤ a ∧ a < 0x10000 + 8 * n
    · exact .inr ⟨n, hi, ha⟩
    · refine .inl (State.bufByte_storeBuf_ne s xs ?_)
      simp only [bufOffset]
      omega

/-- A word written to BUF leaves every byte but its own four (R55). -/
theorem State.bufByte_insertWord_ne (s : State) {a a' : Nat} (h : a' < a ∨ a + 4 ≤ a') (w : Word) :
    State.bufByte { s with buf := s.buf.insertWord a w } a' = s.bufByte a' :=
  State.bufByte_of_find (s := s) (t := { s with buf := s.buf.insertWord a w }) rfl (Memory.find_insertWord_ne s.buf h w)

/-- A write at an aligned offset leaves a byte of BUF, or is one, while BUSY = 0, to the byte's word (R55, R65). -/
theorem WriteEffect.bufByte {s t : State} {off : Nat} {w : Word} (h : WriteEffect s off w t) (h4 : off % 4 = 0)
    (a : Nat) : t.bufByte a = s.bufByte a ∨ (s.status.busy = false ∧ off ≤ a ∧ a < off + 4) := by
  cases h with
  | dropped | accept | status | ctrl | opA | opB | chan | ignored => exact .inl rfl
  | buf hb _ b _ _ ho =>
    by_cases ha : off ≤ a ∧ a < off + 4
    · exact .inr ⟨hb, ha⟩
    · exact .inl (s.bufByte_insertWord_ne (by omega) w)

/-- Settles O35: of the effects of a step, only an FFT command, a write to the byte's word and the reset event touch a
byte of BUF. -/
theorem bufChangesOnlyByFftCommandsAndHost : Obligations.BufChangesOnlyByFftCommandsAndHost := by
  intro s t a hbase h hne
  cases step_next h with
  | idle | illegal | outside => exact absurd rfl hne
  | run rest ht hb i hd _ he =>
    obtain ⟨n, hi, ha⟩ := ((exec_next he).bufByte a).resolve_left hne
    exact .inr (.inr ⟨i, n, ht.engineRuns hb hd, hi, ha⟩)
  | reset rest ht => exact .inl ⟨rest, ht⟩
  | read off rest => exact absurd (State.bufByte_busRead _ off a) hne
  | write off w rest ho h4 ht =>
    obtain ⟨hb, ha⟩ := ((busWrite_effect { s with agenda := rest } off w).bufByte (by omega) a).resolve_left hne
    exact .inr (.inl ⟨hb, off, w, ⟨ho, h4, rest, ht⟩, ha⟩)

/-! ### A channel's registers -/

/-- The four constructions of a channel, in the order the statements list them. -/
theorem constructionOf_cases {P : Instr → Prop} {c : Nat} {kind : Kind} (h : P (constructionOf c kind)) :
    P (.fcfgLpf1 c) ∨ P (.fcfgHpf1 c) ∨ P (.fcfgLpf2 c) ∨ P (.fcfgHpf2 c) := by
  cases kind with
  | lpf1 => exact .inl h
  | hpf1 => exact .inr (.inl h)
  | lpf2 => exact .inr (.inr (.inl h))
  | hpf2 => exact .inr (.inr (.inr h))

/-- What a command can do to a channel: nothing, construct it, or step it. -/
theorem ExecEffect.channel {i : Instr} {s t : State} (h : ExecEffect i s t) (c : Nat) :
    t.chan c = s.chan c ∨
    (∃ kind, i = constructionOf c kind ∧ t.chan c = (s.chan c).configure kind (coeffsOf kind (s.chan c))) ∨
    (i = .fapply c ∧ (s.chan c).valid = true ∧ t.chan c = (s.chan c).step) := by
  cases h with
  | error | complex | buffer => exact .inl rfl
  | construct d kind hi hd =>
    by_cases hdc : d = c
    · subst hdc
      exact .inr (.inl ⟨kind, hi, State.chan_setChan_self s hd _⟩)
    · exact .inl (State.chan_setChan_ne s hdc _)
  | apply d hi hd hv =>
    by_cases hdc : d = c
    · subst hdc
      exact .inr (.inr ⟨hi, hv, State.chan_setChan_self s hd _⟩)
    · exact .inl (State.chan_setChan_ne s hdc _)

/-- What HOST can do to a channel: nothing, or write one of its registers. -/
theorem WriteEffect.channel {s t : State} {off : Nat} {w : Word} (h : WriteEffect s off w t) (c : Nat) :
    t.chan c = s.chan c ∨ ∃ r, t.chan c = (s.chan c).write w r := by
  cases h with
  | dropped | accept | status | ctrl | opA | opB | buf | ignored => exact .inl rfl
  | chan _ d r _ hd =>
    by_cases hdc : d = c
    · subst hdc
      exact .inr ⟨r, State.chan_setChan_self s hd _⟩
    · exact .inl (State.chan_setChan_ne s hdc _)

/-- Everything a step that is no reset event can do to a channel's registers. -/
inductive ChannelEffect (s : State) (c : Nat) : Channel → Prop
  /-- the step does not reach the channel -/
  | kept : ChannelEffect s c (s.chan c)
  /-- HOST writes one of its registers -/
  | written (w : Word) (r : ChanReg) : ChannelEffect s c ((s.chan c).write w r)
  /-- ENGINE constructs it (R111) -/
  | constructed (kind : Kind) (hr : engineRuns s (constructionOf c kind)) :
      ChannelEffect s c ((s.chan c).configure kind (coeffsOf kind (s.chan c)))
  /-- ENGINE performs FAPPLY on it (R116) -/
  | stepped (hr : engineRuns s (.fapply c)) (hv : (s.chan c).valid = true) : ChannelEffect s c (s.chan c).step

theorem step_channelEffect {s t : State} (h : step s = .next t) (hr : ¬ resetHappens s) (c : Nat) :
    ChannelEffect s c (t.chan c) := by
  cases step_next h with
  | idle | illegal | outside => exact .kept
  | run rest ht hb i hd _ he =>
    rcases (exec_next he).channel c with hc | ⟨kind, rfl, hc⟩ | ⟨rfl, hv, hc⟩
    · rw [hc]; exact .kept
    · rw [hc]; exact .constructed kind (ht.engineRuns hb hd)
    · rw [hc]; exact .stepped (ht.engineRuns hb hd) hv
  | reset rest ht => exact absurd ⟨rest, ht⟩ hr
  | read off rest => rw [State.chan_busRead]; exact .kept
  | write off w rest =>
    rcases (busWrite_effect { s with agenda := rest } off w).channel c with hc | ⟨r, hc⟩
    · rw [hc]; exact .kept
    · rw [hc]; exact .written w r

/-- A filter step leaves the coefficients (R116 to R118). -/
theorem Channel.step_coeffs (ch : Channel) :
    ch.step.a1 = ch.a1 ∧ ch.step.a2 = ch.a2 ∧ ch.step.b0 = ch.b0 ∧ ch.step.b1 = ch.b1 ∧ ch.step.b2 = ch.b2 ∧
    ch.step.mq = ch.mq ∧ ch.step.nq = ch.nq := by
  unfold Channel.step
  split <;> exact ⟨rfl, rfl, rfl, rfl, rfl, rfl, rfl⟩

/-- Settles O36: of the effects of a step on a channel, a HOST write reaches no read-only register and FAPPLY no
coefficient. -/
theorem channelStateChangesOnlyByItsCommands : Obligations.ChannelStateChangesOnlyByItsCommands := by
  intro s t c _ h hreset hcons
  generalize t.chan c = ch, step_channelEffect h hreset c = he
  cases he with
  | kept => simp
  | written w r =>
    obtain ⟨hv, hk, hy, ha1, ha2, hb0, hb1, hb2, hm, hn, hu0, hu1, hy0, hy1⟩ := (s.chan c).write_readOnly w r
    exact ⟨hv, hk, ha1, ha2, hb0, hb1, hb2, hm, hn, fun _ => ⟨hu0, hu1, hy0, hy1, hy⟩⟩
  | constructed kind hr => exact absurd (constructionOf_cases hr) hcons
  | stepped hr =>
    obtain ⟨ha1, ha2, hb0, hb1, hb2, hm, hn⟩ := (s.chan c).step_coeffs
    exact ⟨Channel.step_valid _, Channel.step_kind _, ha1, ha2, hb0, hb1, hb2, hm, hn, fun hna => absurd hr hna⟩

end Sys2Proof.Machine

/-! The words STATUS, CTRL, ID and INFO, and the core after reset (10_state.md R23 to R27, R37). -/

namespace Sys2Proof.Machine

/-! ### Accesses that the busy window does not guard -/

section Unguarded

variable {s : State} {off : Nat} {rest : List Event}

/-- A read of a word outside the data set returns what the map has there, BUSY or not (R65). -/
theorem step_read_of_not_dataSet (hd : (s.locate off).dataSet = false) (ho : off < 0x20000)
    (h4 : (s.base + off) % 4 = 0) (ha : s.agenda = .read (s.base + off) .four :: rest) :
    step s = .next { s with agenda := rest, rdata := s.readLoc (s.locate off) } := by
  have hl : State.locate { s with agenda := rest } off = s.locate off := rfl
  have hr : State.readLoc { s with agenda := rest } (s.locate off) = s.readLoc (s.locate off) := by
    cases s.locate off <;> rfl
  rw [step_hostReads ho h4 ha, State.busRead, hl, hd, hr, Bool.and_false]
  rfl

/-- A write to a word that is neither CMD nor in the data set is performed, BUSY or not (R65). -/
theorem step_write_of_not_guarded {w : Word} (hg : (s.locate off).guarded = false) (ho : off < 0x20000)
    (h4 : (s.base + off) % 4 = 0) (ha : s.agenda = .write (s.base + off) .four w :: rest) :
    step s = .next (State.writeLoc { s with agenda := rest } w (s.locate off)) := by
  have hl : State.locate { s with agenda := rest } off = s.locate off := rfl
  rw [step_hostWrites ho h4 ha, State.busWrite, hl, hg, Bool.and_false]
  rfl

end Unguarded

/-! ### STATUS -/

namespace Status

variable (t : Status)

/-- The single bits of STATUS's word (R26). -/
theorem word_bits : t.word.getLsbD 0 = t.busy ∧ t.word.getLsbD 1 = t.done ∧ t.word.getLsbD 2 = t.errFlag ∧
    t.word.getLsbD 3 = false ∧ t.word.getLsbD 8 = t.busyErr := by
  simp only [word, BitVec.getLsbD_append]
  simp

/-- ERRCODE, and the bits above BUSYERR, in STATUS's word (R26). -/
theorem word_fields : t.word.extractLsb' 4 4 = t.err.code ∧ t.word.extractLsb' 9 23 = 0#23 := by
  constructor <;>
  · apply BitVec.eq_of_getLsbD_eq
    intro i hi
    simp only [word, BitVec.getLsbD_extractLsb', BitVec.getLsbD_append]
    interval_cases i <;> simp

theorem errFlag_eq_decide : t.errFlag = decide (t.err.code ≠ 0#4) := by
  unfold errFlag
  cases t.err <;> rfl

end Status

theorem ErrCode.code_toNat (e : ErrCode) : e.code.toNat = errNumber e := by cases e <;> rfl

/-- Settles O11: STATUS is outside the data set, and each field of its word is read off. -/
theorem statusWordLayout : Obligations.StatusWordLayout := by
  intro s rest hbase ha
  refine ⟨s.status.word, step_read_of_not_dataSet (off := 0x00C) rfl (by decide) (by omega) ha, ?_⟩
  obtain ⟨hbusy, hdone, herr, h3, hbusyErr⟩ := s.status.word_bits
  obtain ⟨hcode, hhigh⟩ := s.status.word_fields
  rw [hcode]
  exact ⟨hbusy, hdone, herr.trans s.status.errFlag_eq_decide, h3, s.status.err.code_toNat, hbusyErr, hhigh⟩

/-- Settles O12: STATUS is not guarded, and a write to it is the W1C of R26. -/
theorem statusWriteAcknowledges : Obligations.StatusWriteAcknowledges := fun _ _ _ hbase ha =>
  step_write_of_not_guarded (off := 0x00C) rfl (by decide) (by omega) ha

/-! ### CTRL -/

namespace Ctrl

variable (t : Ctrl)

/-- The enables in CTRL's word (R27). -/
theorem word_bits : t.word.getLsbD 0 = t.doneIe ∧ t.word.getLsbD 1 = t.busyErrIe := by
  simp only [word, BitVec.getLsbD_append]
  simp

/-- The other bits of CTRL's word are 0 (R27). -/
theorem word_high : t.word.extractLsb' 2 30 = 0#30 := by
  apply BitVec.eq_of_getLsbD_eq
  intro i hi
  simp only [word, BitVec.getLsbD_extractLsb', BitVec.getLsbD_append]
  interval_cases i <;> simp

/-- What is read after a write is the written word with its other bits 0 (R27). -/
theorem word_ofWord (w : Word) : (ofWord w).word = w &&& 3#32 := by
  apply BitVec.eq_of_getLsbD_eq
  intro i hi
  simp only [word, ofWord, BitVec.getLsbD_and, BitVec.getLsbD_append]
  interval_cases i <;> simp

end Ctrl

/-- A run of one step more. -/
theorem run_succ {s t : State} (h : step s = .next t) (k : Nat) :
    Host.Core.run Sys2Proof.core (k + 1) s = Host.Core.run Sys2Proof.core k t := by
  have h' : Sys2Proof.core.step s = .next t := h
  simp only [Host.Core.run, h']

theorem run_two {s t u : State} (h : step s = .next t) (h' : step t = .next u) :
    Host.Core.run Sys2Proof.core 2 s = .next u :=
  (run_succ h 1).trans (run_succ h' 0)

theorem step_write_ctrl {s : State} {w : Word} {rest : List Event} (hbase : s.base % 4 = 0)
    (ha : s.agenda = .write (s.base + 0x010) .four w :: rest) :
    step s = .next { s with agenda := rest, ctrl := Ctrl.ofWord w } :=
  step_write_of_not_guarded (off := 0x010) rfl (by decide) (by omega) ha

theorem step_read_ctrl {s : State} {rest : List Event} (hbase : s.base % 4 = 0)
    (ha : s.agenda = .read (s.base + 0x010) .four :: rest) :
    step s = .next { s with agenda := rest, rdata := s.ctrl.word } :=
  step_read_of_not_dataSet (off := 0x010) rfl (by decide) (by omega) ha

/-- Settles O13: CTRL is not guarded; it keeps two bits of the word and reads as them. -/
theorem ctrlWriteSetsTheEnables : Obligations.CtrlWriteSetsTheEnables := by
  intro s w rest hbase
  obtain ⟨hdone, hbusyErr⟩ := s.ctrl.word_bits
  refine ⟨step_write_ctrl hbase, fun ha => ⟨_, step_read_ctrl hbase ha, hdone, hbusyErr, s.ctrl.word_high⟩,
    fun ha => ?_⟩
  rw [← Ctrl.word_ofWord]
  exact run_two (step_write_ctrl hbase ha) (step_read_ctrl hbase rfl)

/-! ### ID and INFO -/

/-- The fields of INFO's word (R24). -/
theorem State.infoWord_fields (s : State) :
    s.infoWord.extractLsb' 0 4 = BitVec.ofNat 4 s.log2Nmax ∧ s.infoWord.extractLsb' 4 4 = 0#4 ∧
    s.infoWord.extractLsb' 8 5 = BitVec.ofNat 5 s.nch ∧ s.infoWord.extractLsb' 13 19 = 0#19 := by
  refine ⟨?_, ?_, ?_, ?_⟩ <;>
  · apply BitVec.eq_of_getLsbD_eq
    intro i hi
    simp only [infoWord, BitVec.getLsbD_extractLsb', BitVec.getLsbD_append]
    interval_cases i <;> simp

/-- Legal parameters fit their fields of INFO (R6, R24). -/
theorem State.Inv.infoWord {s : State} (h : s.Inv) :
    (s.infoWord.extractLsb' 0 4).toNat = s.log2Nmax ∧ (s.infoWord.extractLsb' 8 5).toNat = s.nch := by
  obtain ⟨hlog, _, hnch, _⟩ := s.infoWord_fields
  have hp := h.nmaxLegal.2
  have hn := h.nchLegal.2
  rw [hlog, hnch, BitVec.toNat_ofNat, BitVec.toNat_ofNat]
  exact ⟨Nat.mod_eq_of_lt (by omega), Nat.mod_eq_of_lt (by omega)⟩

/-- Settles O15: both words are outside the data set, and legal parameters fit INFO's fields. -/
theorem idAndInfoAreConstants : Obligations.IdAndInfoAreConstants := by
  intro s rest hinv
  have hbase := hinv.baseLegal
  obtain ⟨hp, hn⟩ := hinv.infoWord
  obtain ⟨_, hgap, _, hhigh⟩ := s.infoWord_fields
  exact ⟨fun ha => step_read_of_not_dataSet (off := 0x000) rfl (by decide) (by omega) ha,
    fun ha => ⟨s.infoWord, step_read_of_not_dataSet (off := 0x004) rfl (by decide) (by omega) ha,
      hp, hgap, hn, hhigh⟩⟩

/-! ### After reset -/

/-- The core with legal parameters meets the invariant right after reset. -/
theorem State.Inv.resetWith {p n b : Nat} (hp : 3 ≤ p ∧ p ≤ 13) (hn : 1 ≤ n ∧ n ≤ 16) (hb : b % 0x20000 = 0) :
    (State.resetWith p n b).Inv where
  bufRising := rfl
  bufMapped := nofun
  nmaxLegal := hp
  nchLegal := by simpa using hn
  baseLegal := hb
  busyClear := nofun
  channels _ hc := List.eq_of_mem_replicate hc ▸ Channel.Inv.reset

/-- Settles O31: the implementation's parameters are legal. -/
theorem resetMeetsTheInvariant : Obligations.ResetMeetsTheInvariant :=
  .resetWith Config.log2Nmax_legal Config.nch_legal Config.base_legal

/-- Every location but ID, INFO and BUF's reads 0 after reset (R37, R201). -/
theorem readLoc_resetWith {p n b off : Nat} {l : Loc} (ho : l.offset = some off) (hlow : 0x008 ≤ off)
    (hbuf : off < 0x10000) : (State.resetWith p n b).readLoc l = 0 := by
  cases l with
  | id | info | bufRe | bufIm => simp only [Loc.offset, bufOffset, Option.some.injEq] at ho; omega
  | chan c r => rw [State.readLoc, State.chan_resetWith]; cases r <;> rfl
  | status => exact (by decide : Status.word ⟨false, false, .noError, false⟩ = 0)
  | ctrl => exact (by decide : Ctrl.word ⟨false, false⟩ = 0)
  | _ => rfl

/-- Settles O28: outside ID, INFO and BUF the map holds only registers that reset to 0. -/
theorem wordsAfterReset : Obligations.WordsAfterReset := by
  obtain ⟨hp, hn⟩ := resetMeetsTheInvariant.infoWord
  refine ⟨rfl, hp, hn.trans State.nch_reset, fun off h4 hlow hbuf => ?_, rfl, rfl, ?_⟩
  · rw [busRead_of_idle (s := State.reset) rfl]
    rcases offset_locate resetMeetsTheInvariant h4 with hl | ho
    · rw [hl]; rfl
    · exact readLoc_resetWith ho hlow hbuf
  · rw [step_nil (s := State.reset) rfl, engineTurn_idle (s := State.reset) rfl]

end Sys2Proof.Machine

/-! The register bus (20_memory.md R51 to R65): which accesses have a step, what a word that does not store ignores, what
is read back, and the busy window. -/

namespace Sys2Proof.Machine

open Host (Outcome)

/-! ### Transactions (R51, R56) -/

section Transaction

variable {addr : Nat} {size : AccessSize} {act : Nat → State} {s : State}

/-- A transaction is refused exactly if it is in the window and narrow or misaligned (R56). -/
theorem transaction_refused_iff : (∃ r, transaction addr size act s = .refused r) ↔
    (!s.inWindow addr || (size == .four && addr % 4 == 0)) = false := by
  rcases transaction_cases addr size act s with
    ⟨hw, ht⟩ | ⟨hw, hs, ht⟩ | ⟨hw, rfl, h4, ht⟩ | ⟨hw, rfl, h4, ht⟩ <;> simp [*]

/-- A transaction that is performed changes nothing, or acts at an offset. -/
theorem transaction_next {t : State} (h : transaction addr size act s = .next t) : t = s ∨ ∃ off, t = act off := by
  rcases transaction_cases addr size act s with ⟨_, ht⟩ | ⟨_, _, ht⟩ | ⟨_, _, _, ht⟩ | ⟨_, _, _, ht⟩ <;>
    rw [ht] at h <;> cases h
  · exact .inl rfl
  · exact .inr ⟨_, rfl⟩

/-- A transaction outside the window does not reach the core (R51). -/
theorem transaction_outside (h : addr < s.base ∨ s.base + 0x20000 ≤ addr) : transaction addr size act s = .next s := by
  have hw : ¬ s.inWindow addr = true := by
    rw [inWindow_iff]
    omega
  exact if_neg hw

end Transaction

theorem takeEvent_read (addr : Nat) (size : AccessSize) (s : State) :
    takeEvent (.read addr size) s = transaction addr size (fun off => s.busRead off) s := rfl

theorem takeEvent_write (addr : Nat) (size : AccessSize) (w : Word) (s : State) :
    takeEvent (.write addr size w) s = transaction addr size (fun off => s.busWrite off w) s := rfl

/-- Settles O19: such a transaction does not reach the core. -/
theorem accessOutsideTheWindowHasNoEffect : Obligations.AccessOutsideTheWindowHasNoEffect := by
  intro s addr size w rest h
  constructor <;> intro ha
  · rw [step_cons ha, takeEvent_read]; exact transaction_outside h
  · rw [step_cons ha, takeEvent_write]; exact transaction_outside h

/-- An event is refused exactly if it is an undefined access; what is still to come plays no part. -/
theorem takeEvent_refused_iff (e : Event) (s : State) (rest : List Event) :
    (∃ r, takeEvent e { s with agenda := rest } = .refused r) ↔ eventDefined s e = false := by
  cases e with
  | read => rw [takeEvent_read]; exact transaction_refused_iff
  | write => rw [takeEvent_write]; exact transaction_refused_iff
  | engine =>
    obtain ⟨t, ht⟩ := engineTurn_next { s with agenda := rest }
    simp [takeEvent, eventDefined, ht]
  | reset => simp [takeEvent, eventDefined]

/-- Settles O18: with no event left the step is ENGINE's, which answers a next state; else it is the event's. There is no
value of `Fault`. -/
theorem onlyUndefinedAccessesStop : Obligations.OnlyUndefinedAccessesStop := by
  refine fun s => ⟨nofun, ?_⟩
  cases ha : s.agenda with
  | nil =>
    obtain ⟨t, ht⟩ := engineTurn_next s
    simp [step_nil ha, ht]
  | cons e rest =>
    rw [step_cons ha, takeEvent_refused_iff]
    simp

/-! ### Reads (R57, R59) -/

/-- Settles O22: a read that is performed reaches nothing, or is one of the bus. -/
theorem readsHaveNoSideEffect : Obligations.ReadsHaveNoSideEffect := by
  intro s t addr size rest ha h
  rw [step_cons ha] at h
  rcases transaction_next h with rfl | ⟨off, rfl⟩
  · exact ⟨s.rdata, s.draws, rfl⟩
  · exact busRead_eq { s with agenda := rest } off

/-- In a window at a legal address, an aligned address has an aligned offset (R6). -/
theorem State.Inv.aligned_iff {s : State} (h : s.Inv) {off : Nat} : (s.base + off) % 4 = 0 ↔ off % 4 = 0 := by
  have := h.baseLegal
  omega

/-- Settles O20: an unmapped location is no part of the data set, reads 0 and stores nothing. -/
theorem unmappedWordsReadZeroAndIgnoreWrites : Obligations.UnmappedWordsReadZeroAndIgnoreWrites := by
  intro s off hinv hm
  have hl (h4 : (s.base + off) % 4 = 0) : s.locate off = .unmapped :=
    locate_unmapped hinv.nchLegal.2 hinv.nmaxLegal.2 (hinv.aligned_iff.1 h4) hm
  constructor
  · rintro ⟨ho, h4, rest, ha⟩
    rw [step_read_of_not_dataSet (by rw [hl h4]; rfl) ho h4 ha, hl h4, ha]
    rfl
  · rintro w ⟨ho, h4, rest, ha⟩
    rw [step_write_of_not_guarded (by rw [hl h4]; rfl) ho h4 ha, hl h4, ha]
    rfl

/-! ### Words that store what is written (R30, R33, R58) -/

/-- A register of a channel stores what is written exactly if it is TS, WN, ZETA or U_IN (R30). -/
theorem isStoringOffset_chan_iff {s : State} (hn : s.nch ≤ 16) {c o : Nat} (hc : c < s.nch) (ho : o ≤ 0x40) :
    isStoringOffset s (0x100 + 0x80 * c + o) ↔ 0x04 ≤ o ∧ o ≤ 0x10 := by
  constructor
  · rintro (h | h | ⟨c', o', _, _, _, _⟩ | ⟨h, _⟩) <;> omega
  · exact fun ⟨hlo, hhi⟩ => .inr (.inr (.inl ⟨c, o, hc, hlo, hhi, rfl⟩))

theorem Channel.write_of_readOnly (ch : Channel) (w : Word) {r : ChanReg} (h : ¬ (0x04 ≤ r.offset ∧ r.offset ≤ 0x10)) :
    ch.write w r = ch := by
  cases r with
  | ts | wn | zeta | uIn => exact absurd (by decide) h
  | _ => rfl

theorem Channel.read_write_self (ch : Channel) (w : Word) {r : ChanReg} (h : 0x04 ≤ r.offset ∧ r.offset ≤ 0x10) :
    (ch.write w r).read r = w := by
  cases r with
  | ts | wn | zeta | uIn => rfl
  | _ => exact absurd h (by decide)

/-- A channel replaced by itself. -/
theorem State.setChan_chan (s : State) (c : Nat) : s.setChan c (s.chan c) = s := by
  suffices h : s.chans.set c (s.chan c) = s.chans by rw [State.setChan, h]
  by_cases hc : c < s.chans.length
  · rw [State.chan, List.getD_eq_getElem _ _ hc, List.set_getElem_self]
  · exact List.set_eq_of_length_le (Nat.le_of_not_lt hc)

section Storing

variable {s : State} (hinv : s.Inv) {off : Nat} (h4 : off % 4 = 0) (w : Word)
include hinv h4

/-- A write at an offset that does not store what is written, STATUS and CTRL apart, is ignored (R57, R58). -/
theorem writeLoc_of_not_storing (hs : ¬ isStoringOffset s off) (hstatus : off ≠ 0x00C) (hctrl : off ≠ 0x010) :
    s.writeLoc w (s.locate off) = s := by
  cases offsetCase hinv.nchLegal.2 hinv.nmaxLegal.2 h4 with
  | low hlow =>
    rw [locate_low s hlow]
    unfold isStoringOffset at hs
    unfold lowReg
    split
    case h_1 | h_2 | h_10 | h_11 | h_12 => rfl
    all_goals omega
  | chan c o r hc ho _ hr he hl =>
    rw [he, isStoringOffset_chan_iff hinv.nchLegal.2 hc ho, ← ChanReg.offset_of_chanRegAt hr] at hs
    rw [hl, State.writeLoc, Channel.write_of_readOnly _ w hs, State.setChan_chan]
  | bufRe i hi he | bufIm i hi he =>
    simp only [bufOffset] at he
    exact absurd (.inr (.inr (.inr ⟨by omega, by omega⟩))) hs
  | unmapped hl => rw [hl]; rfl

/-- A location that stores what is written reads as it (R25, R29, R30, R34). -/
theorem readLoc_writeLoc_self (hs : isStoringOffset s off) :
    (s.writeLoc w (s.locate off)).readLoc (s.locate off) = w := by
  cases offsetCase hinv.nchLegal.2 hinv.nmaxLegal.2 h4 with
  | low hlow =>
    have hoff : off = 0x08 ∨ off = 0x20 ∨ off = 0x24 ∨ off = 0x28 ∨ off = 0x2C := by
      rcases hs with h | h | ⟨c, o, _, _, _, _⟩ | ⟨h, _⟩ <;> omega
    rcases hoff with rfl | rfl | rfl | rfl | rfl <;> rfl
  | chan c o r hc ho _ hr he hl =>
    rw [he, isStoringOffset_chan_iff hinv.nchLegal.2 hc ho, ← ChanReg.offset_of_chanRegAt hr] at hs
    rw [hl, State.writeLoc, State.readLoc, State.chan_setChan_self s hc, Channel.read_write_self _ w hs]
  | bufRe i _ _ hl | bufIm i _ _ hl => rw [hl]; exact s.bufWord_insertWord_self _ w
  | unmapped _ hlow hc hb =>
    rcases hs with h | h | ⟨c, o, hc', _, ho, he⟩ | h
    · omega
    · omega
    · exact absurd ⟨c, o, hc', Nat.zero_le o, by omega, he⟩ hc
    · exact absurd h hb

end Storing

/-- Settles O21: a word that does not store what is written ignores it; ID and INFO are not guarded. -/
theorem readOnlyWordsIgnoreWrites : Obligations.ReadOnlyWordsIgnoreWrites := by
  rintro s off w hinv ⟨ho, h4, rest, ha⟩
  refine ⟨fun hb _ hs hstatus hctrl => ?_, ?_⟩
  · rw [step_hostWrites ho h4 ha, busWrite_of_idle (s := { s with agenda := rest }) hb, ha,
      writeLoc_of_not_storing (hinv.withAgenda rest) (hinv.aligned_iff.1 h4) w hs hstatus hctrl]
    rfl
  · rintro (rfl | rfl)
    all_goals
      rw [ha]
      exact step_write_of_not_guarded rfl ho h4 ha

/-! ### The busy window (R65, R186) -/

/-- A write, while BUSY = 1, to CMD or to the data set is a protocol violation (R186). -/
theorem step_write_of_busy {s : State} {off : Nat} {w : Word} {rest : List Event} (hinv : s.Inv)
    (hb : s.status.busy = true) (hg : off = 0x008 ∨ isDataSetOffset s off) (ho : off < 0x20000)
    (h4 : (s.base + off) % 4 = 0) (ha : s.agenda = .write (s.base + off) .four w :: rest) :
    step s = .next (State.setBusyErr { s with agenda := rest }) := by
  have hguard : (s.locate off).guarded = true :=
    (guarded_iff hinv.nchLegal.2 hinv.nmaxLegal.2 (hinv.aligned_iff.1 h4)).2 hg
  have hcond : (s.status.busy && (s.locate off).guarded) = true := by rw [hb, hguard]; rfl
  exact (step_hostWrites ho h4 ha).trans (congrArg Outcome.next (if_pos hcond))

/-- Settles O23: the violation's effect, for each guarded word. -/
theorem busyWriteIsDroppedAndFlagged : Obligations.BusyWriteIsDroppedAndFlagged := by
  rintro s off w hinv hb ⟨ho, h4, rest, ha⟩ hg
  rw [ha]
  exact step_write_of_busy hinv hb hg ho h4 ha

/-- Settles O24: CMD is outside the data set; a word of the data set is a draw. -/
theorem busyReads : Obligations.BusyReads := by
  rintro s off hinv hb ⟨ho, h4, rest, ha⟩
  rw [ha]
  constructor
  · rintro rfl
    exact step_read_of_not_dataSet rfl ho h4 ha
  · intro hd
    have hcond : (s.status.busy && (s.locate off).dataSet) = true := by
      rw [hb, (dataSet_iff hinv.nchLegal.2 hinv.nmaxLegal.2 (hinv.aligned_iff.1 h4)).2 hd]
      rfl
    exact ⟨Config.freeWord s.draws, (step_hostReads ho h4 ha).trans (congrArg Outcome.next (if_pos hcond))⟩

/-! ### A command does not read BUSYERR (R186, R189) -/

/-- What it does with BUSYERR set is what it does without, and BUSYERR stays set. -/
def IgnoresBusyErr (f : State → Outcome State Fault Refusal) : Prop :=
  ∀ ⦃s t : State⦄, f s = .next t → f s.setBusyErr = .next t.setBusyErr

namespace IgnoresBusyErr

theorem of_complexCommand (f : Cplx → Cplx → Cplx) : IgnoresBusyErr (complexCommand f) := by rintro s _ ⟨⟩; rfl

/-- The length rules read the parameters only. -/
theorem of_bufferCommand {ok : State → Bool} (hok : ∀ s, ok s.setBusyErr = ok s) (n : Nat) (f : List Cplx → List Cplx) :
    IgnoresBusyErr fun s => bufferCommand (ok s) n f s := by
  intro s t h
  dsimp only at h ⊢
  rw [hok]
  rcases bufferCommand_next h with ⟨hs, rfl⟩ | ⟨hs, rfl⟩ <;> rw [hs] <;> rfl

theorem of_channelCommand (c : Nat) {f : Channel → State → Outcome State Fault Refusal}
    (hf : ∀ ch, IgnoresBusyErr (f ch)) : IgnoresBusyErr (channelCommand c f) := by
  intro s t h
  by_cases hc : c < s.nch
  · rw [channelCommand_of_lt hc] at h
    exact (channelCommand_of_lt (s := s.setBusyErr) hc f).trans (hf _ h)
  · rw [channelCommand_of_le (Nat.le_of_not_lt hc)] at h
    cases h
    exact channelCommand_of_le (s := s.setBusyErr) (Nat.le_of_not_lt hc) f

theorem of_construct (kind : Kind) (coeffs : Channel → Coeffs) (c : Nat) : IgnoresBusyErr (construct kind coeffs c) :=
  of_channelCommand c fun ch => by rintro s _ ⟨⟩; rfl

theorem of_execFapply (c : Nat) : IgnoresBusyErr (execFapply c) := by
  refine of_channelCommand c fun ch s t h => ?_
  cases hv : ch.valid <;>
  · rw [hv] at h
    cases h
    rfl

theorem of_exec (i : Instr) : IgnoresBusyErr (exec i) := by
  cases i with
  | cadd => exact of_complexCommand cadd
  | csub => exact of_complexCommand csub
  | cmul => exact of_complexCommand cmul
  | cpolar => exact of_complexCommand fun a b => cpolar a.re b.re
  | fftDft n | fftRs n | fftRb n | fftIt n | bitrev n => exact of_bufferCommand (fun _ => rfl) n _
  | fcfgLpf1 c | fcfgHpf1 c | fcfgLpf2 c | fcfgHpf2 c => exact of_construct _ _ c
  | fapply c => exact of_execFapply c

/-- ENGINE's turn reads CMD and BUSY of what a violation leaves. -/
theorem of_engineTurn : IgnoresBusyErr engineTurn := by
  intro s t h
  cases hb : s.status.busy with
  | false =>
    rw [engineTurn_idle hb] at h
    cases h
    exact engineTurn_idle (s := s.setBusyErr) hb
  | true =>
    cases hd : decode s.cmd with
    | error e =>
      rw [engineTurn_illegal hb hd] at h
      cases h
      exact engineTurn_illegal (s := s.setBusyErr) hb hd
    | ok i =>
      rw [engineTurn_run hb hd] at h
      exact (engineTurn_run (s := s.setBusyErr) hb hd).trans (of_exec i h)

end IgnoresBusyErr

/-- Settles O27: the dropped write sets BUSYERR only, which ENGINE's turn does not read. -/
theorem droppedWriteDoesNotAffectTheCommand : Obligations.DroppedWriteDoesNotAffectTheCommand := by
  intro s off w rest hinv hb ho h4 hg ha
  obtain ⟨t, ht⟩ := engineTurn_next { s with agenda := rest }
  refine ⟨t, (step_cons (s := { s with agenda := .engine :: rest }) rfl).trans ht, ?_⟩
  exact run_two (step_write_of_busy hinv hb hg ho (hinv.aligned_iff.2 h4) ha)
    ((step_cons (s := State.setBusyErr { s with agenda := .engine :: rest }) rfl).trans (IgnoresBusyErr.of_engineTurn ht))

/-! ### What is read (R53, R54, R61) -/

/-- A write keeps what is still to come. -/
theorem WriteEffect.agenda {s t : State} {off : Nat} {w : Word} (h : WriteEffect s off w t) : t.agenda = s.agenda := by
  cases h <;> rfl

theorem chanRegAt_offset (r : ChanReg) : chanRegAt r.offset = some r := by cases r <;> rfl

theorem ChanReg.offset_le (r : ChanReg) : r.offset ≤ 0x40 := by cases r <;> decide

theorem ChanReg.offset_aligned (r : ChanReg) : r.offset % 4 = 0 := by cases r <;> rfl

/-- The fields of FSTAT's word (R30, R31). -/
theorem Channel.fstat_fields (ch : Channel) :
    ch.fstat.getLsbD 0 = ch.valid ∧ ch.fstat.extractLsb' 1 2 = ch.kind.code ∧ ch.fstat.extractLsb' 3 29 = 0#29 := by
  refine ⟨?_, ?_, ?_⟩
  · simp only [fstat, BitVec.getLsbD_append]
    simp
  all_goals
    apply BitVec.eq_of_getLsbD_eq
    intro i hi
    simp only [fstat, BitVec.getLsbD_extractLsb', BitVec.getLsbD_append]
    interval_cases i <;> simp

theorem Kind.code_toNat (k : Kind) : k.code.toNat = kindNumber k := by cases k <;> rfl

/-- R30's table lists registers at their offsets. -/
theorem exists_reg_of_mem_channelTable {ch : Channel} {o : Nat} {v : Word} (h : (o, v) ∈ channelTable ch) :
    ∃ r : ChanReg, r.offset = o ∧ ch.read r = v := by
  have ht : channelTable ch = [ChanReg.ts, .wn, .zeta, .uIn, .yOut, .a1, .a2, .b0, .b1, .b2, .mq, .nq, .uOld0, .uOld1,
      .yOld0, .yOld1].map fun r => (r.offset, ch.read r) := rfl
  rw [ht, List.mem_map] at h
  obtain ⟨r, _, hr⟩ := h
  exact ⟨r, Prod.mk.inj hr⟩

/-- CMD and the complex unit's registers are where R29 tabulates them. -/
theorem readLoc_of_mem_registerTable {s : State} {off : Nat} {v : Word} (h : (off, v) ∈ registerTable s) :
    off < 0x20000 ∧ off % 4 = 0 ∧ s.readLoc (s.locate off) = v := by
  simp only [registerTable, List.mem_cons, Prod.mk.injEq, List.not_mem_nil, or_false] at h
  rcases h with ⟨rfl, rfl⟩ | ⟨rfl, rfl⟩ | ⟨rfl, rfl⟩ | ⟨rfl, rfl⟩ | ⟨rfl, rfl⟩ | ⟨rfl, rfl⟩ | ⟨rfl, rfl⟩ <;>
    exact ⟨by decide, by decide, rfl⟩

/-- A read that comes right after a write to a word that stores it returns the written word (R61). CMD, whose write ends
the idle state, is outside the data set. -/
theorem step_read_of_written {s : State} {off : Nat} {w : Word} {rest : List Event} (hinv : s.Inv)
    (hb : s.status.busy = false) (ho : off < 0x20000) (h4 : off % 4 = 0) (hs : isStoringOffset s off)
    (ha : s.agenda = .read (s.base + off) .four :: rest) :
    ∃ t, step (s.busWrite off w) = .next t ∧ t.rdata = w ∧ t.agenda = rest := by
  have heff := busWrite_effect s off w
  have hread := readLoc_writeLoc_self hinv h4 w hs
  rw [← busWrite_of_idle hb] at hread
  generalize s.busWrite off w = t at heff hread
  obtain ⟨hp, hn, hbase⟩ := heff.parameters
  rw [← locate_congr hp hn] at hread
  rw [← heff.agenda, ← hbase] at ha
  have h4' : (t.base + off) % 4 = 0 := by rw [hbase]; exact hinv.aligned_iff.2 h4
  refine ⟨{ t with agenda := rest, rdata := t.readLoc (t.locate off) }, ?_, hread, rfl⟩
  by_cases hcmd : off = 0x008
  · subst hcmd
    exact step_read_of_not_dataSet rfl ho h4' ha
  · exact step_read_of_idle (heff.idle hb hcmd) ho h4' ha

section Idle

variable {s : State} (hinv : s.Inv) (hb : s.status.busy = false) {rest : List Event}
include hinv hb

/-- A read of a channel's register (R53). -/
theorem step_read_chan {c : Nat} (hc : c < s.nch) (r : ChanReg)
    (ha : s.agenda = .read (s.base + (0x100 + 0x80 * c + r.offset)) .four :: rest) :
    step s = .next { s with agenda := rest, rdata := (s.chan c).read r } := by
  have hn := hinv.nchLegal.2
  have ho := r.offset_le
  have h4 := r.offset_aligned
  have hl : s.locate (0x100 + 0x80 * c + r.offset) = .chan c r := by
    rw [locate_chan hn hc (by omega), chanRegAt_offset]
  rw [step_read_of_idle hb (by omega) (hinv.aligned_iff.2 (by omega)) ha, hl]
  rfl

/-- A read of a word of BUF (R54). -/
theorem step_read_buf {i : Nat} (hi : i < s.nmax) :
    (s.agenda = .read (s.base + bufOffset i) .four :: rest →
      step s = .next { s with agenda := rest, rdata := (s.bufEntry i).re }) ∧
    (s.agenda = .read (s.base + (bufOffset i + 4)) .four :: rest →
      step s = .next { s with agenda := rest, rdata := (s.bufEntry i).im }) := by
  have hp := hinv.nmaxLegal.2
  have hm := nmax_le hp
  have hoff : bufOffset i + 4 < 0x20000 ∧ bufOffset i % 4 = 0 := by unfold bufOffset; omega
  constructor <;> intro ha
  · rw [step_read_of_idle hb (by omega) (hinv.aligned_iff.2 (by omega)) ha, locate_bufRe hp hi]
    rfl
  · rw [step_read_of_idle hb (by omega) (hinv.aligned_iff.2 (by omega)) ha, locate_bufIm hp hi]
    rfl

end Idle

/-- Settles O25: while BUSY = 0 a read returns the register that the map has at its offset. -/
theorem writtenWordIsReadBack : Obligations.WrittenWordIsReadBack := by
  intro s rest hinv hb
  refine ⟨fun off w ho h4 hs ha => ?_, fun off v hmem ha => ?_, fun c o v hc hmem ha => ?_, fun c hc ha => ?_,
    fun i hi => ?_⟩
  · obtain ⟨t, ht, hread⟩ := step_read_of_written (w := w)
      (hinv.withAgenda (.read (s.base + off) .four :: rest)) hb ho h4 hs rfl
    exact ⟨t, run_two (step_hostWrites ho (hinv.aligned_iff.2 h4) ha) ht, hread⟩
  · obtain ⟨ho, h4, rfl⟩ := readLoc_of_mem_registerTable hmem
    exact step_read_of_idle hb ho (hinv.aligned_iff.2 h4) ha
  · obtain ⟨r, rfl, rfl⟩ := exists_reg_of_mem_channelTable hmem
    exact step_read_chan hinv hb hc r ha
  · obtain ⟨hvalid, hkind, hhigh⟩ := (s.chan c).fstat_fields
    refine ⟨(s.chan c).fstat, step_read_chan hinv hb hc .fstat ha, hvalid, ?_, hhigh⟩
    rw [hkind, Kind.code_toNat]
  · obtain ⟨hre, him⟩ := step_read_buf hinv hb (rest := rest) hi
    refine ⟨hre, fun ha => him ?_⟩
    rw [ha, bufOffset, Nat.add_right_comm]

end Sys2Proof.Machine

/-! The encoding (30_encoding.md): a word and its fields, what the decoder can answer, and the rows of the opcode map. -/

namespace Sys2Proof

/-! ### A word and its fields (R70, R71) -/

theorem fieldsOf_injective : Function.Injective fieldsOf := Function.LeftInverse.injective wordOf_fieldsOf

theorem fieldsOf_and (v w : Word) : fieldsOf (v &&& w) =
    ⟨(fieldsOf v).op &&& (fieldsOf w).op, (fieldsOf v).ch &&& (fieldsOf w).ch,
      (fieldsOf v).rsv &&& (fieldsOf w).rsv, (fieldsOf v).nlen &&& (fieldsOf w).nlen⟩ := by
  simp [fieldsOf, BitVec.extractLsb'_and]

/-! ### From a command to its word and back (R78) -/

/-- The fields of a command's word (R78). -/
def commandFields (i : Instr) : Fields := ⟨opcode i, chField i, 0, nlenField i⟩

theorem encode_eq_wordOf (i : Instr) : encode i = wordOf (commandFields i) := rfl

/-- The operand is the one thing that encoding could lose: the arms of the decoder give it back from its field. -/
theorem decodeFields_commandFields {i : Instr} (h : i.wellFormed = true) : decodeFields (commandFields i) = .ok i := by
  cases i with
  | cadd | csub | cmul | cpolar => rfl
  | fftDft n | fftRs n | fftRb n | fftIt n | bitrev n =>
    conv_rhs => rw [← toNat_lengthField h]
    rfl
  | fcfgLpf1 c | fcfgHpf1 c | fcfgLpf2 c | fcfgHpf2 c | fapply c =>
    conv_rhs => rw [← toNat_channelField h]
    rfl

/-- Settles O2: a word has the fields that it was made of, and the decoder reads the command off them. -/
theorem decodeOfEncodeIsTheCommand : Obligations.DecodeOfEncodeIsTheCommand := by
  intro i h
  rw [decode, encode_eq_wordOf, fieldsOf_wordOf, decodeFields_commandFields h]

/-! ### What the decoder can answer -/

/-- The fields that a class must hold zero are zero (R73). -/
def Class.reservedZero : Class → Fields → Prop
  | .complex, f => f.ch = 0 ∧ f.rsv = 0 ∧ f.nlen = 0
  | .fft, f => f.ch = 0 ∧ f.rsv = 0
  | .filter, f => f.rsv = 0 ∧ f.nlen = 0

/-- The 14 values of OP (R74). -/
def assignedOps : List (BitVec 8) :=
  [0x01, 0x02, 0x03, 0x04, 0x10, 0x11, 0x12, 0x13, 0x14, 0x20, 0x21, 0x22, 0x23, 0x28]

theorem opcode_mem_assignedOps (i : Instr) : opcode i ∈ assignedOps := by
  cases i <;> simp [opcode, assignedOps]

/-- What the decoder can answer on given fields, and when. -/
inductive DecodeAnswer (f : Fields) : Except DecodeError Instr → Prop
  /-- the fields are a command's own -/
  | command (i : Instr) (hf : f = commandFields i) (hw : i.wellFormed = true) : DecodeAnswer f (.ok i)
  /-- OP is some command's, but a field of its class is not zero -/
  | nonzeroField (i : Instr) (hop : f.op = opcode i) (hz : ¬ (classOf i).reservedZero f) :
      DecodeAnswer f (.error .nonzeroField)
  /-- OP is no command's -/
  | unassignedOp (hop : f.op ∉ assignedOps) : DecodeAnswer f (.error .unassignedOp)

theorem DecodeAnswer.of_ite {f : Fields} {p : Prop} [Decidable p] {a b : Except DecodeError Instr}
    (ha : p → DecodeAnswer f a) (hb : ¬ p → DecodeAnswer f b) : DecodeAnswer f (if p then a else b) := by
  split
  next h => exact ha h
  next h => exact hb h

theorem complexForm_answer {f : Fields} {i : Instr} (hop : f.op = opcode i) (hc : classOf i = .complex)
    (hi : commandFields i = ⟨opcode i, 0, 0, 0⟩) (hw : i.wellFormed = true) : DecodeAnswer f (complexForm f i) := by
  obtain ⟨op, ch, rsv, nlen⟩ := f
  refine .of_ite (fun hz => .command i ?_ hw) (fun hz => .nonzeroField i hop (by rwa [hc]))
  obtain ⟨rfl, rfl, rfl⟩ := hz
  rw [hi, ← hop]

theorem fftForm_answer {f : Fields} {mk : Nat → Instr} (hop : f.op = opcode (mk f.nlen.toNat))
    (hc : ∀ n, classOf (mk n) = .fft) (hi : ∀ n, commandFields (mk n) = ⟨opcode (mk n), 0, 0, .ofNat 16 n⟩)
    (hw : ∀ n, (mk n).wellFormed = lengthFits n) : DecodeAnswer f (fftForm f mk) := by
  obtain ⟨op, ch, rsv, nlen⟩ := f
  refine .of_ite (fun hz => .command _ ?_ ?_) (fun hz => .nonzeroField _ hop (by rwa [hc]))
  · obtain ⟨rfl, rfl⟩ := hz
    rw [hi, ← hop, BitVec.ofNat_toNat, BitVec.setWidth_eq]
  · rw [hw]
    exact decide_eq_true nlen.isLt

theorem filterForm_answer {f : Fields} {mk : Nat → Instr} (hop : f.op = opcode (mk f.ch.toNat))
    (hc : ∀ c, classOf (mk c) = .filter) (hi : ∀ c, commandFields (mk c) = ⟨opcode (mk c), .ofNat 4 c, 0, 0⟩)
    (hw : ∀ c, (mk c).wellFormed = channelFits c) : DecodeAnswer f (filterForm f mk) := by
  obtain ⟨op, ch, rsv, nlen⟩ := f
  refine .of_ite (fun hz => .command _ ?_ ?_) (fun hz => .nonzeroField _ hop (by rwa [hc]))
  · obtain ⟨rfl, rfl⟩ := hz
    rw [hi, ← hop, BitVec.ofNat_toNat, BitVec.setWidth_eq]
  · rw [hw]
    exact decide_eq_true ch.isLt

theorem decodeFields_answer (f : Fields) : DecodeAnswer f (decodeFields f) := by
  unfold decodeFields
  iterate 4 refine .of_ite (complexForm_answer · rfl rfl rfl) fun _ => ?_
  iterate 5 refine .of_ite (fftForm_answer · (fun _ => rfl) (fun _ => rfl) (fun _ => rfl)) fun _ => ?_
  iterate 5 refine .of_ite (filterForm_answer · (fun _ => rfl) (fun _ => rfl) (fun _ => rfl)) fun _ => ?_
  exact .unassignedOp (by simp only [assignedOps, List.mem_cons, List.not_mem_nil, or_false, *, not_false_eq_true])

theorem decode_answer (w : Word) : DecodeAnswer (fieldsOf w) (decode w) := decodeFields_answer (fieldsOf w)

theorem fieldsOf_of_decode {w : Word} {i : Instr} (h : decode w = .ok i) :
    fieldsOf w = commandFields i ∧ i.wellFormed = true := by
  have ha := decode_answer w
  rw [h] at ha
  cases ha with
  | command _ hf hw => exact ⟨hf, hw⟩

/-- Settles O3: the decoder accepts only the fields of a command, and a word is known by its fields. -/
theorem decodedWordIsTheEncoding : Obligations.DecodedWordIsTheEncoding := by
  intro w i h
  obtain ⟨hf, hw⟩ := fieldsOf_of_decode h
  exact ⟨by rw [encode_eq_wordOf, ← hf, wordOf_fieldsOf], hw⟩

theorem decode_eq_unassignedOp_iff (w : Word) : decode w = .error .unassignedOp ↔ (fieldsOf w).op ∉ assignedOps := by
  have ha := decode_answer w
  generalize decode w = a at ha ⊢
  cases ha with
  | command i hf => simp [hf, commandFields, opcode_mem_assignedOps]
  | nonzeroField i hop => simp [hop, opcode_mem_assignedOps]
  | unassignedOp hop => simp [hop]

/-! ### The rows of the opcode map (R74) -/

/-- The mask of a class's rows, by field: ones in OP and in the fields that must be zero. -/
def Class.mask : Class → Fields
  | .complex => ⟨.allOnes 8, .allOnes 4, .allOnes 4, .allOnes 16⟩
  | .fft => ⟨.allOnes 8, .allOnes 4, .allOnes 4, 0⟩
  | .filter => ⟨.allOnes 8, 0, .allOnes 4, .allOnes 16⟩

theorem rowOf_eq (i : Instr) : rowOf i = ⟨wordOf ⟨opcode i, 0, 0, 0⟩, wordOf (classOf i).mask⟩ := by
  cases i <;> simp only [rowOf, opcode, classOf, Class.mask] <;> decide

theorem rowOf_mem_opcodeMap (i : Instr) : rowOf i ∈ opcodeMap := by
  cases i <;> simp [rowOf, opcodeMap]

theorem opcodeMap_eq_map_rowOf : opcodeMap =
    [Instr.cadd, .csub, .cmul, .cpolar, .fftDft 0, .fftRs 0, .fftRb 0, .fftIt 0, .bitrev 0, .fcfgLpf1 0, .fcfgHpf1 0,
      .fcfgLpf2 0, .fcfgHpf2 0, .fapply 0].map rowOf := by
  simp [opcodeMap, rowOf]

theorem exists_rowOf_eq {r : OpcodeRow} (h : r ∈ opcodeMap) : ∃ i, rowOf i = r := by
  rw [opcodeMap_eq_map_rowOf, List.mem_map] at h
  obtain ⟨i, _, hi⟩ := h
  exact ⟨i, hi⟩

/-- A row is known by its pattern, hence by its OP. -/
theorem rowOf_eq_of_opcode_eq {i j : Instr} (h : opcode i = opcode j) : rowOf i = rowOf j := by
  have hinj : ∀ r ∈ opcodeMap, ∀ r' ∈ opcodeMap, r.pattern = r'.pattern → r = r' := by decide
  exact hinj _ (rowOf_mem_opcodeMap i) _ (rowOf_mem_opcodeMap j) (by rw [rowOf_eq, rowOf_eq, h])

theorem selects_rowOf_iff (i : Instr) (w : Word) : (rowOf i).selects w = true ↔
    (fieldsOf w).op = opcode i ∧ (classOf i).reservedZero (fieldsOf w) := by
  rw [OpcodeRow.selects, beq_iff_eq, rowOf_eq, ← fieldsOf_injective.eq_iff, fieldsOf_and, fieldsOf_wordOf,
    fieldsOf_wordOf, Fields.mk.injEq]
  cases classOf i <;> simp [Class.mask, Class.reservedZero, -BitVec.reduceAllOnes]

theorem exists_decode_of_selects {i : Instr} {w : Word} (h : (rowOf i).selects w = true) :
    ∃ j, decode w = .ok j := by
  obtain ⟨hop, hz⟩ := (selects_rowOf_iff i w).1 h
  have ha := decode_answer w
  generalize decode w = a at ha ⊢
  cases ha with
  | command j => exact ⟨j, rfl⟩
  | nonzeroField j hop' hz' =>
    rw [rowOf_eq_of_opcode_eq (hop.symm.trans hop')] at h
    exact absurd ((selects_rowOf_iff j w).1 h).2 hz'
  | unassignedOp hop' => exact absurd (hop ▸ opcode_mem_assignedOps i) hop'

theorem reservedZero_commandFields (i : Instr) : (classOf i).reservedZero (commandFields i) := by
  cases i with
  | cadd | csub | cmul | cpolar => exact ⟨rfl, rfl, rfl⟩
  | fftDft | fftRs | fftRb | fftIt | bitrev | fcfgLpf1 | fcfgHpf1 | fcfgLpf2 | fcfgHpf2 | fapply => exact ⟨rfl, rfl⟩

theorem selects_rowOf_of_decode {w : Word} {i : Instr} (h : decode w = .ok i) : (rowOf i).selects w = true := by
  rw [selects_rowOf_iff, (fieldsOf_of_decode h).1]
  exact ⟨rfl, reservedZero_commandFields i⟩

/-- Settles O4: what the rows select and what the decoder accepts are both read off OP and the reserved fields. -/
theorem decoderFollowsTheOpcodeMap : Obligations.DecoderFollowsTheOpcodeMap := by
  refine ⟨fun w i h => ⟨rowOf_mem_opcodeMap i, selects_rowOf_of_decode h⟩, ?_, fun w r r' hr hr' h h' => ?_,
    decode_eq_unassignedOp_iff⟩
  · rintro w ⟨r, hr, h⟩
    obtain ⟨i, rfl⟩ := exists_rowOf_eq hr
    exact exists_decode_of_selects h
  · obtain ⟨i, rfl⟩ := exists_rowOf_eq hr
    obtain ⟨j, rfl⟩ := exists_rowOf_eq hr'
    have hi := ((selects_rowOf_iff i w).1 h).1
    have hj := ((selects_rowOf_iff j w).1 h').1
    exact rowOf_eq_of_opcode_eq (hi.symm.trans hj)

/-! ### The worked encodings (R80) -/

theorem worked_of_encode {i : Instr} {w : Word} (hw : i.wellFormed = true) (h : encode i = w) :
    encode i = w ∧ decode w = .ok i :=
  ⟨h, h ▸ decodeOfEncodeIsTheCommand i hw⟩

open Machine in
theorem runCommand_of_decode_error {s : State} {e : DecodeError} (h : decode s.cmd = .error e) :
    runCommand s = .next (s.complete .illegalCmd) := by
  simp [runCommand, h, raiseError]

/-- Settles O1: the 12 words are encodings, and the three illegal words have a nonzero field. -/
theorem workedEncodings : Obligations.WorkedEncodings := by
  unfold Obligations.WorkedEncodings
  iterate 12 refine ⟨worked_of_encode rfl rfl, ?_⟩
  refine fun s hs => runCommand_of_decode_error (e := .nonzeroField) ?_
  rcases hs with h | h | h <;> rw [h] <;> rfl

end Sys2Proof

/-! The complex unit (40_complex.md): its commands as one operand form, the product's symmetry, and the twiddle factor. -/

namespace Sys2Proof.Machine

/-! ### The complex commands (R94 to R97) -/

/-- The complex form writes RES and completes, in every state. -/
theorem complexCommand_next (f : Cplx → Cplx → Cplx) (s : State) :
    complexCommand f s = .next ((s.setRes (f s.opA s.opB)).complete .noError) := rfl

/-- The commands of the complex class are those of the complex form. -/
theorem exec_of_complex {i : Instr} (h : classOf i = .complex) : ∃ f, exec i = complexCommand f := by
  cases i with
  | cadd => exact ⟨cadd, rfl⟩
  | csub => exact ⟨csub, rfl⟩
  | cmul => exact ⟨cmul, rfl⟩
  | cpolar => exact ⟨fun a b => cpolar a.re b.re, rfl⟩
  | fftDft | fftRs | fftRb | fftIt | bitrev | fcfgLpf1 | fcfgHpf1 | fcfgLpf2 | fcfgHpf2 | fapply => cases h

/-- Settles O43: each command is the complex form of its own function of OPA and OPB. -/
theorem complexCommandResults : Obligations.ComplexCommandResults := fun s =>
  ⟨⟨_, complexCommand_next cadd s, rfl⟩, ⟨_, complexCommand_next csub s, rfl⟩, ⟨_, complexCommand_next cmul s, rfl⟩,
    ⟨_, complexCommand_next (fun a b => cpolar a.re b.re) s, rfl⟩⟩

/-- Settles O44: the complex form's one next state differs from the state in RES and STATUS alone. -/
theorem complexCommandFrame : Obligations.ComplexCommandFrame := by
  intro s t i hi h
  obtain ⟨f, hf⟩ := exec_of_complex hi
  rw [hf, complexCommand_next] at h
  cases h
  simp

/-! ### The complex product (R92) -/

theorem isNaN_or_isInf_or_isFinite (x : Word) : isNaN x = true ∨ isInf x = true ∨ isFinite x = true := by
  rw [isNaN_iff, isInf_iff, isFinite_iff]
  omega

theorem eq_pack_infBits_of_isInf {x : Word} (h : isInf x = true) : x = pack (signBit x) infBits := by
  rw [← (isInf_iff x).1 h, pack_signBit_magBits]

theorem fmul_comm (a b : Word) : fmul a b = fmul b a := by
  unfold fmul
  rw [Bool.or_comm (isNaN a), Bool.or_comm (isInf a), Bool.or_comm (isZero a), Nat.mul_comm (magUnits a),
    bne_comm (a := signBit a)]

theorem sumSign_comm (a b : Word) : sumSign a b = sumSign b a := by
  rw [sumSign, sumSign, Int.add_comm (units a), Bool.and_comm (signBit a)]

/-- The sum commutes within each class of operands: two infinities of one sign are the same word. -/
theorem fadd_comm (a b : Word) : fadd a b = fadd b a := by
  rcases isNaN_or_isInf_or_isFinite a with ha | ha | ha
  · rw [fadd_of_isNaN (.inl ha), fadd_of_isNaN (.inr ha)]
  · rcases isNaN_or_isInf_or_isFinite b with hb | hb | hb
    · rw [fadd_of_isNaN (.inr hb), fadd_of_isNaN (.inl hb)]
    · rw [fadd_of_isInf ha hb, fadd_of_isInf hb ha]
      by_cases hs : signBit a = signBit b
      · rw [if_pos hs, if_pos hs.symm, eq_pack_infBits_of_isInf ha, hs, ← eq_pack_infBits_of_isInf hb]
      · rw [if_neg hs, if_neg (Ne.symm hs)]
    · rw [fadd_inf_left ha hb, fadd_inf_right ha hb]
  · rcases isNaN_or_isInf_or_isFinite b with hb | hb | hb
    · rw [fadd_of_isNaN (.inr hb), fadd_of_isNaN (.inl hb)]
    · rw [fadd_inf_right hb ha, fadd_inf_left hb ha]
    · rw [fadd_of_isFinite ha hb, fadd_of_isFinite hb ha, sumSign_comm, Int.add_comm]

/-- Settles O45: the real part is symmetric in its products, the imaginary part in its sum as well. -/
theorem complexProductCommutes : Obligations.ComplexProductCommutes := by
  intro a b
  rw [cmul, cmul, fmul_comm a.re b.re, fmul_comm a.im b.im, fmul_comm a.re b.im, fmul_comm a.im b.re, fadd_comm]

/-! ### Multiplication by 1 -/

/-- The exponent k that `roundMag` finds for a significand m with quantum 2^k is k again. -/
theorem log2_significand {m k : Nat} (hm : m < 2 ^ 24) (hk : k = 0 ∨ 2 ^ 23 ≤ m) : Nat.log2 (m * 2 ^ k) - 23 = k := by
  rcases hk with rfl | hlo
  · rcases Nat.eq_zero_or_pos m with rfl | hpos
    · rfl
    · rw [Nat.pow_zero, Nat.mul_one]
      exact Nat.sub_eq_zero_of_le (Nat.le_of_lt_succ ((Nat.log2_lt hpos.ne').2 hm))
  · have hne : m * 2 ^ k ≠ 0 := by positivity
    have h : Nat.log2 (m * 2 ^ k) = 23 + k := by
      rw [Nat.log2_eq_iff hne, Nat.add_right_comm, Nat.pow_add, Nat.pow_add _ (23 + 1)]
      exact ⟨Nat.mul_le_mul_right _ hlo, Nat.mul_lt_mul_of_pos_right hm (Nat.two_pow_pos k)⟩
    rw [h, Nat.add_sub_cancel_left]

/-- What a finite magnitude stands for rounds to that magnitude. -/
theorem roundMag_bitsUnits {b d : Nat} (hd : 0 < d) (hb : b < infBits) : roundMag (d * bitsUnits b) d = b := by
  obtain ⟨m, k, hbits, hm, hk, -, hv⟩ := exists_significand hb
  have hq : 0 < d * 2 ^ k := Nat.mul_pos hd (Nat.two_pow_pos k)
  have hlog : Nat.log2 (d * (m * 2 ^ k) / d) - 23 = k := by rw [Nat.mul_div_cancel_left _ hd, log2_significand hm hk]
  have hn : d * (m * 2 ^ k) = d * 2 ^ k * m := by ring
  have hdiv : d * (m * 2 ^ k) / (d * 2 ^ k) = m := by rw [hn, Nat.mul_div_cancel_left _ hq]
  have hmod : d * (m * 2 ^ k) % (d * 2 ^ k) = 0 := by rw [hn, Nat.mul_mod_right]
  simp only [roundMag, hv, hlog, hdiv, hmod]
  rw [if_neg (by simp [hd.ne']), ← hbits, Nat.min_eq_left hb.le]

/-- 1 * x is x, unless x is a NaN that is not canonical (R9). -/
theorem fOne_fmul {x : Word} (h : CanonicalNaN x) : fmul fOne x = x := by
  have hs : (signBit fOne != signBit x) = signBit x := Bool.false_xor _
  rcases isNaN_or_isInf_or_isFinite x with hx | hx | hx
  · rw [fmul_of_isNaN (.inr hx), h hx]
  · rw [fmul_inf_of_not_isZero rfl (isNaN_of_isInf hx) (.inr hx) rfl (isZero_of_isInf hx), hs,
      ← eq_pack_infBits_of_isInf hx]
  · have hone : magUnits fOne = 2 ^ 149 := by decide
    rw [fmul_of_isFinite rfl hx, hs, hone, magUnits_eq, roundMag_bitsUnits (Nat.two_pow_pos 149) ((isFinite_iff x).1 hx),
      pack_signBit_magBits]

/-! ### The twiddle factor (R98) -/

/-- What is at least one unit does not round to zero. -/
theorem roundMag_pos {n d : Nat} (hd : 0 < d) (hn : d ≤ n) : 0 < roundMag n d := by
  obtain ⟨k, m, r, hq, hr, -, hk, hR⟩ := roundMag_quantum n d hd
  rw [hR, Nat.lt_min]
  refine ⟨Nat.pos_of_ne_zero fun h0 => ?_, by decide⟩
  obtain ⟨rfl, rfl⟩ : m = 0 ∧ k = 0 := by split at h0 <;> omega
  omega

theorem isNaN_fcvt (m : Nat) : isNaN (fcvt m) = false := isNaN_pack_roundMag ..

theorem isZero_fcvt {m : Nat} (hm : 1 ≤ m) : isZero (fcvt m) = false := by
  have hpos : 0 < roundMag (m * 2 ^ 149) 1 := roundMag_pos one_pos (Nat.mul_pos hm (Nat.two_pow_pos 149))
  rw [← Bool.not_eq_true, isZero_iff, fcvt, magBits_pack _ (roundMag_lt _ _)]
  exact hpos.ne'

/-- A zero over a number that is not zero, infinities included, is a zero. -/
theorem fdiv_of_isZero {a b : Word} (ha : isZero a = true) (hn : isNaN b = false) (hz : isZero b = false) :
    fdiv a b = pack (signBit a != signBit b) 0 := by
  have hf := isFinite_of_isZero ha
  cases hi : isInf b with
  | true => exact fdiv_inf_right hf hi
  | false =>
    rw [fdiv_of_isFinite hf (isFinite_of_not hn hi) hz, (magUnits_eq_zero_iff hf).2 ha, Nat.zero_mul]
    simp [roundMag]

/-- The angle of TW(0, M) is -0, for every M >= 1. -/
theorem twiddleAngle_zero {m : Nat} (hm : 1 ≤ m) : twiddleAngle 0 m = 0x80000000#32 := by
  have hzero : fmul twoPi32 (fcvt 0) = fZero := by decide
  have hsign : signBit (fcvt m) = false := signBit_pack ..
  rw [twiddleAngle, hzero, fdiv_of_isZero rfl (isNaN_fcvt m) (isZero_fcvt hm), hsign]
  rfl

/-- FCOS and FSIN answer no NaN but the canonical one, so CPOLAR's product with 1 is exact. -/
theorem twiddle_eq (i m : Nat) : twiddle i m = ⟨Config.fcos (twiddleAngle i m), Config.fsin (twiddleAngle i m)⟩ := by
  rw [twiddle, cpolar, fOne_fmul (CanonicalNaN.of_fcos _), fOne_fmul (CanonicalNaN.of_fsin _)]

/-- Settles O46: the product with 1 is exact, and TW(0, M) is P1 of FCOS and FSIN at -0. -/
theorem twiddleFactor : Obligations.TwiddleFactor := by
  refine ⟨fun m hm => ?_, twiddle_eq⟩
  rw [twiddle_eq, twiddleAngle_zero hm]
  rfl

end Sys2Proof.Machine

/-! The filters (41_iir.md): what a construction and a filter step make of a channel, the frame of the filter commands,
and the NaN that a filter keeps. -/

namespace Sys2Proof.Machine

/-! ### Constructions (R111 to R115) -/

/-- A construction on a channel c < NCH completes and configures the channel. -/
theorem exec_construction {s : State} {c : Nat} (hc : c < s.nch) (kind : Kind) :
    ∃ t, exec (constructionOf c kind) s = .next t ∧ t.status = ⟨false, true, .noError, s.status.busyErr⟩ ∧
      t.chan c = (s.chan c).configure kind (coeffsOf kind (s.chan c)) :=
  ⟨_, (exec_constructionOf c kind s).trans (construct_of_lt hc), rfl, State.chan_setChan_self s hc _⟩

/-- Negation is an involution on everything but NaNs (R113). -/
theorem fneg_fneg {x : Word} (h : isNaN x = false) : fneg (fneg x) = x := by
  have h' : isNaN (fneg x) = false := (isNaN_fneg x).trans h
  apply word_ext
  · rw [signBit_fneg h', signBit_fneg h, Bool.not_not]
  · rw [magBits_fneg h', magBits_fneg h]

/-- Settles O53: the formulas are the configured channel's, and HPF1's B1 is q negated twice. -/
theorem firstOrderConstructions : Obligations.FirstOrderConstructions := by
  rintro s c _ q hc rfl rfl
  refine ⟨exec_construction hc .lpf1, ?_⟩
  obtain ⟨t, he, hst, hch⟩ := exec_construction hc .hpf1
  refine ⟨t, he, hst, hch, fun hq => ?_, fun hq => ?_⟩ <;> rw [hch]
  · exact fneg_fneg hq
  · exact ⟨fneg_of_isNaN hq, fneg_of_isNaN ((isNaN_fneg _).trans hq)⟩

/-- Settles O54: the formulas are the configured channel's. -/
theorem secondOrderConstructions : Obligations.SecondOrderConstructions := by
  rintro s c _ _ _ _ hc rfl rfl rfl rfl
  exact ⟨exec_construction hc .lpf2, exec_construction hc .hpf2⟩

/-! ### What a construction depends on (R110) -/

/-- What a construction leaves in its channel. -/
theorem chan_of_construction {s t : State} {c : Nat} (hc : c < s.nch) {kind : Kind}
    (h : exec (constructionOf c kind) s = .next t) : t.chan c = (s.chan c).configure kind (coeffsOf kind (s.chan c)) := by
  obtain ⟨t', h', -, hch⟩ := exec_construction hc kind
  rw [h] at h'
  cases h'
  exact hch

/-- A first-order kind reads TS and WN only (R111). -/
theorem coeffsOf_congr_firstOrder {ch ch' : Channel} (hts : ch.ts = ch'.ts) (hwn : ch.wn = ch'.wn) {kind : Kind}
    (hk : kind.secondOrder = false) : coeffsOf kind ch = coeffsOf kind ch' := by
  cases kind with
  | lpf1 => simp only [coeffsOf, lpf1Coeffs, omegaTs, hts, hwn]
  | hpf1 => simp only [coeffsOf, hpf1Coeffs, omegaTs, hts, hwn]
  | lpf2 | hpf2 => nomatch hk

/-- Every kind reads TS, WN and ZETA only (R111). -/
theorem coeffsOf_congr {ch ch' : Channel} (hts : ch.ts = ch'.ts) (hwn : ch.wn = ch'.wn) (hz : ch.zeta = ch'.zeta)
    (kind : Kind) : coeffsOf kind ch = coeffsOf kind ch' := by
  have hm : secondM ch = secondM ch' := by rw [secondM, secondM, omegaTs, omegaTs, hts, hwn, hz]
  have hn : secondN ch = secondN ch' := by rw [secondN, secondN, omegaTs, omegaTs, hts, hwn]
  cases kind with
  | lpf1 | hpf1 => exact coeffsOf_congr_firstOrder hts hwn rfl
  | lpf2 => simp only [coeffsOf, lpf2Coeffs, secondA1, secondA2, secondD, hm, hn]
  | hpf2 => simp only [coeffsOf, hpf2Coeffs, secondA1, secondA2, secondD, hm, hn]

/-- A configured channel holds its parameters and its coefficients, and nothing of what it held else. -/
theorem Channel.configure_congr {ch ch' : Channel} (hts : ch.ts = ch'.ts) (hwn : ch.wn = ch'.wn) (kind : Kind)
    (k : Coeffs) : ch.configure kind k = { ch'.configure kind k with zeta := ch.zeta, uIn := ch.uIn } := by
  simp [Channel.configure, hts, hwn]

/-- Settles O55: what the coefficients read agrees, and a configured channel holds nothing else of before. -/
theorem constructionStartsAFreshFilter : Obligations.ConstructionStartsAFreshFilter := by
  intro s t s' t' c c' hc hc' hts hwn
  have hfirst (kind : Kind) (hk : kind.secondOrder = false) (h : exec (constructionOf c kind) s = .next t)
      (h' : exec (constructionOf c' kind) s' = .next t') :
      t.chan c = { t'.chan c' with zeta := (s.chan c).zeta, uIn := (s.chan c).uIn } := by
    rw [chan_of_construction hc h, chan_of_construction hc' h', coeffsOf_congr_firstOrder hts hwn hk]
    exact Channel.configure_congr hts hwn kind _
  have hsecond (hz : (s.chan c).zeta = (s'.chan c').zeta) (kind : Kind) (h : exec (constructionOf c kind) s = .next t)
      (h' : exec (constructionOf c' kind) s' = .next t') : t.chan c = { t'.chan c' with uIn := (s.chan c).uIn } := by
    rw [chan_of_construction hc h, chan_of_construction hc' h', coeffsOf_congr hts hwn hz,
      Channel.configure_congr hts hwn, hz]
    rfl
  refine ⟨?_, fun hz => ?_⟩
  · rintro mk (rfl | rfl) h h'
    · exact hfirst .lpf1 rfl h h'
    · exact hfirst .hpf1 rfl h h'
  · rintro mk (rfl | rfl) h h'
    · exact hsecond hz .lpf2 h h'
    · exact hsecond hz .hpf2 h h'

/-! ### Filter steps (R116 to R118, R123) -/

/-- A step of a second-order channel shifts the whole delay line (R118). -/
theorem Channel.step_of_secondOrder {ch : Channel} (h : ch.kind.secondOrder = true) : ch.step = ch.apply2 := if_pos h

/-- Settles O56: FAPPLY puts the step of the channel's order in its place. -/
theorem filterSteps : Obligations.FilterSteps := by
  rintro s c _ hc rfl hv
  refine ⟨_, execFapply_of_valid hc hv, rfl, ?_, ?_⟩ <;> rintro hk _ rfl
  · have hfirst : (s.chan c).kind.secondOrder = false := by rcases hk with hk | hk <;> rw [hk] <;> rfl
    exact (State.chan_setChan_self s hc _).trans (Channel.step_of_firstOrder hfirst)
  · have hsecond : (s.chan c).kind.secondOrder = true := by rcases hk with hk | hk <;> rw [hk] <;> rfl
    exact (State.chan_setChan_self s hc _).trans (Channel.step_of_secondOrder hsecond)

/-- Two different channels may be replaced in either order (R123). -/
theorem State.setChan_comm (s : State) {c d : Nat} (h : c ≠ d) (x y : Channel) :
    (s.setChan c x).setChan d y = (s.setChan d y).setChan c x := by
  simp only [State.setChan, List.set_comm x y h]

/-- FAPPLY on a constructed channel d, after channel c was replaced and a command completed. -/
theorem execFapply_of_setChan {s : State} {c d : Nat} (h : c ≠ d) (hd : d < s.nch) (hv : (s.chan d).valid = true)
    (x : Channel) :
    execFapply d ((s.setChan c x).complete .noError) =
      .next (((s.setChan c x).setChan d (s.chan d).step).complete .noError) := by
  have hch : ((s.setChan c x).complete .noError).chan d = s.chan d := State.chan_setChan_ne s h x
  rw [execFapply_of_valid (by simpa using hd) (by rw [hch, hv]), hch]
  rfl

/-- Settles O59: each step reads and replaces its own channel only. -/
theorem filterStepsOfTwoChannelsCommute : Obligations.FilterStepsOfTwoChannelsCommute := by
  intro s c d hne hc hd hvc hvd
  refine ⟨_, _, _, execFapply_of_valid hc hvc, execFapply_of_setChan hne hd hvd _, execFapply_of_valid hd hvd, ?_⟩
  rw [State.setChan_comm s hne]
  exact execFapply_of_setChan hne.symm hc hvc _

/-! ### The frame of the filter commands (R111, R116, R123) -/

/-- The registers of a channel that HOST writes (R30). -/
def Channel.parameters (ch : Channel) : Word × Word × Word × Word := (ch.ts, ch.wn, ch.zeta, ch.uIn)

theorem Channel.parameters_step (ch : Channel) : ch.step.parameters = ch.parameters := by
  unfold Channel.step
  split <;> rfl

/-- A filter command on channel c is a construction of one of the kinds, or FAPPLY. -/
theorem exists_constructionOf_or_fapply {i : Instr} {c : Nat}
    (h : i = .fcfgLpf1 c ∨ i = .fcfgHpf1 c ∨ i = .fcfgLpf2 c ∨ i = .fcfgHpf2 c ∨ i = .fapply c) :
    (∃ kind, i = constructionOf c kind) ∨ i = .fapply c := by
  rcases h with h | h | h | h | h
  · exact .inl ⟨.lpf1, h⟩
  · exact .inl ⟨.hpf1, h⟩
  · exact .inl ⟨.lpf2, h⟩
  · exact .inl ⟨.hpf2, h⟩
  · exact .inr h

/-- Everything a filter command on channel c can do to the state. -/
inductive FilterEffect (s : State) (c : Nat) : State → Prop
  /-- a command error: STATUS only (R183, R185) -/
  | error (code : ErrCode) : FilterEffect s c (s.complete code)
  /-- the channel is replaced by one with the same parameters -/
  | replaced (ch : Channel) (hc : c < s.nch) (hp : ch.parameters = (s.chan c).parameters) :
      FilterEffect s c ((s.setChan c ch).complete .noError)

theorem construct_filterEffect {s t : State} {c : Nat} {kind : Kind} (h : exec (constructionOf c kind) s = .next t) :
    FilterEffect s c t := by
  rw [exec_constructionOf] at h
  by_cases hc : c < s.nch
  · rw [construct_of_lt hc] at h
    cases h
    exact .replaced _ hc rfl
  · rw [construct_of_le (Nat.le_of_not_lt hc)] at h
    cases h
    exact .error _

theorem fapply_filterEffect {s t : State} {c : Nat} (h : exec (.fapply c) s = .next t) : FilterEffect s c t := by
  cases exec_next h with
  | error code => exact .error code
  | complex _ hi => nomatch hi
  | buffer _ _ hi => rcases hi with hi | hi | hi | hi | hi <;> nomatch hi
  | construct _ kind hi => cases kind <;> nomatch hi
  | apply _ hi hc => cases hi; exact .replaced _ hc (Channel.parameters_step _)

/-- Settles O58: a filter command completes, with channel c as it was or replaced by one with the same parameters. -/
theorem filterCommandFrame : Obligations.FilterCommandFrame := by
  intro s t i c hi h
  have he : FilterEffect s c t := by
    rcases exists_constructionOf_or_fapply hi with ⟨kind, rfl⟩ | rfl
    · exact construct_filterEffect h
    · exact fapply_filterEffect h
  cases he with
  | error code => simp
  | replaced ch hc hp =>
    obtain ⟨hts, hwn, hzeta, hu⟩ : ch.ts = _ ∧ ch.wn = _ ∧ ch.zeta = _ ∧ ch.uIn = _ := by
      simpa [Channel.parameters] using hp
    have hother (d : Nat) (hd : d ≠ c) : (s.setChan c ch).chan d = s.chan d := State.chan_setChan_ne s hd.symm ch
    simp +contextual [State.chan_setChan_self s hc, hother, hts, hwn, hzeta, hu]

/-! ### A NaN in a filter (R122) -/

theorem isNaN_qNaN : isNaN qNaN = true := by decide

/-- The first-order output is a sum whose terms have every register the kind uses as a factor (R117). -/
theorem output1_of_isPoisoned {ch : Channel} (h : isPoisoned ch) (hk : ch.kind.secondOrder = false) (u : Word) :
    output1 ch u = qNaN := by
  have hfactor : isNaN ch.uOld0 ∨ isNaN ch.yOld0 ∨ isNaN ch.a1 ∨ isNaN ch.b0 ∨ isNaN ch.b1 := by
    simpa [isPoisoned, hk] using h
  rcases hfactor with h | h | h | h | h <;> simp [output1, fadd_of_isNaN, fmul_of_isNaN, isNaN_qNaN, h]

/-- So is the second-order output, with the second delay registers and their coefficients as well (R118). -/
theorem output2_of_isPoisoned {ch : Channel} (h : isPoisoned ch) (u : Word) : output2 ch u = qNaN := by
  rcases h with h | h | h | h | h | ⟨-, h | h | h | h⟩ <;>
    simp [output2, fadd_of_isNaN, fsub_of_isNaN, fmul_of_isNaN, isNaN_qNaN, h]

/-- A step of a poisoned channel answers the canonical NaN, and puts it in the delay line. -/
theorem Channel.step_of_isPoisoned {ch : Channel} (h : isPoisoned ch) : ch.step.yOut = qNaN ∧ ch.step.yOld0 = qNaN := by
  cases hk : ch.kind.secondOrder with
  | false =>
    rw [Channel.step_of_firstOrder hk]
    exact ⟨output1_of_isPoisoned h hk _, output1_of_isPoisoned h hk _⟩
  | true =>
    rw [Channel.step_of_secondOrder hk]
    exact ⟨output2_of_isPoisoned h _, output2_of_isPoisoned h _⟩

/-- HOST writes no delay register and no coefficient (R58). -/
theorem isPoisoned_write {ch : Channel} (h : isPoisoned ch) (w : Word) (r : ChanReg) : isPoisoned (ch.write w r) := by
  cases r <;> exact h

theorem isPoisoned_step {ch : Channel} (h : isPoisoned ch) : isPoisoned ch.step := by
  refine .inr (.inl ?_)
  rw [(Channel.step_of_isPoisoned h).2]
  exact isNaN_qNaN

/-- The step in which ENGINE performs a command is that command (R189). -/
theorem step_of_engineRuns {s : State} {i : Instr} (h : engineRuns s i) :
    ∃ rest, step s = exec i { s with agenda := rest } := by
  obtain ⟨hb, hd, ha⟩ := h
  obtain ⟨rest, ht⟩ : ∃ rest, engineTurnOf s rest := by
    rcases ha with ha | ⟨rest, ha⟩
    · exact ⟨[], .inl ⟨ha, rfl⟩⟩
    · exact ⟨rest, .inr ha⟩
  exact ⟨rest, (step_engineTurn ht).trans (engineTurn_run (s := { s with agenda := rest }) hb hd)⟩

/-- FAPPLY performed on a constructed channel steps it (R116). -/
theorem chan_of_engineRuns_fapply {s t : State} {c : Nat} (hc : c < s.nch) (hv : (s.chan c).valid = true)
    (hr : engineRuns s (.fapply c)) (h : step s = .next t) : t.chan c = (s.chan c).step := by
  obtain ⟨rest, hstep⟩ := step_of_engineRuns hr
  have he : step s = _ := hstep.trans (execFapply_of_valid (s := { s with agenda := rest }) hc hv)
  rw [h] at he
  cases he
  exact State.chan_setChan_self _ hc _

/-- Settles O60: HOST does not reach the NaN, and a filter step turns it into a NaN output, which it keeps in YOLD0. -/
theorem nanStaysInAFilter : Obligations.NaNStaysInAFilter := by
  intro s t c hc hp h hreset hcons
  refine ⟨?_, fun hr hv => ?_⟩
  · generalize t.chan c = ch, step_channelEffect h hreset c = he
    cases he with
    | kept => exact hp
    | written w r => exact isPoisoned_write hp w r
    | constructed kind hr => exact absurd (constructionOf_cases hr) hcons
    | stepped => exact isPoisoned_step hp
  · rw [chan_of_engineRuns_fapply hc hv hr h]
    exact (Channel.step_of_isPoisoned hp).1

end Sys2Proof.Machine

/-! The FFT engine (42_fft.md): what its commands make of BUF, the transforms bin by bin, bit reversal, and the frame of
the FFT commands. -/

namespace Sys2Proof.Machine

/-! ### The FFT form (R140) -/

/-- The state after an FFT command of a legal length n whose transform is f. -/
def State.transform (s : State) (n : Nat) (f : List Cplx → List Cplx) : State :=
  (s.storeBuf (f (s.loadBuf n))).complete .noError

theorem bufferCommand_transform {ok : Bool} {n : Nat} {f : List Cplx → List Cplx} {s : State} (h : ok = true) :
    bufferCommand ok n f s = .next (s.transform n f) := if_pos h

theorem State.transform_status (s : State) (n : Nat) (f : List Cplx → List Cplx) :
    (s.transform n f).status = ⟨false, true, .noError, s.status.busyErr⟩ := rfl

/-- Entry k after an FFT command is entry k of the transformed list. -/
theorem State.bufEntry_transform {s : State} {n k : Nat} {f : List Cplx → List Cplx} {x : Cplx}
    (h : (f (s.loadBuf n))[k]? = some x) : (s.transform n f).bufEntry k = x := by
  obtain ⟨hk, rfl⟩ := List.getElem?_eq_some_iff.1 h
  have hentry := s.bufEntry_insertEntries 0 k _ hk
  rwa [Nat.zero_add] at hentry

theorem State.getElem?_loadBuf (s : State) {n k : Nat} (hk : k < n) : (s.loadBuf n)[k]? = some (s.bufEntry k) := by
  simp [State.loadBuf, hk]

theorem powerLengthOk_two_pow {s : State} {p : Nat} (hp : p ≤ s.log2Nmax) : powerLengthOk s (2 ^ p) = true :=
  (powerLengthOk_iff s _).2 ⟨p, hp, rfl⟩

/-! ### The direct transform (R145) -/

/-- The fold of FFT_DFT over n samples is the sum of their n terms. -/
theorem dftBin_map_range (tw : TwiddleFn) (m k : Nat) (f : Nat → Cplx) (n : Nat) :
    dftBin tw m ((List.range n).map f) k = directSum tw m k f n := by
  unfold dftBin
  induction n with
  | zero => rfl
  | succ n ih => simp [List.range_succ, List.zipIdx_append, ih, directSum]

/-- Settles O48: bin k of the stored list is the fold over the n entries read. -/
theorem directTransformResult : Obligations.DirectTransformResult := by
  intro s n h1 hn
  refine ⟨s.transform n (dft twiddle n), bufferCommand_transform ((anyLengthOk_iff s n).2 ⟨h1, hn⟩),
    s.transform_status .., fun k hk => State.bufEntry_transform ?_⟩
  simp only [dft, List.getElem?_map, List.getElem?_range hk, Option.map_some]
  exact congrArg some (dftBin_map_range ..)

/-! ### The fast transforms (R142, R146) -/

section Fast
variable (tw : TwiddleFn)

/-- A butterfly of 2^(p+1) samples f: the 2^p sums, then the 2^p twiddled differences (R142). -/
theorem butterfly_map_range (p : Nat) (f : Nat → Cplx) :
    butterfly tw (2 ^ (p + 1)) ((List.range (2 ^ (p + 1))).map f) =
      (List.range (2 ^ p)).map (fun i => cadd (f i) (f (2 ^ p + i))) ++
      (List.range (2 ^ p)).map (fun i => cmul (tw i (2 ^ (p + 1))) (csub (f i) (f (2 ^ p + i)))) := by
  have hhalf : 2 ^ (p + 1) / 2 = 2 ^ p := by rw [Nat.pow_succ, Nat.mul_div_cancel _ Nat.two_pos]
  have hsplit : (List.range (2 ^ (p + 1))).map f =
      (List.range (2 ^ p)).map f ++ (List.range (2 ^ p)).map fun i => f (2 ^ p + i) := by
    simp [Nat.pow_succ, Nat.mul_two, List.range_add]
  unfold butterfly
  rw [hsplit, hhalf, List.take_left' (by simp), List.drop_left' (by simp)]
  simp [List.zipWith_map_left, List.zipWith_map_right, List.zipWith_self]

/-- FFT_RS, bin by bin: the interleave puts the transform of the sums in the even bins and that of the twiddled
differences in the odd ones (R146). -/
theorem getElem?_fftRs_map_range (p : Nat) (f : Nat → Cplx) {k : Nat} (hk : k < 2 ^ p) :
    (fftRs tw p ((List.range (2 ^ p)).map f))[k]? = some (fastBin tw p f k) := by
  induction p generalizing f k with
  | zero =>
    obtain rfl : k = 0 := by simpa using hk
    rfl
  | succ p ih =>
    have hk2 : k / 2 < 2 ^ p := by rw [Nat.pow_succ] at hk; omega
    have hlen (g : Nat → Cplx) : (fftRs tw p ((List.range (2 ^ p)).map g)).length = 2 ^ p :=
      length_fftRs tw p _ (by simp)
    simp only [fftRs, butterfly_map_range]
    rw [List.take_left' (by simp), List.drop_left' (by simp)]
    obtain ⟨heven, hodd⟩ := getElem_interleave _ _ ((hlen _).trans (hlen _).symm) (k / 2)
    rcases Nat.mod_two_eq_zero_or_one k with h | h
    · rw [fastBin, if_pos h, ← ih _ hk2, ← heven, show 2 * (k / 2) = k by omega]
    · rw [fastBin, if_neg (by omega), ← ih _ hk2, ← hodd, show 2 * (k / 2) + 1 = k by omega]

end Fast

/-- Settles O49: the three transforms are one list, and FFT_RS gives it bin by bin. -/
theorem fastTransformsResult : Obligations.FastTransformsResult := by
  intro s p hp
  have hok := powerLengthOk_two_pow hp
  have hlen := s.length_loadBuf (2 ^ p)
  have hrb : s.transform (2 ^ p) (fftRb twiddle (2 ^ p)) = s.transform (2 ^ p) (fftRs twiddle p) := by
    simp only [State.transform, fftRb_eq_fftRs twiddle p _ hlen]
  have hit : s.transform (2 ^ p) (fftIt twiddle (2 ^ p)) = s.transform (2 ^ p) (fftRs twiddle p) := by
    rw [← hrb]
    simp only [State.transform, fftIt_eq_fftRb twiddle p _ hlen]
  refine ⟨s.transform (2 ^ p) (fftRs twiddle p), ?_, ?_, ?_, s.transform_status .., fun k hk =>
    State.bufEntry_transform (getElem?_fftRs_map_range twiddle p _ hk)⟩
  · simp only [exec, execFftRs, Nat.log2_two_pow, bufferCommand_transform hok]
  · rw [← hrb]; exact bufferCommand_transform hok
  · rw [← hit]; exact bufferCommand_transform hok

/-! ### Bit reversal (R144, R149) -/

theorem exec_bitrev {s : State} {p : Nat} (hp : p ≤ s.log2Nmax) :
    exec (.bitrev (2 ^ p)) s = .next (s.transform (2 ^ p) (bitrevPass (2 ^ p))) :=
  bufferCommand_transform (powerLengthOk_two_pow hp)

/-- BUF'[x] = BUF[rev_p(x)] (R149). -/
theorem State.bufEntry_bitrev (s : State) {p x : Nat} (hx : x < 2 ^ p) :
    (s.transform (2 ^ p) (bitrevPass (2 ^ p))).bufEntry x = s.bufEntry (reverseBits p x) :=
  State.bufEntry_transform <|
    (getElem_bitrevPass p _ (s.length_loadBuf _) x hx).trans (s.getElem?_loadBuf (reverseBits_lt p x))

/-- Settles O50: the pass is the permutation rev_p of the entries read. -/
theorem bitReversalResult : Obligations.BitReversalResult := fun s p hp =>
  ⟨_, exec_bitrev hp, s.transform_status .., fun x hx => ⟨reverseBits_lt p x, s.bufEntry_bitrev hx⟩⟩

/-- Lane k of a word of BUF is the byte at offset a + k (R55). -/
theorem State.bufByte_eq_lane (s : State) (a : Nat) {k : Nat} (hk : k < 4) :
    s.bufByte (a + k) = (s.bufWord a).extractLsb' (8 * k) 8 := by
  apply BitVec.eq_of_getLsbD_eq
  intro i hi
  simp only [State.bufWord, BitVec.getLsbD_append, BitVec.getLsbD_extractLsb']
  interval_cases k <;> grind

theorem State.bufByte_eq_of_bufWord_eq {s t : State} {a k : Nat} (h : t.bufWord a = s.bufWord a) (hk : k < 4) :
    t.bufByte (a + k) = s.bufByte (a + k) := by
  rw [t.bufByte_eq_lane a hk, s.bufByte_eq_lane a hk, h]

/-- Two states with the same entries BUF[0..n-1] have the same bytes there (R54, R55). -/
theorem State.bufByte_eq_of_bufEntry_eq {s t : State} {n a : Nat} (h : ∀ x, x < n → t.bufEntry x = s.bufEntry x)
    (ha : bufOffset 0 ≤ a ∧ a < bufOffset n) : t.bufByte a = s.bufByte a := by
  simp only [bufOffset] at ha
  obtain ⟨x, k, hx, hk, rfl⟩ : ∃ x k, x < n ∧ k < 8 ∧ a = bufOffset x + k :=
    ⟨(a - 0x10000) / 8, a % 8, by omega, by omega, by simp only [bufOffset]; omega⟩
  obtain ⟨hre, him⟩ := Cplx.mk.inj (h x hx)
  rcases Nat.lt_or_ge k 4 with hk4 | hk4
  · exact State.bufByte_eq_of_bufWord_eq hre hk4
  · obtain ⟨j, rfl⟩ := Nat.exists_eq_add_of_le hk4
    rw [← Nat.add_assoc]
    exact State.bufByte_eq_of_bufWord_eq him (by omega)

/-- A byte outside BUF[0..n-1] is left alone by a transform that keeps the length (R140). -/
theorem State.bufByte_transform_ne (s : State) {n a : Nat} {f : List Cplx → List Cplx}
    (hl : (f (s.loadBuf n)).length = n) (ha : ¬ (bufOffset 0 ≤ a ∧ a < bufOffset n)) :
    (s.transform n f).bufByte a = s.bufByte a :=
  s.bufByte_storeBuf_ne _ (by rw [hl]; omega)

/-- Settles O51: rev_p is its own inverse on the entries, and the bytes outside them stay. -/
theorem bitReversalTwiceRestoresBuf : Obligations.BitReversalTwiceRestoresBuf := by
  intro s p hp
  refine ⟨_, _, exec_bitrev hp, exec_bitrev hp, fun a => ?_⟩
  by_cases ha : bufOffset 0 ≤ a ∧ a < bufOffset (2 ^ p)
  · refine State.bufByte_eq_of_bufEntry_eq (fun x hx => ?_) ha
    rw [State.bufEntry_bitrev _ hx, State.bufEntry_bitrev _ (reverseBits_lt p x), reverseBits_reverseBits p x hx]
  · rw [State.bufByte_transform_ne _ (by simp) ha, State.bufByte_transform_ne _ (by simp) ha]

/-! ### The frame of the FFT commands (R140) -/

theorem classOf_of_isFftOf {i : Instr} {n : Nat} (h : isFftOf i n) : classOf i = .fft := by
  rcases h with rfl | rfl | rfl | rfl | rfl <;> rfl

theorem isFftOf_unique {i : Instr} {n m : Nat} (hn : isFftOf i n) (hm : isFftOf i m) : m = n := by
  rcases hn with rfl | rfl | rfl | rfl | rfl <;> simpa [isFftOf, eq_comm] using hm

/-- An FFT command of length n is a command error, or it overwrites the first n entries of BUF. -/
theorem ExecEffect.of_isFftOf {i : Instr} {n : Nat} {s t : State} (h : ExecEffect i s t) (hi : isFftOf i n) :
    (∃ code, t = s.complete code) ∨ ∃ xs : List Cplx, xs.length = n ∧ t = (s.storeBuf xs).complete .noError := by
  have hclass := classOf_of_isFftOf hi
  cases h with
  | error code => exact .inl ⟨code, rfl⟩
  | complex _ hc => rw [hc] at hclass; nomatch hclass
  | buffer m xs hm hl => exact .inr ⟨xs, hl.trans (isFftOf_unique hi hm), rfl⟩
  | construct _ kind hk => subst hk; cases kind <;> nomatch hclass
  | apply _ hk => subst hk; nomatch hclass

/-- Settles O52: a command error changes STATUS alone, and n stored entries end at the byte 8n. -/
theorem fftCommandFrame : Obligations.FftCommandFrame := by
  intro s t i n hi h
  rcases (exec_next h).of_isFftOf hi with ⟨code, rfl⟩ | ⟨xs, hl, rfl⟩
  · simp
  · have hbytes (a : Nat) (ha : a < 0x10000 ∨ 0x10000 + 8 * n ≤ a) : (s.storeBuf xs).bufByte a = s.bufByte a :=
      s.bufByte_storeBuf_ne xs (by simpa only [bufOffset, hl] using ha)
    simpa using hbytes

end Sys2Proof.Machine

/-! What ENGINE's step answers (60_exceptions.md R180 to R189): the check of R187 on a decoded command, and the frame of
every command. -/

namespace Sys2Proof.Machine

open Host (Outcome)

/-! ### The check of R187 on a decoded command -/

/-- The code that a command completes with: R187's check without its first line, which the decoder makes. -/
def commandCode (s : State) : Instr → ErrCode
  | .cadd | .csub | .cmul | .cpolar => .noError
  | .fftDft n => if !anyLengthOk s n then .badLength else .noError
  | .fftRs n | .fftRb n | .fftIt n | .bitrev n => if !powerLengthOk s n then .badLength else .noError
  | .fcfgLpf1 c | .fcfgHpf1 c | .fcfgLpf2 c | .fcfgHpf2 c => if s.nch ≤ c then .badChannel else .noError
  | .fapply c => if s.nch ≤ c then .badChannel else if !(s.chan c).valid then .notConfigured else .noError

/-- The powers of two up to NMAX are the numbers up to NMAX that are 2 to their logarithm (R141). -/
theorem powerLengthOk_eq (s : State) (n : Nat) :
    powerLengthOk s n = (2 ^ Nat.log2 n == n && decide (n ≤ s.nmax)) := by
  rw [Bool.eq_iff_iff, powerLengthOk_iff, Bool.and_eq_true, beq_iff_eq, decide_eq_true_eq]
  constructor
  · rintro ⟨p, hp, rfl⟩
    exact ⟨by rw [Nat.log2_two_pow], Nat.pow_le_pow_right (by decide) hp⟩
  · rintro ⟨hpow, hle⟩
    rw [← hpow, State.nmax] at hle
    exact ⟨Nat.log2 n, (Nat.pow_le_pow_iff_right (by decide)).1 hle, hpow.symm⟩

/-- A word selects some row of R74 exactly if the decoder accepts it. -/
theorem opcodeMap_any_selects_iff (w : Word) : opcodeMap.any (fun r => r.selects w) = true ↔ ∃ i, decode w = .ok i := by
  rw [List.any_eq_true]
  constructor
  · rintro ⟨r, hr, h⟩
    obtain ⟨i, rfl⟩ := exists_rowOf_eq hr
    exact exists_decode_of_selects h
  · rintro ⟨i, h⟩
    exact ⟨rowOf i, rowOf_mem_opcodeMap i, selects_rowOf_of_decode h⟩

theorem checkCode_of_decode_error {s : State} {w : Word} {e : DecodeError} (h : decode w = .error e) :
    checkCode s w = .illegalCmd := by
  have hany : ¬ opcodeMap.any (fun r => r.selects w) = true := by
    rw [opcodeMap_any_selects_iff, h]
    exact fun ⟨_, hi⟩ => nomatch hi
  rw [checkCode, if_pos (by rw [Bool.eq_false_iff.2 hany]; rfl)]

/-- The bits that R187's check reads are the fields of the decoded command. -/
theorem checkCode_of_decode {s : State} {w : Word} {i : Instr} (h : decode w = .ok i) :
    checkCode s w = commandCode s i := by
  have hany : opcodeMap.any (fun r => r.selects w) = true := (opcodeMap_any_selects_iff w).2 ⟨i, h⟩
  obtain ⟨hf, hw⟩ := fieldsOf_of_decode h
  have hop : w.extractLsb' 0 8 = opcode i := congrArg Fields.op hf
  have hch : w.extractLsb' 8 4 = chField i := congrArg Fields.ch hf
  have hn : w.extractLsb' 16 16 = nlenField i := congrArg Fields.nlen hf
  simp only [checkCode, hany, hop, hch, hn]
  cases i with
  | cadd | csub | cmul | cpolar => rfl
  | fftDft n =>
    rw [nlenField, toNat_lengthField hw]
    simp [opcode, commandCode, lengthOk, anyLengthOk]
  | fftRs n | fftRb n | fftIt n | bitrev n =>
    rw [nlenField, toNat_lengthField hw]
    simp [opcode, commandCode, lengthOk, powerLengthOk_eq]
  | fcfgLpf1 c | fcfgHpf1 c | fcfgLpf2 c | fcfgHpf2 c | fapply c =>
    rw [chField, toNat_channelField hw]
    simp [opcode, commandCode]

/-! ### Completion with a code (R180, R189) -/

/-- The answer is a completion with a code: STATUS reports it, and with a nonzero code nothing else changes. -/
def CompletesWith (s : State) (code : ErrCode) (r : Outcome State Fault Refusal) : Prop :=
  ∃ t, r = .next t ∧ t.status = ⟨false, true, code, s.status.busyErr⟩ ∧ (code ≠ .noError → t = s.complete code)

namespace CompletesWith

variable {s : State}

theorem error (code : ErrCode) : CompletesWith s code (.next (s.complete code)) := ⟨_, rfl, rfl, fun _ => rfl⟩

/-- The results of a command are no part of STATUS. -/
theorem done {u : State} (h : u.status = s.status) : CompletesWith s .noError (.next (u.complete .noError)) :=
  ⟨_, rfl, by rw [State.complete_status, h], fun hne => absurd rfl hne⟩

theorem of_bufferCommand (ok : Bool) (n : Nat) (f : List Cplx → List Cplx) :
    CompletesWith s (if !ok then .badLength else .noError) (bufferCommand ok n f s) := by
  cases ok
  · exact error .badLength
  · exact done rfl

theorem of_construct (kind : Kind) (coeffs : Channel → Coeffs) (c : Nat) :
    CompletesWith s (if s.nch ≤ c then .badChannel else .noError) (construct kind coeffs c s) := by
  split
  next hc => rw [construct_of_le hc]; exact error .badChannel
  next hc => rw [construct_of_lt (Nat.lt_of_not_le hc)]; exact done rfl

theorem of_execFapply (c : Nat) : CompletesWith s (commandCode s (.fapply c)) (execFapply c s) := by
  rw [commandCode]
  split
  next hc => rw [execFapply_of_le hc]; exact error .badChannel
  next hc =>
    cases hv : (s.chan c).valid with
    | false => rw [execFapply_of_not_valid (Nat.lt_of_not_le hc) hv]; exact error .notConfigured
    | true => rw [execFapply_of_valid (Nat.lt_of_not_le hc) hv]; exact done rfl

theorem of_exec (i : Instr) : CompletesWith s (commandCode s i) (exec i s) := by
  cases i with
  | cadd | csub | cmul | cpolar => exact done rfl
  | fftDft n | fftRs n | fftRb n | fftIt n | bitrev n => exact of_bufferCommand _ n _
  | fcfgLpf1 c | fcfgHpf1 c | fcfgLpf2 c | fcfgHpf2 c => exact of_construct _ _ c
  | fapply c => exact of_execFapply c

end CompletesWith

theorem runCommand_of_decode {s : State} {i : Instr} (h : decode s.cmd = .ok i) : runCommand s = exec i s := by
  simp [runCommand, h]

/-- Settles O8: an illegal word completes with ILLEGAL_CMD, and a command with the code of its own checks. -/
theorem engineCompletesWithTheCheckCode : Obligations.EngineCompletesWithTheCheckCode := by
  intro s
  suffices h : CompletesWith s (checkCode s s.cmd) (runCommand s) from h
  cases hd : decode s.cmd with
  | error e =>
    rw [runCommand_of_decode_error hd, checkCode_of_decode_error hd]
    exact .error .illegalCmd
  | ok i =>
    rw [runCommand_of_decode hd, checkCode_of_decode hd]
    exact .of_exec i

/-! ### The frame of every command (R189) -/

/-- What ENGINE's step can do: complete an illegal word, or have the effect of the decoded command. -/
theorem runCommand_effect {s t : State} (h : runCommand s = .next t) :
    t = s.complete .illegalCmd ∨ ∃ i, decode s.cmd = .ok i ∧ ExecEffect i s t := by
  cases hd : decode s.cmd with
  | error e =>
    rw [runCommand_of_decode_error hd] at h
    cases h
    exact .inl rfl
  | ok i =>
    rw [runCommand_of_decode hd] at h
    exact .inr ⟨i, rfl, exec_next h⟩

/-- What differs between the two states is RES, BUF, channels, and of STATUS BUSY, DONE and ERRCODE. -/
structure SameBesidesResults (s t : State) : Prop where
  cmd : t.cmd = s.cmd
  ctrl : t.ctrl = s.ctrl
  busyErr : t.status.busyErr = s.status.busyErr
  opA : t.opA = s.opA
  opB : t.opB = s.opB
  epoch : t.epoch = s.epoch
  draws : t.draws = s.draws
  rdata : t.rdata = s.rdata
  agenda : t.agenda = s.agenda

theorem ExecEffect.sameBesidesResults {i : Instr} {s t : State} (h : ExecEffect i s t) : SameBesidesResults s t := by
  cases h with
  | error | complex | buffer => constructor <;> rfl
  | construct | apply => constructor <;> simp

/-- No command writes a register of a channel that HOST writes (R111, R116). -/
theorem ExecEffect.chan_parameters {i : Instr} {s t : State} (h : ExecEffect i s t) (c : Nat) :
    (t.chan c).parameters = (s.chan c).parameters := by
  rcases h.channel c with hc | ⟨kind, _, hc⟩ | ⟨_, _, hc⟩ <;> rw [hc]
  · rfl
  · exact Channel.parameters_step _

theorem Channel.parameters_eq_iff {ch ch' : Channel} : ch.parameters = ch'.parameters ↔
    ch.ts = ch'.ts ∧ ch.wn = ch'.wn ∧ ch.zeta = ch'.zeta ∧ ch.uIn = ch'.uIn := by
  simp [Channel.parameters]

/-- A filter step writes the delay line and Y_OUT only (R116 to R118). -/
theorem Channel.step_eq (ch : Channel) : ∃ u0 u1 y0 y1 y,
    ch.step = { ch with uOld0 := u0, uOld1 := u1, yOld0 := y0, yOld1 := y1, yOut := y } := by
  cases hk : ch.kind.secondOrder with
  | false => rw [Channel.step_of_firstOrder hk]; exact ⟨_, _, _, _, _, rfl⟩
  | true => rw [Channel.step_of_secondOrder hk]; exact ⟨_, _, _, _, _, rfl⟩

/-- Settles O10: each class of command writes its own results, and every command leaves the rest. -/
theorem engineLeavesOperandsAlone : Obligations.EngineLeavesOperandsAlone := by
  intro s t h
  rcases runCommand_effect h with rfl | ⟨i, hd, he⟩
  · simp  -- an illegal word changes STATUS alone
  have hsame := he.sameBesidesResults
  obtain ⟨hp, hn, hb⟩ := he.parameters
  refine ⟨he.res.imp_right fun hi => ⟨i, hd, hi⟩, fun a => (he.bufByte a).imp_right fun ⟨n, hfft, ha⟩ =>
      ⟨i, n, hd, hfft, ha⟩, fun c => ?_, hsame.cmd, hsame.ctrl, hsame.busyErr, hsame.opA, hsame.opB, hp, hb, hn,
    hsame.epoch, hsame.draws, hsame.rdata, hsame.agenda, fun c => Channel.parameters_eq_iff.1 (he.chan_parameters c)⟩
  rcases he.channel c with hc | ⟨kind, rfl, _⟩ | ⟨rfl, _, hc⟩
  · exact .inl hc
  · exact .inr (.inl ⟨_, hd, constructionOf_cases rfl⟩)
  · obtain ⟨u0, u1, y0, y1, y, hstep⟩ := (s.chan c).step_eq
    exact .inr (.inr ⟨hd, u0, u1, y0, y1, y, hc.trans hstep⟩)

/-! ### STATUS over a step (R186, R189, R191) -/

/-- Every command ends with BUSY = 0 and DONE = 1 (R189). -/
theorem ExecEffect.completed {i : Instr} {s t : State} (h : ExecEffect i s t) :
    t.status.busy = false ∧ t.status.done = true := by
  cases h <;> exact ⟨rfl, rfl⟩

theorem State.busRead_status (s : State) (off : Nat) : (s.busRead off).status = s.status := by
  obtain ⟨v, d, hr⟩ := busRead_eq s off
  rw [hr]

/-- What a write can do to BUSYERR: keep it, set it as a violation, or acknowledge it (R65, R191). -/
theorem WriteEffect.busyErr {s t : State} {off : Nat} {w : Word} (h : WriteEffect s off w t) :
    t.status.busyErr = s.status.busyErr ∨
    (s.status.busy = true ∧ (s.locate off).guarded = true ∧ t.status.busyErr = true) ∨
    (off = 0x00C ∧ t.status.busyErr = (s.status.busyErr && !w.getLsbD 8)) := by
  cases h with
  | dropped hb hg => exact .inr (.inl ⟨hb, hg, rfl⟩)
  | status ho => exact .inr (.inr ⟨ho, rfl⟩)
  | accept | ctrl | opA | opB | chan | buf | ignored => exact .inl rfl

/-- Everything a step can do to BUSYERR. -/
inductive BusyErrEffect (s : State) : Bool → Prop
  | kept : BusyErrEffect s s.status.busyErr
  /-- a write, while BUSY = 1, to CMD or to the data set (R186) -/
  | violation (off : Nat) (w : Word) (hb : s.status.busy = true) (hw : hostWrites s off w)
      (hg : off = 0x008 ∨ isDataSetOffset s off) : BusyErrEffect s true
  /-- a write to STATUS (R191) -/
  | acknowledged (w : Word) (hw : hostWrites s 0x00C w) : BusyErrEffect s (s.status.busyErr && !w.getLsbD 8)
  | reset (hr : resetHappens s) : BusyErrEffect s false

theorem step_busyErrEffect {s t : State} (hinv : s.Inv) (h : step s = .next t) : BusyErrEffect s t.status.busyErr := by
  cases step_next h with
  | idle | illegal | outside => exact .kept
  | run rest _ _ i _ _ he => rw [(exec_next he).sameBesidesResults.busyErr]; exact .kept
  | reset rest ht => exact .reset ⟨rest, ht⟩
  | read off rest => rw [State.busRead_status]; exact .kept
  | write off w rest ho h4 ht =>
    rcases (busWrite_effect { s with agenda := rest } off w).busyErr with he | ⟨hb, hg, he⟩ | ⟨rfl, he⟩ <;> rw [he]
    · exact .kept
    · exact .violation off w hb ⟨ho, h4, rest, ht⟩
        ((guarded_iff (s := s) hinv.nchLegal.2 hinv.nmaxLegal.2 (hinv.aligned_iff.1 h4)).1 hg)
    · exact .acknowledged w ⟨ho, h4, rest, ht⟩

/-- Settles O16: only a violation can raise BUSYERR, and only an acknowledgement and the reset event can clear it. -/
theorem busyErrIsSetByViolationsAndSticky : Obligations.BusyErrIsSetByViolationsAndSticky := by
  intro s t hinv h
  generalize t.status.busyErr = b, step_busyErrEffect hinv h = he
  cases he with
  | kept => exact ⟨fun h0 h1 => absurd (h0.symm.trans h1) nofun, fun h1 h0 => absurd (h0.symm.trans h1) nofun⟩
  | violation off w hb hw hg => exact ⟨fun _ _ => ⟨hb, off, w, hw, hg⟩, fun _ => nofun⟩
  | acknowledged w hw => exact ⟨fun h0 h1 => by simp [h0] at h1, fun h1 h0 => .inr ⟨w, hw, by simpa [h1] using h0⟩⟩
  | reset hr => exact ⟨fun _ => nofun, fun _ _ => .inl hr⟩

/-- A write changes ERRCODE only by acceptance (R188). -/
theorem WriteEffect.err {s t : State} {off : Nat} {w : Word} (h : WriteEffect s off w t) :
    t.status.err = s.status.err ∨ (s.status.busy = false ∧ off = 0x008) := by
  cases h with
  | accept hb ho => exact .inr ⟨hb, ho⟩
  | dropped | status | ctrl | opA | opB | chan | buf | ignored => exact .inl rfl

/-- Settles O17: of the effects of a step, only acceptance, a completion and the reset event touch ERRCODE. -/
theorem errCodeIsKeptUntilTheNextCommand : Obligations.ErrCodeIsKeptUntilTheNextCommand := by
  intro s t h hne
  cases step_next h with
  | idle | outside => exact absurd rfl hne
  | illegal _ _ hb => exact .inr (.inr ⟨hb, rfl, rfl⟩)
  | run _ _ hb _ _ _ he => exact .inr (.inr ⟨hb, (exec_next he).completed⟩)
  | reset rest ht => exact .inl ⟨rest, ht⟩
  | read off rest => exact absurd (congrArg Status.err (State.busRead_status _ off)) hne
  | write off w rest ho h4 ht =>
    obtain ⟨hb, rfl⟩ := (busWrite_effect { s with agenda := rest } off w).err.resolve_left hne
    exact .inr (.inl ⟨hb, w, ho, h4, rest, ht⟩)

/-- Settles O14: the level is R190's formula, and no enable is set after reset. -/
theorem interruptOutputIsTheLevel : Obligations.InterruptOutputIsTheLevel :=
  ⟨fun s => by simp [State.irq], rfl⟩

end Sys2Proof.Machine

/-! The life of a command word (60_exceptions.md R182 to R189): acceptance, ENGINE's turn, and the errors that change
STATUS alone. -/

namespace Sys2Proof.Machine

/-! ### Acceptance (R188) -/

/-- Settles O5: while BUSY = 0 nothing guards CMD, whose write is acceptance. -/
theorem acceptanceOfACommandWord : Obligations.AcceptanceOfACommandWord := by
  intro s w rest hbase hb ha
  rw [step_hostWrites (off := 0x008) (by decide) (by omega) ha, busWrite_of_idle (s := { s with agenda := rest }) hb]
  rfl

/-! ### ENGINE's turn (R189, R199) -/

/-- Settles O6: ENGINE's turn and the end of the agenda run the pending command alike. -/
theorem stepRunsTheDecodedCommand : Obligations.StepRunsTheDecodedCommand := by
  intro s i hb hd
  refine ⟨fun rest ha => ?_, fun ha => (step_nil ha).trans (engineTurn_run hb hd)⟩
  exact (step_engineTurn (.inr ha)).trans (engineTurn_run (s := { s with agenda := rest }) hb hd)

/-- A word that selects no row of R74 is rejected by the decoder. -/
theorem exists_decode_error {w : Word} (h : ∀ r ∈ opcodeMap, r.selects w = false) : ∃ e, decode w = .error e := by
  cases hd : decode w with
  | error e => exact ⟨e, rfl⟩
  | ok i => exact absurd (selects_rowOf_of_decode hd) (Bool.eq_false_iff.1 (h _ (rowOf_mem_opcodeMap i)))

/-- Settles O7: the decoder rejects such a word, and ENGINE's turn then completes it with ILLEGAL_CMD. -/
theorem illegalWordCompletesWithIllegalCmd : Obligations.IllegalWordCompletesWithIllegalCmd := by
  refine ⟨fun s rest hb h ha => ?_, by decide⟩
  obtain ⟨e, hd⟩ := exists_decode_error h
  rw [step_engineTurn (.inr ha)]
  exact engineTurn_illegal (s := { s with agenda := rest }) hb hd

/-- Settles O30: the end of the agenda is ENGINE's turn, which has no enabled step. -/
theorem idleCoreHoldsItsState : Obligations.IdleCoreHoldsItsState := fun _ ha hb =>
  (step_nil ha).trans (engineTurn_idle hb)

/-! ### Rejections (R183 to R185) -/

/-- A command that its checks give a nonzero code changes STATUS alone (R180). -/
theorem exec_of_commandCode {s : State} {i : Instr} {code : ErrCode} (h : commandCode s i = code)
    (hne : code ≠ .noError) : exec i s = .next (s.complete code) := by
  obtain ⟨t, he, _, ht⟩ := CompletesWith.of_exec (s := s) i
  rw [he, ht (by rwa [h]), h]

theorem anyLengthOk_eq_false {s : State} {n : Nat} (h : n = 0 ∨ s.nmax < n) : anyLengthOk s n = false := by
  rw [Bool.eq_false_iff, ne_eq, anyLengthOk_iff]
  omega

theorem powerLengthOk_eq_false {s : State} {n : Nat} (h : s.nmax < n ∨ ∀ p, n ≠ 2 ^ p) : powerLengthOk s n = false := by
  rw [Bool.eq_false_iff]
  intro hok
  obtain ⟨p, _, hp⟩ := (powerLengthOk_iff s n).1 hok
  exact h.elim (Nat.not_lt.2 (le_nmax_of_powerLengthOk hok)) fun hpow => hpow p hp

/-- Settles O47: each length rule's failure is the command's code. -/
theorem illegalLengthIsRejected : Obligations.IllegalLengthIsRejected := by
  refine fun s n => ⟨fun h => exec_of_commandCode (code := .badLength) ?_ nofun, fun h i hi => ?_⟩
  · rw [commandCode, anyLengthOk_eq_false h]
    rfl
  · refine exec_of_commandCode (code := .badLength) ?_ nofun
    rcases hi with rfl | rfl | rfl | rfl <;> rw [commandCode, powerLengthOk_eq_false h] <;> rfl

/-- Settles O57: the channel's check comes before FSTAT.VALID's, as in R187. -/
theorem filterCommandRejections : Obligations.FilterCommandRejections := by
  refine fun s c => ⟨fun hc i hi => exec_of_commandCode (code := .badChannel) ?_ nofun, fun hc hv => ?_⟩
  · rcases hi with rfl | rfl | rfl | rfl | rfl <;> exact if_pos hc
  · exact execFapply_of_not_valid hc hv

end Sys2Proof.Machine

/-! Progress and reset (70_reset_and_hazards.md R200 to R212): a pending command ends after finitely many events, and what
the reset event leaves. -/

namespace Sys2Proof.Machine

/-! ### The events still to come (R61, R211) -/

/-- A step takes the agenda's first event, and adds none. -/
theorem step_agenda {s t : State} (h : step s = .next t) : t.agenda = s.agenda.tail := by
  have ofEngineTurn {rest : List Event} (ht : engineTurnOf s rest) : rest = s.agenda.tail := by
    rcases ht with ⟨ha, rfl⟩ | ha <;> rw [ha] <;> rfl
  cases step_next h with
  | idle _ ht | illegal _ ht => exact ofEngineTurn ht
  | run _ ht _ _ _ _ he => exact (exec_next he).sameBesidesResults.agenda.trans (ofEngineTurn ht)
  | reset _ ht | outside _ _ ht => rw [ht]; rfl
  | read off rest _ _ ht =>
    obtain ⟨v, d, hr⟩ := busRead_eq { s with agenda := rest } off
    rw [hr, ht]
    rfl
  | write off w rest _ _ ht => rw [(busWrite_effect _ off w).agenda, ht]; rfl

/-- Whether an access is defined depends on BASE_ADDR alone (R51, R56). -/
theorem eventDefined_congr {s t : State} (h : t.base = s.base) (e : Event) : eventDefined t e = eventDefined s e := by
  cases e <;> simp only [eventDefined, State.inWindow, h]

/-- A safe run stays safe (R211). -/
theorem agendaDefined_step {s t : State} (hdef : agendaDefined s) (h : step s = .next t) : agendaDefined t := by
  obtain ⟨_, _, hbase⟩ := parametersNeverChange s t h
  intro e he
  rw [eventDefined_congr hbase]
  rw [step_agenda h] at he
  exact hdef e (List.mem_of_mem_tail he)

/-- A safe run does not stop (R211). -/
theorem step_of_agendaDefined {s : State} (hdef : agendaDefined s) : ∃ t, step s = .next t := by
  obtain ⟨hfault, hrefused⟩ := onlyUndefinedAccessesStop s
  cases h : step s with
  | next t => exact ⟨t, rfl⟩
  | fault f => exact absurd h (hfault f)
  | refused r =>
    obtain ⟨e, rest, ha, he⟩ := hrefused.1 ⟨r, h⟩
    exact absurd (hdef e (by simp [ha])) (by simp [he])

/-! ### Progress (R210, R212) -/

/-- With no event left a pending command completes in this step. -/
theorem step_completes_of_nil {s : State} (hb : s.status.busy = true) (ha : s.agenda = []) :
    ∃ t, step s = .next t ∧ t.status.busy = false := by
  obtain ⟨t, ht, hstatus, _⟩ := engineCompletesWithTheCheckCode s
  exact ⟨t, by rw [step_nil ha, engineTurn, if_pos hb, ht], by rw [hstatus]⟩

/-- Settles O9, by induction on the events still to come: each step takes one, and their end is ENGINE's turn. -/
theorem everyAcceptedCommandCompletes : Obligations.EveryAcceptedCommandCompletes := by
  intro s hb hdef
  induction ha : s.agenda generalizing s with
  | nil =>
    obtain ⟨t, ht, hdone⟩ := step_completes_of_nil hb ha
    exact ⟨1, t, Nat.le_refl 1, run_succ ht 0, hdone⟩
  | cons e rest ih =>
    obtain ⟨t, ht⟩ := step_of_agendaDefined hdef
    cases hbt : t.status.busy with
    | false => exact ⟨1, t, by simp, run_succ ht 0, hbt⟩
    | true =>
      have hrest : t.agenda = rest := by rw [step_agenda ht, ha]; rfl
      obtain ⟨k, u, hk, hu, hdone⟩ := ih t hbt (agendaDefined_step hdef ht) hrest
      exact ⟨k + 1, u, Nat.succ_le_succ hk, (run_succ ht k).trans hu, hdone⟩

/-! ### The reset event (R200, R201) -/

/-- Every register of a channel is 0 after reset, FSTAT's fields among them (R30, R31). -/
theorem Channel.read_reset (r : ChanReg) : Channel.reset.read r = 0 := by cases r <;> rfl

theorem State.chan_resetEvent (s : State) (c : Nat) : s.resetEvent.chan c = Channel.reset :=
  State.chan_resetWith s.log2Nmax s.chans.length s.base c

/-- Settles O29: the event's step is `resetEvent`, whatever was pending. -/
theorem resetEventRestoresEveryRegister : Obligations.ResetEventRestoresEveryRegister := by
  intro s rest ha
  refine ⟨State.resetEvent { s with agenda := rest }, step_cons ha, rfl, rfl, rfl, rfl, rfl, rfl, fun c _ => ?_, rfl,
    State.nch_resetEvent _, rfl, rfl⟩
  rw [State.chan_resetEvent]
  exact ⟨rfl, Channel.read_reset⟩

end Sys2Proof.Machine
